-- ==== Sys2Proof/Word.lean ====
section
/-!
DEFINITION. The word types of the BFC and the plainest arithmetic on them (00_scope.md R6).
-/

namespace Sys2Proof

/-- One byte of the buffer (10_state.md R9). -/
abbrev Byte := BitVec 8

/-- A command word (30_encoding.md R50). -/
abbrev Word32 := BitVec 32

/-- A 64-bit host register (10_state.md R18). -/
abbrev Word64 := BitVec 64

/-- `ceil(a / b)` of 00_scope.md R6, for `b > 0`. -/
def ceilDiv (a b : Nat) : Nat := (a + (b - 1)) / b

end Sys2Proof
end

