-- ==== Sys2Proof/Syntax.lean ====
section
/-!
DEFINITION. The commands of the BFC (30_encoding.md R51): one constructor per row of the opcode table.
-/

namespace Sys2Proof

/-- A byte and bit order (20_memory.md R33). -/
inductive Endian where
  | little
  | big
  deriving DecidableEq, Repr

/-- Field `U` of a bit command (30_encoding.md R53). -/
inductive Signedness where
  /-- `U = 0`: signed range, sign extension. -/
  | signed
  /-- `U = 1`: unsigned range, zero extension. -/
  | unsigned
  deriving DecidableEq, Repr

/-- Field `E` of a bit or float command (30_encoding.md R54). The fourth value, `11`, is illegal and is no order. -/
inductive OrderSel where
  /-- `E = 00`: the configured default order. -/
  | configured
  /-- `E = 01`. -/
  | little
  /-- `E = 10`. -/
  | big
  deriving DecidableEq, Repr

/-- The commands. `n` is the bit count of field `N`, `u` field `U`, `e` field `E`. -/
inductive Instr where
  /-- `SKIP` (40_cursor.md R63). -/
  | skip
  /-- `GOTO` (40_cursor.md R64). -/
  | goto
  /-- `ALIGN` (40_cursor.md R65). -/
  | align
  /-- `ALIGNREV` (40_cursor.md R66). -/
  | alignrev
  /-- `WRBITS` (41_bitcodec.md R75). -/
  | wrbits (n : Nat) (u : Signedness) (e : OrderSel)
  /-- `RDBITS` (41_bitcodec.md R76). -/
  | rdbits (n : Nat) (u : Signedness) (e : OrderSel)
  /-- `WRF16` (42_float.md R90). -/
  | wrf16 (e : OrderSel)
  /-- `RDF16` (42_float.md R91). -/
  | rdf16 (e : OrderSel)
  /-- `WRF32` (42_float.md R92). -/
  | wrf32 (e : OrderSel)
  /-- `RDF32` (42_float.md R93). -/
  | rdf32 (e : OrderSel)
  /-- `WRF64` (42_float.md R94). -/
  | wrf64 (e : OrderSel)
  /-- `RDF64` (42_float.md R95). -/
  | rdf64 (e : OrderSel)
  deriving DecidableEq, Repr

end Sys2Proof
end

