-- ==== Sys2Proof/WellFormed.lean ====
section
/-!
DEFINITION. Which commands a command word can carry: the bit count of field `N` has six bits (30_encoding.md R52).
A count that six bits hold but the command does not accept (0 or 33..63 for `WRBITS`) is well formed: it "passes
decode and raises `InvalidArgument` at the command's own bit-count check".
-/

namespace Sys2Proof

/-- The command has an encoding. -/
def Instr.wellFormed : Instr → Bool
  | .skip => true
  | .goto => true
  | .align => true
  | .alignrev => true
  | .wrbits n _ _ => decide (n < 64)
  | .rdbits n _ _ => decide (n < 64)
  | .wrf16 _ => true
  | .rdf16 _ => true
  | .wrf32 _ => true
  | .rdf32 _ => true
  | .wrf64 _ => true
  | .rdf64 _ => true

/-- The command has an encoding, as a proposition. -/
abbrev Instr.WellFormed (i : Instr) : Prop := i.wellFormed = true

end Sys2Proof
end

