-- ==== Sys2Proof/Decode.lean ====
section
/-!
DEFINITION. Decoding and encoding a command word (30_encoding.md R50 to R58). Decoding is total: a word is one command
or is illegal, by a named reason. The command stream has no byte order of its own (20_memory.md R33): a command is one
32-bit register write.
-/

namespace Sys2Proof

/-- Why a word is illegal (30_encoding.md R57). -/
inductive IllegalWord where
  /-- `RSV != 0`. -/
  | reservedBits
  /-- `OP` is not in the opcode map of R51. -/
  | unassignedOpcode
  /-- `E = 11`. -/
  | illegalOrder
  /-- A field that R56 requires to be 0 is not 0. -/
  | unusedField
  deriving DecidableEq, Repr

/-- What decoding a word answers. -/
inductive Decoded where
  | command (i : Instr)
  | illegal (why : IllegalWord)
  deriving DecidableEq, Repr

/-- Field `OP`, bits `[7:0]` (30_encoding.md R50). -/
def fieldOp (w : Word32) : BitVec 8 := w.extractLsb' 0 8

/-- Field `N`, bits `[13:8]` (30_encoding.md R50). -/
def fieldN (w : Word32) : BitVec 6 := w.extractLsb' 8 6

/-- Field `U`, bit `[14]` (30_encoding.md R50). -/
def fieldU (w : Word32) : BitVec 1 := w.extractLsb' 14 1

/-- Field `E`, bits `[16:15]` (30_encoding.md R50). -/
def fieldE (w : Word32) : BitVec 2 := w.extractLsb' 15 2

/-- Field `RSV`, bits `[31:17]` (30_encoding.md R50). -/
def fieldRsv (w : Word32) : BitVec 15 := w.extractLsb' 17 15

/-- 30_encoding.md R53. -/
def signednessOf (u : BitVec 1) : Signedness :=
  if u = 1#1 then .unsigned else .signed

/-- 30_encoding.md R54; `E = 11` is excluded before this is asked. -/
def orderSelOf (e : BitVec 2) : OrderSel :=
  if e = 1#2 then .little else if e = 2#2 then .big else .configured

/-- A cursor command uses none of `N`, `U`, `E` (30_encoding.md R56). -/
def decodeCursor (w : Word32) (i : Instr) : Decoded :=
  if fieldN w = 0 ∧ fieldU w = 0 ∧ fieldE w = 0 then .command i else .illegal .unusedField

/-- A bit command uses `N`, `U` and `E` (30_encoding.md R51). -/
def decodeBits (w : Word32) (mk : Nat → Signedness → OrderSel → Instr) : Decoded :=
  .command (mk (fieldN w).toNat (signednessOf (fieldU w)) (orderSelOf (fieldE w)))

/-- A float command uses `E` only (30_encoding.md R56). -/
def decodeFloat (w : Word32) (mk : OrderSel → Instr) : Decoded :=
  if fieldN w = 0 ∧ fieldU w = 0 then .command (mk (orderSelOf (fieldE w))) else .illegal .unusedField

/-- The opcode map (30_encoding.md R51), for a word whose `RSV` is 0 and whose `E` is not `11`. -/
def decodeOp (w : Word32) : Decoded :=
  if fieldOp w = 0x01 then decodeCursor w .skip
  else if fieldOp w = 0x02 then decodeCursor w .goto
  else if fieldOp w = 0x03 then decodeCursor w .align
  else if fieldOp w = 0x04 then decodeCursor w .alignrev
  else if fieldOp w = 0x10 then decodeBits w .wrbits
  else if fieldOp w = 0x11 then decodeBits w .rdbits
  else if fieldOp w = 0x20 then decodeFloat w .wrf16
  else if fieldOp w = 0x21 then decodeFloat w .rdf16
  else if fieldOp w = 0x22 then decodeFloat w .wrf32
  else if fieldOp w = 0x23 then decodeFloat w .rdf32
  else if fieldOp w = 0x24 then decodeFloat w .wrf64
  else if fieldOp w = 0x25 then decodeFloat w .rdf64
  else .illegal .unassignedOpcode

/-- Decode a command word (30_encoding.md R57: every word is one command or illegal). -/
def decode (w : Word32) : Decoded :=
  if fieldRsv w ≠ 0 then .illegal .reservedBits
  else if fieldE w = 3 then .illegal .illegalOrder
  else decodeOp w

/-- The instruction the decoder reads from a table row's bits; a BFC instruction is one 32-bit word, so the bits above
`nbits` are 0 up to bit 31. -/
def decodeTableWord (nbits w : Nat) : Option Instr :=
  match decode (BitVec.ofNat 32 (w % 2 ^ nbits)) with
  | .command i => some i
  | .illegal _ => none

/-- Field `U` of a signedness (30_encoding.md R53). -/
def signednessBits : Signedness → BitVec 1
  | .signed => 0#1
  | .unsigned => 1#1

/-- Field `E` of an order (30_encoding.md R54). -/
def orderBits : OrderSel → BitVec 2
  | .configured => 0#2
  | .little => 1#2
  | .big => 2#2

/-- A word from its fields, most significant first: `RSV = 0`, `E`, `U`, `N`, `OP` (30_encoding.md R50). -/
def assembleWord (op : BitVec 8) (n : Nat) (u : BitVec 1) (e : BitVec 2) : Word32 :=
  0#15 ++ e ++ u ++ BitVec.ofNat 6 n ++ op

/-- The command word of a command (30_encoding.md R51, R60). -/
def encode : Instr → Word32
  | .skip => assembleWord 0x01 0 0 0
  | .goto => assembleWord 0x02 0 0 0
  | .align => assembleWord 0x03 0 0 0
  | .alignrev => assembleWord 0x04 0 0 0
  | .wrbits n u e => assembleWord 0x10 n (signednessBits u) (orderBits e)
  | .rdbits n u e => assembleWord 0x11 n (signednessBits u) (orderBits e)
  | .wrf16 e => assembleWord 0x20 0 0 (orderBits e)
  | .rdf16 e => assembleWord 0x21 0 0 (orderBits e)
  | .wrf32 e => assembleWord 0x22 0 0 (orderBits e)
  | .rdf32 e => assembleWord 0x23 0 0 (orderBits e)
  | .wrf64 e => assembleWord 0x24 0 0 (orderBits e)
  | .rdf64 e => assembleWord 0x25 0 0 (orderBits e)

end Sys2Proof
end

