-- ==== Sys2Proof/Config.lean ====
section
/-!
DEFINITION. What one instance of the BFC fixes (00_scope.md R5), and the free values: the values the spec leaves
unstated, as an opaque constant that nothing in Lean can evaluate.
-/

namespace Sys2Proof.Config

/-- The parameters of one instance (00_scope.md R5: "Each is fixed for one instance; a model takes each as an
argument"). They stand in the state as plain data that no step changes, so a claim over all states is a claim over
all their values (log 5, log 6, log 7). -/
structure Params where
  /-- `MAX_BYTES`, the largest buffer in bytes; `none` is the default, unbounded (D14). -/
  maxBytes : Option Nat
  /-- `NAN16`, the binary16 pattern written for a NaN operand (D23). -/
  nan16 : BitVec 16
  /-- `NAN32`, the binary32 pattern written for a NaN operand (D23). -/
  nan32 : BitVec 32
  /-- `NAN64D`, the binary64 pattern a decode returns for any NaN (D23). -/
  nan64d : BitVec 64
  /-- `HALF_MAX`, the largest magnitude a half-float write accepts (D20). -/
  halfMax : Nat
  deriving DecidableEq, Repr

/-- The values of the table of 00_scope.md R5. -/
def Params.standard : Params where
  maxBytes := none
  nan16 := 0x7E00#16
  nan32 := 0x7FC00000#32
  nan64d := 0x7FF8000000000000#64
  halfMax := 65504

/-- `n <= MAX_BYTES`, which an unbounded instance always answers (00_scope.md R5, D14). -/
def Params.fits (p : Params) (n : Nat) : Bool :=
  match p.maxBytes with
  | none => true
  | some m => decide (n ≤ m)

/-- The free values. DESIGN CHOICE (log 3, log 4): the spec states no value for a 64-bit register whose figure is
`2^64` or more. The k-th such value of a run is `freeWord k`; it has no body, so no claim can rest on what it is. -/
opaque freeWord : Nat → Word64

end Sys2Proof.Config
end

