-- ==== Sys2Proof/Machine/State.lean ====
section
/-!
DEFINITION. The state of one BFC instance as plain data (10_state.md R8), the reasons a step can stop, and the state
after reset. No operation stands here: they are in Machine/Ops.lean.
-/

namespace Sys2Proof.Machine

open Sys2Proof

/-- The byte buffer (10_state.md R9): `size` bytes at addresses `0 .. size-1`. `cells` lists the bytes that are not
`0x00`, addresses strictly rising; every other byte below `size` is `0x00` (log 12). -/
structure Buffer where
  cells : List Host.Cell
  size : Nat
  deriving DecidableEq, Repr

/-- The mode configuration (10_state.md R16), loaded at reset and constant until the next. -/
structure ModeConfig where
  /-- The order a command with `E = 00` uses. -/
  endian : Endian
  /-- A capacity shortfall raises `OutOfBounds` (true) or grows the buffer (false). -/
  strict : Bool
  /-- Growth increment in bytes; 0 grows by exactly the deficit. -/
  chunk : Word64
  /-- Held only (10_state.md R17). -/
  enforceWide : Bool
  /-- Held only (10_state.md R17). -/
  errorDump : Bool
  deriving DecidableEq, Repr

/-- The arguments of a construction, that is of a reset (70_reset_and_hazards.md R112). The three numbers are
integers: R112's `require` lines refuse what does not fit. -/
structure ResetArgs where
  bytes : List Byte
  byteOffset : Int
  bitOffset : Int
  endianness : Endian
  strict : Bool
  extendChunkSize : Int
  enforceWideInt : Bool
  errorDump : Bool
  deriving DecidableEq, Repr

/-- One host interaction (70_reset_and_hazards.md R124, R111): a register write or read by register number
(10_state.md R18), or a reset. -/
inductive HostAccess where
  | write (reg : Nat) (value : Word64)
  | read (reg : Nat)
  | reset (args : ResetArgs)
  deriving DecidableEq, Repr

/-- What a host interaction yields (70_reset_and_hazards.md R124). -/
inductive HostEvent where
  /-- A `CMD` write ended with this `STATUS.CODE`; a successful read command wrote this `RES`. -/
  | commandDone (code : BitVec 3) (result : Option Word64)
  /-- A read of this register returned this value. -/
  | readValue (reg : Nat) (value : Word64)
  deriving DecidableEq, Repr

/-- The state of one BFC instance: the tuple of 10_state.md R8, the instance's parameters (00_scope.md R5), and three
fields of the model's own. -/
structure State where
  /-- The parameters of the instance (00_scope.md R5). -/
  inst : Config.Params
  /-- `buf` and `size` (10_state.md R9). -/
  buf : Buffer
  /-- `cur.off` (10_state.md R12). -/
  curOff : Word64
  /-- `cur.bit` (10_state.md R12). -/
  curBit : BitVec 3
  /-- `cfg` (10_state.md R16). -/
  cfg : ModeConfig
  /-- `CMD` (10_state.md R19). -/
  cmd : Word32
  /-- `OPA` (10_state.md R20). -/
  opa : Word64
  /-- `OPB` (10_state.md R20). -/
  opb : Word64
  /-- `RES` (10_state.md R21). -/
  res : Word64
  /-- `STATUS.CODE` (10_state.md R22); the other bits of `STATUS` read 0. -/
  statusCode : BitVec 3
  /-- `ERR_OFFSET` (10_state.md R23). -/
  errOffset : Word64
  /-- `ERR_SIZE` (10_state.md R23). -/
  errSize : Word64
  /-- `ERR_NEEDED` (10_state.md R23). -/
  errNeeded : Word64
  /-- `BUF_ADDR` (10_state.md R25). -/
  bufAddr : Word64
  /-- The model's own: the host's interactions still to come, oldest first (log 1). -/
  pending : List HostAccess
  /-- The model's own: what the interactions so far yielded, newest first (log 2). -/
  hostLog : List HostEvent
  /-- The model's own: how many free values have been drawn (log 3). -/
  draws : Nat
  deriving DecidableEq, Repr

/-- The faults: the model stops and the machine would not be described further. -/
inductive Fault where
  /-- Raised by `Buffer.within` (Machine/Ops.lean) when a command would touch a byte at `addr .. addr+count-1` that
  the buffer does not have (20_memory.md R30). Safe: `EnsureCapacity` comes before every access (20_memory.md R36), so
  no run reaches it (log 13). -/
  | outsideBuffer (addr count : Nat)
  deriving DecidableEq, Repr

/-- Which `require` of 70_reset_and_hazards.md R112 the construction arguments violate. -/
inductive ConstructionError where
  | tooManyBytes
  | positionOutOfRange
  | chunkOutOfRange
  deriving DecidableEq, Repr

/-- The refusals: the model gives no meaning. -/
inductive Refusal where
  /-- Raised by an arm of `exec` that has no meaning yet. Safe: nothing can be proved of the instruction. -/
  | notModelled (mnemonic : String)
  /-- Raised by a reset whose arguments 70_reset_and_hazards.md R114 refuses: "no instance is created, and a model has
  no initial state for them". Safe (log 14). -/
  | construction (why : ConstructionError)
  deriving DecidableEq, Repr

/-- The defaults of 70_reset_and_hazards.md R113. -/
def ResetArgs.standard : ResetArgs where
  bytes := []
  byteOffset := 0
  bitOffset := 0
  endianness := .little
  strict := false
  extendChunkSize := 0
  enforceWideInt := false
  errorDump := false

/-- The machine right after reset (10_state.md R28) with the default construction arguments (70_reset_and_hazards.md
R113), on an instance with the parameters of 00_scope.md R5. -/
def State.reset : State where
  inst := Config.Params.standard
  buf := ⟨[], 0⟩
  curOff := 0
  curBit := 0
  cfg := ⟨.little, false, 0, false, false⟩
  cmd := 0
  opa := 0
  opb := 0
  res := 0
  statusCode := 0
  errOffset := 0
  errSize := 0
  errNeeded := 0
  bufAddr := 0
  pending := []
  hostLog := []
  draws := 0

end Sys2Proof.Machine
end

