-- ==== Sys2Proof/Machine/Flags.lean ====
section
/-!
DEFINITION. `STATUS.CODE`, "the BFC's only flag-like state; there are no condition codes" (10_state.md R22), and the
error kinds it reports (60_exceptions.md R97).
-/

namespace Sys2Proof.Machine

/-- The four error kinds (60_exceptions.md R97). `unsupportedOperation` is never raised (R100). -/
inductive ErrorKind where
  | outOfBounds
  | rangeError
  | invalidArgument
  | unsupportedOperation
  deriving DecidableEq, Repr

/-- The code of a command that completes (60_exceptions.md R97). -/
def successCode : BitVec 3 := 0

/-- The code of an error kind (60_exceptions.md R97). -/
def errorCode : ErrorKind → BitVec 3
  | .outOfBounds => 1
  | .rangeError => 2
  | .invalidArgument => 3
  | .unsupportedOperation => 4

/-- The codes a command of this spec writes: 4 is never raised (60_exceptions.md R100), 5 to 7 never written (R97). -/
def writtenCode (c : BitVec 3) : Bool :=
  c = successCode || c = errorCode .outOfBounds || c = errorCode .rangeError || c = errorCode .invalidArgument

end Sys2Proof.Machine
end

