-- ==== Sys2Proof/Machine/Operands.lean ====
section
/-!
DEFINITION. The operand forms of the commands (30_encoding.md R55), the effective byte order (20_memory.md R34), the
range and pattern of a bit field (41_bitcodec.md R67, R68) and its extension to `RES` (R74).
-/

namespace Sys2Proof.Machine

open Sys2Proof

/-- `OPA` read as s64, `sint_64(OPA)` (30_encoding.md R55). -/
def State.opaInt (s : State) : Int := s.opa.toInt

/-- `OPB` read as s64 (30_encoding.md R55). -/
def State.opbInt (s : State) : Int := s.opb.toInt

/-- `OPA` read as u64 (30_encoding.md R55). -/
def State.opaNat (s : State) : Nat := s.opa.toNat

/-- `Eff(E)`, the byte order a command uses (20_memory.md R34). -/
def effOrder (e : OrderSel) (s : State) : Endian :=
  match e with
  | .configured => s.cfg.endian
  | .little => .little
  | .big => .big

/-- `InRange(v, n, U)` (41_bitcodec.md R67). -/
def inRange (v : Int) (n : Nat) (u : Signedness) : Bool :=
  match u with
  | .unsigned => decide (0 ≤ v ∧ v ≤ 2 ^ n - 1)
  | .signed => decide (-2 ^ (n - 1) ≤ v ∧ v ≤ 2 ^ (n - 1) - 1)

/-- The n-bit pattern of a value, `v mod 2^n` (41_bitcodec.md R68, 00_scope.md R6). -/
def fieldPattern (v : Int) (n : Nat) : Nat := (v % 2 ^ n).toNat

/-- `zext_64(p)` or `sext_64(p)` of an n-bit pattern (41_bitcodec.md R74, 00_scope.md R6). -/
def extendField (p n : Nat) (u : Signedness) : Word64 :=
  match u with
  | .unsigned => BitVec.ofNat 64 p
  | .signed => if p.testBit (n - 1) then BitVec.ofInt 64 ((p : Int) - 2 ^ n) else BitVec.ofNat 64 p

end Sys2Proof.Machine
end

