-- ==== Sys2Proof/Machine/Ops.lean ====
section
/-!
DEFINITION. The named operations over the buffer, the cursor and the registers: memory reads and writes, the capacity
check and growth (20_memory.md R36), raising an error (60_exceptions.md R104), bit fields (41_bitcodec.md R69, R70),
byte access (42_float.md R89), and construction (70_reset_and_hazards.md R112).
-/

namespace Sys2Proof.Machine

open Sys2Proof

/-- What a command answers. -/
abbrev Result := Host.Outcome State Fault Refusal

/-! ### Memory cells -/

/-- The bytes of a buffer that are not `0x00`. -/
abbrev Memory := List Host.Cell

/-- What an unlisted address of the buffer reads as: "Every byte added by growth is `0x00`" (20_memory.md R37), and a
construction byte that is `0x00` is unlisted (log 12). -/
def unlistedByte : Byte := 0

/-- The byte at an address. -/
def Memory.read : Memory → Nat → Byte
  | [], _ => unlistedByte
  | c :: rest, a => if c.1 = a then c.2 else Memory.read rest a

/-- Put a cell before the first cell of a higher address. -/
def Memory.insert (a : Nat) (b : Byte) : Memory → Memory
  | [] => [(a, b)]
  | c :: rest => if a < c.1 then (a, b) :: c :: rest else c :: Memory.insert a b rest

/-- Take out what is listed for an address. -/
def Memory.erase (m : Memory) (a : Nat) : Memory := m.filter (fun c => c.1 ≠ a)

/-- Store a byte: `buf[a] <- b`. A byte that an unlisted address reads as is not listed. -/
def Memory.write (m : Memory) (a : Nat) (b : Byte) : Memory :=
  if b = unlistedByte then m.erase a else Memory.insert a b (m.erase a)

/-- `MemRead(addr, n)` (00_scope.md R6). -/
def Memory.readBytes (m : Memory) (addr : Nat) : Nat → List Byte
  | 0 => []
  | n + 1 => m.read addr :: Memory.readBytes m (addr + 1) n

/-- `MemWrite(addr, n, v)` (00_scope.md R6), with `n` the length of `v`. -/
def Memory.writeBytes (m : Memory) (addr : Nat) : List Byte → Memory
  | [] => m
  | b :: rest => Memory.writeBytes (m.write addr b) (addr + 1) rest

/-- Addresses strictly rising. -/
def Memory.rising : Memory → Bool
  | [] => true
  | [_] => true
  | c :: d :: rest => decide (c.1 < d.1) && Memory.rising (d :: rest)

/-- The canonical form of memory: addresses strictly rising, no entry that an unlisted address reads as. -/
def Memory.wf (m : Memory) : Bool := m.rising && m.all (fun c => c.2 ≠ unlistedByte)

/-- The canonical form of a buffer: canonical cells, all below `size`. -/
def Buffer.wf (b : Buffer) : Bool := Memory.wf b.cells && b.cells.all (fun c => c.1 < b.size)

/-- Byte `a` of the buffer, as the data port and the commands see it below `size` (10_state.md R25). -/
def Buffer.byte (b : Buffer) (a : Nat) : Byte := Memory.read b.cells a

/-- The bytes `addr .. addr+count-1` exist (20_memory.md R30). -/
def Buffer.has (b : Buffer) (addr count : Nat) : Bool := decide (addr + count ≤ b.size)

/-- The buffer of a byte sequence (70_reset_and_hazards.md R112: `buf <- bytes; size <- len(bytes)`). -/
def Buffer.ofBytes (bytes : List Byte) : Buffer := ⟨Memory.writeBytes [] 0 bytes, bytes.length⟩

/-- Append `k` bytes `0x00` (20_memory.md R37, R38). -/
def Buffer.grow (b : Buffer) (k : Nat) : Buffer := { b with size := b.size + k }

/-! ### Updates of the state -/

/-- Replace the buffer. -/
def State.setBuf (b : Buffer) (s : State) : State := { s with buf := b }

/-- Replace the bytes of the buffer, keeping its size. -/
def State.setCells (m : Memory) (s : State) : State := { s with buf := ⟨m, s.buf.size⟩ }

/-- Replace the cursor. -/
def State.setCursor (off : Word64) (bit : BitVec 3) (s : State) : State := { s with curOff := off, curBit := bit }

/-- `RES <- v` (10_state.md R21). -/
def State.setRes (v : Word64) (s : State) : State := { s with res := v }

/-- `STATUS.CODE <- 0`: the command completes (60_exceptions.md R102). -/
def State.complete (s : State) : State := { s with statusCode := successCode }

/-! ### Figures in 64-bit registers -/

/-- A figure in a 64-bit register. DESIGN CHOICE (log 4): below `2^64` it is the figure; the spec states no value for
a figure of `2^64` or more ("no arithmetic in a rule wraps unless the rule says mod", 00_scope.md R6), and that value
is free: the free value of number `draw`. -/
def figure64 (draw x : Nat) : Word64 :=
  if x < 2 ^ 64 then BitVec.ofNat 64 x else Config.freeWord draw

/-- How many free values a figure in a 64-bit register takes (log 3). -/
def figureDraws (x : Nat) : Nat := if x < 2 ^ 64 then 0 else 1

/-! ### Errors -/

/-- `raise K(needed)` (60_exceptions.md R104): the ONE operation that takes an error. It saves `cur.off`, `size` and
the capacity figure in the error registers, writes the kind's code, and changes nothing else (R101). There is no
handler, vector or saved context, and so no return from an error (R106). -/
def State.raise (k : ErrorKind) (needed : Nat) (s : State) : State :=
  { s with
    errOffset := s.curOff
    errSize := figure64 s.draws s.buf.size
    errNeeded := figure64 (s.draws + figureDraws s.buf.size) needed
    statusCode := errorCode k
    draws := s.draws + figureDraws s.buf.size + figureDraws needed }

/-- A command that ends with `raise K(0)`, K not `OutOfBounds`. -/
def fail (k : ErrorKind) (s : State) : Result := .next (s.raise k 0)

/-! ### The cursor -/

/-- The absolute bit position `cur.off*8 + cur.bit` (10_state.md R12). -/
def State.position (s : State) : Nat := s.curOff.toNat * 8 + s.curBit.toNat

/-- `SetCursor(a)` (40_cursor.md R62) and `STATUS.CODE <- 0`: the end of every cursor command. -/
def moveCursor (a : Int) (s : State) : Result :=
  if a < 0 ∨ 2 ^ 67 ≤ a then fail .invalidArgument s
  else .next (s.setCursor (BitVec.ofNat 64 (a.toNat / 8)) (BitVec.ofNat 3 (a.toNat % 8))).complete

/-- `cur.off <- cur.off + bytes; cur.bit <- bit`, the advance of a buffer command (41_bitcodec.md R71, 42_float.md
R89). DESIGN CHOICE (log 4): at the top of the range, where the sum does not fit the 64-bit `cur.off` (10_state.md
R12), the new `cur.off` is free. -/
def State.advance (bytes bit : Nat) (s : State) : State :=
  { s with
    curOff := figure64 s.draws (s.curOff.toNat + bytes)
    curBit := BitVec.ofNat 3 bit
    draws := s.draws + figureDraws (s.curOff.toNat + bytes) }

/-! ### Capacity -/

/-- `needed` of `EnsureCapacity(at, nbytes, nbits, bo)` (20_memory.md R36). -/
def neededBytes (start nbytes nbits bo : Nat) : Nat := start + nbytes + ceilDiv (nbits + bo) 8

/-- By how much the buffer grows to cover a deficit (20_memory.md R36). -/
def growthOf (chunk deficit : Nat) : Nat :=
  if chunk = 0 then deficit else chunk * ceilDiv deficit chunk

/-- `EnsureCapacity` (20_memory.md R36) once `needed` is known: the buffer to use, or none where it raises
`OutOfBounds(needed)`. -/
def ensureCapacity (needed : Nat) (s : State) : Option Buffer :=
  if needed ≤ s.buf.size then some s.buf
  else if s.cfg.strict then none
  else
    let grow := growthOf s.cfg.chunk.toNat (needed - s.buf.size)
    if s.inst.fits (s.buf.size + grow) then some (s.buf.grow grow) else none

/-- Go on with the buffer that `EnsureCapacity` leaves, or raise `OutOfBounds(needed)` with nothing changed
(20_memory.md R36). -/
def withCapacity (needed : Nat) (s : State) (go : State → Result) : Result :=
  match ensureCapacity needed s with
  | none => .next (s.raise .outOfBounds needed)
  | some b => go (s.setBuf b)

/-- Go on if the bytes `addr .. addr+count-1` exist; an address outside the buffer does not (20_memory.md R30). After
`EnsureCapacity` they always do (log 13). -/
def within (addr count : Nat) (s : State) (go : Result) : Result :=
  if s.buf.has addr count then go else .fault (.outsideBuffer addr count)

/-! ### Bit fields -/

/-- Chunk width `w = min(n - i, 8 - k)` at stream position `q` (41_bitcodec.md R69). -/
def chunkWidth (n i q : Nat) : Nat := min (n - i) (8 - q % 8)

/-- `sh`: where a chunk of `w` bits stands in its byte, at stream index `k` (41_bitcodec.md R69). -/
def chunkShift (e : Endian) (k w : Nat) : Nat :=
  match e with
  | .big => 8 - k - w
  | .little => k

/-- `c`: the next `w` bits of an n-bit pattern of which `i` are done (41_bitcodec.md R69). -/
def chunkBits (e : Endian) (p n i w : Nat) : Nat :=
  match e with
  | .big => p / 2 ^ (n - i - w) % 2 ^ w
  | .little => p / 2 ^ i % 2 ^ w

/-- `m`: the bits of a chunk in its byte (41_bitcodec.md R69). -/
def chunkMask (w sh : Nat) : Byte := BitVec.ofNat 8 (2 ^ w - 1) <<< sh

/-- `(b AND (0xFF XOR m)) OR (c << sh)` (41_bitcodec.md R69). -/
def mergeChunk (b : Byte) (c w sh : Nat) : Byte :=
  (b &&& (0xFF#8 ^^^ chunkMask w sh)) ||| (BitVec.ofNat 8 c <<< sh)

/-- The loop of `WriteField` (41_bitcodec.md R69) from stream position `q` with `i` bits done; a chunk has at least one
bit, so `fuel = n` is enough. -/
def writeLoop (e : Endian) (p n : Nat) : (fuel q i : Nat) → Memory → Memory
  | 0, _, _, m => m
  | fuel + 1, q, i, m =>
    if i < n then
      let w := chunkWidth n i q
      let byte := mergeChunk (m.read (q / 8)) (chunkBits e p n i w) w (chunkShift e (q % 8) w)
      writeLoop e p n fuel (q + w) (i + w) (m.write (q / 8) byte)
    else m

/-- `WriteField(p, n, e)` at stream position `q` (41_bitcodec.md R69). -/
def writeField (e : Endian) (p n q : Nat) (m : Memory) : Memory := writeLoop e p n n q 0 m

/-- `(buf[a] >> sh) AND (2^w - 1)` (41_bitcodec.md R70). -/
def extractChunk (b : Byte) (w sh : Nat) : Nat := b.toNat / 2 ^ sh % 2 ^ w

/-- The pattern after one more chunk `c` of `w` bits, `i` bits done before it (41_bitcodec.md R70). -/
def joinChunk (e : Endian) (p c w i : Nat) : Nat :=
  match e with
  | .big => p * 2 ^ w + c
  | .little => p + c * 2 ^ i

/-- The loop of `ReadField` (41_bitcodec.md R70). -/
def readLoop (e : Endian) (n : Nat) (m : Memory) : (fuel q i p : Nat) → Nat
  | 0, _, _, p => p
  | fuel + 1, q, i, p =>
    if i < n then
      let w := chunkWidth n i q
      let c := extractChunk (m.read (q / 8)) w (chunkShift e (q % 8) w)
      readLoop e n m fuel (q + w) (i + w) (joinChunk e p c w i)
    else p

/-- `ReadField(n, e)` at stream position `q` (41_bitcodec.md R70). -/
def readField (e : Endian) (n q : Nat) (m : Memory) : Nat := readLoop e n m n q 0 0

/-- How many bytes an n-bit field at the cursor touches (20_memory.md R32). -/
def State.fieldBytes (n : Nat) (s : State) : Nat := ceilDiv (n + s.curBit.toNat) 8

/-- `needed` of a bit command, `EnsureCapacity(cur.off, 0, n, cur.bit)` (20_memory.md R39). -/
def State.fieldNeeded (n : Nat) (s : State) : Nat := neededBytes s.curOff.toNat 0 n s.curBit.toNat

/-- The cursor advance of a bit command of `n` bits (41_bitcodec.md R71). -/
def State.advanceBits (n : Nat) (s : State) : State :=
  s.advance ((n + s.curBit.toNat) / 8) ((n + s.curBit.toNat) % 8)

/-! ### Byte access -/

/-- `LE(p, w)` (00_scope.md R6). -/
def bytesLE (p : Nat) : Nat → List Byte
  | 0 => []
  | w + 1 => BitVec.ofNat 8 p :: bytesLE (p / 256) w

/-- `BE(p, w)` or `LE(p, w)` (00_scope.md R6). -/
def layoutBytes (e : Endian) (p w : Nat) : List Byte :=
  match e with
  | .little => bytesLE p w
  | .big => (bytesLE p w).reverse

/-- The pattern whose `LE` layout a byte sequence is. -/
def patternLE : List Byte → Nat
  | [] => 0
  | b :: rest => b.toNat + 256 * patternLE rest

/-- The pattern whose layout a byte sequence is (42_float.md R91, R93, R95). -/
def gatherBytes (e : Endian) (bytes : List Byte) : Nat :=
  match e with
  | .little => patternLE bytes
  | .big => patternLE bytes.reverse

/-- `needed` of a float command of `w` bytes, `EnsureCapacity(cur.off, w, 0, 0)` (20_memory.md R39). -/
def State.floatNeeded (w : Nat) (s : State) : Nat := neededBytes s.curOff.toNat w 0 0

/-- The float write of a `w`-byte pattern at the cursor (42_float.md R89, R90, R92, R94). -/
def floatWrite (w : Nat) (p : Nat) (e : OrderSel) (s : State) : Result :=
  withCapacity (s.floatNeeded w) s fun s =>
    within s.curOff.toNat w s
      (.next ((s.setCells (Memory.writeBytes s.buf.cells s.curOff.toNat (layoutBytes (effOrder e s) p w))).advance w 0).complete)

/-- The float read of a `w`-byte pattern at the cursor, decoded by `dec` into `RES` (42_float.md R89, R91, R93,
R95). -/
def floatRead (w : Nat) (dec : Nat → Word64) (e : OrderSel) (s : State) : Result :=
  withCapacity (s.floatNeeded w) s fun s =>
    within s.curOff.toNat w s
      (.next ((s.setRes (dec (gatherBytes (effOrder e s) (Memory.readBytes s.buf.cells s.curOff.toNat w)))).advance w 0).complete)

/-! ### Construction -/

/-- The absolute bit position of the construction arguments (70_reset_and_hazards.md R112). -/
def ResetArgs.position (a : ResetArgs) : Int := a.byteOffset * 8 + a.bitOffset

/-- Which `require` of 70_reset_and_hazards.md R112 fails, if one does, in R112's order. -/
def ResetArgs.problem (a : ResetArgs) (inst : Config.Params) : Option ConstructionError :=
  if ¬ inst.fits a.bytes.length then some .tooManyBytes
  else if a.position < 0 ∨ 2 ^ 67 ≤ a.position then some .positionOutOfRange
  else if a.extendChunkSize < 0 ∨ 2 ^ 64 ≤ a.extendChunkSize then some .chunkOutOfRange
  else none

/-- What `Reset(args)` leaves when its `require` lines hold (70_reset_and_hazards.md R112, 10_state.md R28). The
parameters of the instance and the model's own fields are kept (log 10). -/
def State.construct (a : ResetArgs) (s : State) : State where
  inst := s.inst
  buf := Buffer.ofBytes a.bytes
  curOff := BitVec.ofNat 64 (a.position.toNat / 8)
  curBit := BitVec.ofNat 3 (a.position.toNat % 8)
  cfg := ⟨a.endianness, a.strict, BitVec.ofInt 64 a.extendChunkSize, a.enforceWideInt, a.errorDump⟩
  cmd := 0
  opa := 0
  opb := 0
  res := 0
  statusCode := 0
  errOffset := 0
  errSize := 0
  errNeeded := 0
  bufAddr := 0
  pending := s.pending
  hostLog := s.hostLog
  draws := s.draws

/-- A reset (70_reset_and_hazards.md R112), refused where R114 refuses it. -/
def hostReset (a : ResetArgs) (s : State) : Result :=
  match a.problem s.inst with
  | some why => .refused (.construction why)
  | none => .next (s.construct a)

end Sys2Proof.Machine
end

