-- ==== Sys2Proof/Machine/BitCodec.lean ====
section
/-!
DEFINITION. The bit-field commands (41_bitcodec.md).
-/

namespace Sys2Proof.Machine

open Sys2Proof

/-- `WRBITS` (41_bitcodec.md R75). -/
def execWrbits (n : Nat) (u : Signedness) (e : OrderSel) (s : State) : Result :=
  if n < 1 ∨ 32 < n then fail .invalidArgument s
  else if inRange s.opaInt n u = false then fail .rangeError s
  else
    withCapacity (s.fieldNeeded n) s fun s =>
      within s.curOff.toNat (s.fieldBytes n) s
        (.next ((s.setCells (writeField (effOrder e s) (fieldPattern s.opaInt n) n s.position s.buf.cells)).advanceBits n).complete)

/-- `RDBITS` (41_bitcodec.md R76). -/
def execRdbits (n : Nat) (u : Signedness) (e : OrderSel) (s : State) : Result :=
  if n = 0 then .next (s.setRes 0).complete
  else if 32 < n then fail .invalidArgument s
  else
    withCapacity (s.fieldNeeded n) s fun s =>
      within s.curOff.toNat (s.fieldBytes n) s
        (.next ((s.setRes (extendField (readField (effOrder e s) n s.position s.buf.cells) n u)).advanceBits n).complete)

end Sys2Proof.Machine
end

