-- ==== Sys2Proof/Machine/Cursor.lean ====
section
/-!
DEFINITION. The cursor commands (40_cursor.md). None reads or changes the buffer, and none writes `RES`.
-/

namespace Sys2Proof.Machine

/-- `SKIP` (40_cursor.md R63). -/
def execSkip (s : State) : Result :=
  moveCursor (s.position + s.opaInt * 8 + s.opbInt) s

/-- `GOTO` (40_cursor.md R64). -/
def execGoto (s : State) : Result :=
  moveCursor (s.opaNat * 8 + s.opbInt) s

/-- `ALIGN` (40_cursor.md R65). -/
def execAlign (s : State) : Result :=
  if s.opaNat = 0 then fail .invalidArgument s
  else
    let d := (s.opaNat - s.curOff.toNat % s.opaNat) % s.opaNat
    moveCursor (s.position + d * 8) s

/-- `ALIGNREV` (40_cursor.md R66). -/
def execAlignrev (s : State) : Result :=
  if s.opaNat = 0 then fail .invalidArgument s
  else
    let d := s.curOff.toNat % s.opaNat
    moveCursor (s.position - d * 8) s

end Sys2Proof.Machine
end

