-- ==== Sys2Proof/Machine/Ieee.lean ====
section
/-!
DEFINITION. The IEEE-754 conversions of the float commands (42_float.md R77 to R88).

Every finite binary64 value is a natural multiple of `2^-1074`. The model holds a magnitude as that natural number
(`magnitude64 d` is `|f64(d)| * 2^1074`), so the spec's real arithmetic is exact arithmetic on naturals (log 8).
-/

namespace Sys2Proof.Machine

open Sys2Proof

/-! ### The binary64 format (42_float.md R77) -/

/-- Sign, bit 63. -/
def sign64 (d : Word64) : Bool := d.getLsbD 63

/-- Exponent field, bits `[62:52]`. -/
def exp64 (d : Word64) : Nat := (d.extractLsb' 52 11).toNat

/-- Fraction field, bits `[51:0]`. -/
def frac64 (d : Word64) : Nat := (d.extractLsb' 0 52).toNat

/-- A binary64 pattern from its sign, exponent field and fraction field. -/
def make64 (sign : Bool) (x f : Nat) : Word64 :=
  BitVec.ofBool sign ++ BitVec.ofNat 11 x ++ BitVec.ofNat 52 f

/-- `f64(d)` is NaN (42_float.md R81). -/
def isNaN64 (d : Word64) : Bool := exp64 d = 2047 && frac64 d ≠ 0

/-- `f64(d)` is an infinity (42_float.md R81). -/
def isInf64 (d : Word64) : Bool := exp64 d = 2047 && frac64 d = 0

/-- `|f64(d)| * 2^1074` for a finite `d`: `f` when the exponent field is 0, else `(2^52 + f) * 2^(x - 1)`
(42_float.md R81). -/
def magnitude64 (d : Word64) : Nat :=
  if exp64 d = 0 then frac64 d else (2 ^ 52 + frac64 d) * 2 ^ (exp64 d - 1)

/-- The binary64 pattern of `(-1)^s * (mag * 2^-1074)`, for a magnitude that binary64 holds exactly
(42_float.md R79, R81). -/
def pack64 (sign : Bool) (mag : Nat) : Word64 :=
  if mag < 2 ^ 52 then make64 sign 0 mag
  else make64 sign (mag.log2 - 51) (mag / 2 ^ (mag.log2 - 52) - 2 ^ 52)

/-- The binary64 infinity of a sign. -/
def infinity64 (sign : Bool) : Word64 := make64 sign 2047 0

/-! ### Rounding (00_scope.md R6, 42_float.md R84) -/

/-- `RNE(a / b)` for `b > 0`: the nearest integer, the even one of two equally near. -/
def roundNearestEven (a b : Nat) : Nat :=
  if 2 * (a % b) < b then a / b
  else if b < 2 * (a % b) then a / b + 1
  else a / b + (a / b) % 2

/-! ### Decode -/

/-- `Dec16(h)` (42_float.md R79). A scaled magnitude `v * 2^1074` stands for `v`. -/
def dec16 (nan64d : Word64) (h : BitVec 16) : Word64 :=
  let s := h.getLsbD 15
  let x := (h.extractLsb' 10 5).toNat
  let f := (h.extractLsb' 0 10).toNat
  if x = 31 then
    if f = 0 then infinity64 s else nan64d
  else if x = 0 then pack64 s (f * 2 ^ (1074 - 24))
  else pack64 s ((1024 + f) * 2 ^ (1074 + x - 25))

/-- `Dec32(w)` (42_float.md R80). -/
def dec32 (nan64d : Word64) (w : BitVec 32) : Word64 :=
  let s := w.getLsbD 31
  let x := (w.extractLsb' 23 8).toNat
  let f := (w.extractLsb' 0 23).toNat
  if x = 255 then
    if f = 0 then infinity64 s else nan64d
  else if x = 0 then pack64 s (f * 2 ^ (1074 - 149))
  else pack64 s ((2 ^ 23 + f) * 2 ^ (1074 + x - 150))

/-- `Dec64(d)` (42_float.md R81): only a NaN's pattern changes. -/
def dec64 (nan64d : Word64) (d : Word64) : Word64 :=
  if isNaN64 d then nan64d else d

/-! ### Encode -/

/-- `HalfRangeOK(d)` (42_float.md R86): false exactly when `d` is finite and its magnitude exceeds `HALF_MAX`. -/
def halfRangeOk (halfMax : Nat) (d : Word64) : Bool :=
  isNaN64 d || isInf64 d || magnitude64 d ≤ halfMax * 2 ^ 1074

/-- `Enc16(d)` below the sign, for a finite magnitude `a = mag * 2^-1074` (42_float.md R85). `mag.log2` is
`E + 1074` for R85's `E = floor(log2(a))`. -/
def encHalfMagnitude (mag : Nat) : Nat :=
  if mag = 0 then 0
  else if mag < 2 ^ (1074 - 14) then roundNearestEven mag (2 ^ (1074 - 24))
  else (mag.log2 + 14 - 1074) * 2 ^ 10 + roundNearestEven mag (2 ^ (mag.log2 - 10))

/-- `Enc16(d)` (42_float.md R85). -/
def enc16 (nan16 : BitVec 16) (d : Word64) : BitVec 16 :=
  if isNaN64 d then nan16
  else if isInf64 d then BitVec.ofBool (sign64 d) ++ 0x7C00#15
  else BitVec.ofBool (sign64 d) ++ BitVec.ofNat 15 (encHalfMagnitude (magnitude64 d))

/-- `Enc32(d)` below the sign, for a finite magnitude (42_float.md R87): the pattern, clamped at infinity. -/
def encSingleMagnitude (mag : Nat) : Nat :=
  if mag = 0 then 0
  else if mag < 2 ^ (1074 - 126) then roundNearestEven mag (2 ^ (1074 - 149))
  else if 127 + 1074 < mag.log2 then 0x7F800000
  else min 0x7F800000 ((mag.log2 + 126 - 1074) * 2 ^ 23 + roundNearestEven mag (2 ^ (mag.log2 - 23)))

/-- `Enc32(d)` (42_float.md R87). -/
def enc32 (nan32 : BitVec 32) (d : Word64) : BitVec 32 :=
  if isNaN64 d then nan32
  else if isInf64 d then BitVec.ofBool (sign64 d) ++ 0x7F800000#31
  else BitVec.ofBool (sign64 d) ++ BitVec.ofNat 31 (encSingleMagnitude (magnitude64 d))

/-- `Enc64(d) = d` (42_float.md R88). -/
def enc64 (d : Word64) : Word64 := d

end Sys2Proof.Machine
end

