-- ==== Sys2Proof/Machine/FloatCodec.lean ====
section
/-!
DEFINITION. The half, single and double float commands (42_float.md R90 to R95).
-/

namespace Sys2Proof.Machine

open Sys2Proof

/-- `WRF16` (42_float.md R90): the range check comes first. -/
def execWrf16 (e : OrderSel) (s : State) : Result :=
  if halfRangeOk s.inst.halfMax s.opa = false then fail .rangeError s
  else floatWrite 2 (enc16 s.inst.nan16 s.opa).toNat e s

/-- `RDF16` (42_float.md R91). -/
def execRdf16 (e : OrderSel) (s : State) : Result :=
  floatRead 2 (fun p => dec16 s.inst.nan64d (BitVec.ofNat 16 p)) e s

/-- `WRF32` (42_float.md R92): no range check. -/
def execWrf32 (e : OrderSel) (s : State) : Result :=
  floatWrite 4 (enc32 s.inst.nan32 s.opa).toNat e s

/-- `RDF32` (42_float.md R93). -/
def execRdf32 (e : OrderSel) (s : State) : Result :=
  floatRead 4 (fun p => dec32 s.inst.nan64d (BitVec.ofNat 32 p)) e s

/-- `WRF64` (42_float.md R94). -/
def execWrf64 (e : OrderSel) (s : State) : Result :=
  floatWrite 8 (enc64 s.opa).toNat e s

/-- `RDF64` (42_float.md R95). -/
def execRdf64 (e : OrderSel) (s : State) : Result :=
  floatRead 8 (fun p => dec64 s.inst.nan64d (BitVec.ofNat 64 p)) e s

end Sys2Proof.Machine
end

