-- ==== Sys2Proof/Machine/Dispatch.lean ====
section
/-!
DEFINITION. One arm per command (30_encoding.md R51), each a direct call of its meaning.
-/

namespace Sys2Proof.Machine

open Sys2Proof

def exec (i : Instr) (s : State) : Host.Outcome State Fault Refusal :=
  match i with
  | .skip => Sys2Proof.Machine.execSkip s
  | .goto => Sys2Proof.Machine.execGoto s
  | .align => Sys2Proof.Machine.execAlign s
  | .alignrev => Sys2Proof.Machine.execAlignrev s
  | .wrbits n u e => Sys2Proof.Machine.execWrbits n u e s
  | .rdbits n u e => Sys2Proof.Machine.execRdbits n u e s
  | .wrf16 e => Sys2Proof.Machine.execWrf16 e s
  | .rdf16 e => Sys2Proof.Machine.execRdf16 e s
  | .wrf32 e => Sys2Proof.Machine.execWrf32 e s
  | .rdf32 e => Sys2Proof.Machine.execRdf32 e s
  | .wrf64 e => Sys2Proof.Machine.execWrf64 e s
  | .rdf64 e => Sys2Proof.Machine.execRdf64 e s

end Sys2Proof.Machine
end

