-- ==== Sys2Proof/Machine/HostPort.lean ====
section
/-!
DEFINITION. The host's side of the machine: the register file by number (10_state.md R18 to R25, R29), the write to
`CMD` that runs one command (R19), and what each interaction yields (70_reset_and_hazards.md R124).
-/

namespace Sys2Proof.Machine

open Sys2Proof

/-- Change the next state, if there is one. -/
def mapNext (f : State → State) : Result → Result
  | .next s => .next (f s)
  | .fault r => .fault r
  | .refused r => .refused r

/-! ### Register updates by the host -/

/-- `CMD` stores the word written (10_state.md R19). -/
def State.setCmd (w : Word32) (s : State) : State := { s with cmd := w }

/-- The host writes `OPA` (10_state.md R20). -/
def State.setOpa (v : Word64) (s : State) : State := { s with opa := v }

/-- The host writes `OPB` (10_state.md R20). -/
def State.setOpb (v : Word64) (s : State) : State := { s with opb := v }

/-- The host writes `BUF_ADDR` (10_state.md R25). -/
def State.setBufAddr (v : Word64) (s : State) : State := { s with bufAddr := v }

/-- The interactions still to come. -/
def State.setPending (p : List HostAccess) (s : State) : State := { s with pending := p }

/-- Record what an interaction yields; `k` free values were drawn for it (log 2, log 3). -/
def State.logEvent (ev : HostEvent) (k : Nat) (s : State) : State :=
  { s with hostLog := ev :: s.hostLog, draws := s.draws + k }

/-! ### Commands -/

/-- The commands that write `RES` when they complete (10_state.md R21). -/
def writesRes : Instr → Bool
  | .skip => false
  | .goto => false
  | .align => false
  | .alignrev => false
  | .wrbits _ _ _ => false
  | .rdbits _ _ _ => true
  | .wrf16 _ => false
  | .rdf16 _ => true
  | .wrf32 _ => false
  | .rdf32 _ => true
  | .wrf64 _ => false
  | .rdf64 _ => true

/-- Run a decoded word: the command's meaning, or `InvalidArgument` for an illegal word (30_encoding.md R57). -/
def execDecoded (d : Decoded) (s : State) : Result :=
  match d with
  | .command i => exec i s
  | .illegal _ => fail .invalidArgument s

/-- What a command yields in the state it leaves (70_reset_and_hazards.md R124): its `STATUS.CODE`, and the `RES` that
a successful read command wrote. -/
def commandEvent (d : Decoded) (s : State) : HostEvent :=
  match d with
  | .command i => .commandDone s.statusCode (if writesRes i ∧ s.statusCode = successCode then some s.res else none)
  | .illegal _ => .commandDone s.statusCode none

/-- A host write of `w` to `CMD` (10_state.md R19): store the word, execute it once to completion, record what it
yields. -/
def hostCommand (w : Word32) (s : State) : Result :=
  mapNext (fun t => t.logEvent (commandEvent (decode w) t) 0) (execDecoded (decode w) (s.setCmd w))

/-! ### The register file -/

/-- `CONFIG` (10_state.md R18): bit 0 `ENDIAN`, bit 1 `STRICT`, bit 2 `ENFORCE_WIDE`, bit 3 `ERROR_DUMP`, others 0. -/
def configWord (c : ModeConfig) : Word64 :=
  0#60 ++ BitVec.ofBool c.errorDump ++ BitVec.ofBool c.enforceWide ++ BitVec.ofBool c.strict
    ++ BitVec.ofBool (c.endian = .big)

/-- `BUF_DATA` (10_state.md R25): the byte at `BUF_ADDR`, 0 at or beyond `size`. -/
def bufData (s : State) : Byte :=
  if s.bufAddr.toNat < s.buf.size then s.buf.byte s.bufAddr.toNat else 0

/-- What a host read of a register returns (10_state.md R18 to R25), a narrower register zero-extended (log 9);
reserved numbers read 0 (R29). `SIZE` is a figure in a 64-bit register (log 4). -/
def readRegister (reg : Nat) (s : State) : Word64 :=
  match reg with
  | 0x0 => s.cmd.setWidth 64
  | 0x1 => s.opa
  | 0x2 => s.opb
  | 0x3 => s.res
  | 0x4 => s.statusCode.setWidth 64
  | 0x5 => s.errOffset
  | 0x6 => s.errSize
  | 0x7 => s.errNeeded
  | 0x8 => s.curOff
  | 0x9 => s.curBit.setWidth 64
  | 0xA => figure64 s.draws s.buf.size
  | 0xB => configWord s.cfg
  | 0xC => s.cfg.chunk
  | 0xD => s.bufAddr
  | 0xE => (bufData s).setWidth 64
  | _ => 0

/-- How many free values a host read takes (log 3). -/
def readDraws (reg : Nat) (s : State) : Nat :=
  if reg = 0xA then figureDraws s.buf.size else 0

/-- A host read of a register: it "changes no state" of the BFC (10_state.md R24, R25); what it returns is recorded. -/
def hostRead (reg : Nat) (s : State) : Result :=
  .next (s.logEvent (.readValue reg (readRegister reg s)) (readDraws reg s))

/-- A host write of a register (10_state.md R18): `CMD` runs a command, `OPA`, `OPB` and `BUF_ADDR` store the value, a
write to a register without write access or to a reserved number is ignored (R18, R24, R25, R29). `CMD` is 32 bits
wide and takes the low 32 bits (log 9). -/
def hostWrite (reg : Nat) (v : Word64) (s : State) : Result :=
  match reg with
  | 0x0 => hostCommand (v.setWidth 32) s
  | 0x1 => .next (s.setOpa v)
  | 0x2 => .next (s.setOpb v)
  | 0xD => .next (s.setBufAddr v)
  | _ => .next s

/-- One host interaction (70_reset_and_hazards.md R124, R111). -/
def hostAccess (a : HostAccess) (s : State) : Result :=
  match a with
  | .write reg v => hostWrite reg v s
  | .read reg => hostRead reg s
  | .reset args => hostReset args s

/-- One step: the oldest interaction still to come is performed. With none, the BFC "is idle between commands, with
all state kept" (60_exceptions.md R110). -/
def stepHost (s : State) : Result :=
  match s.pending with
  | [] => .next s
  | a :: rest => hostAccess a (s.setPending rest)

/-- The host access that issues the table word `w` of `nbits` bits: a write to `CMD`. -/
def commandAccess (nbits w : Nat) : HostAccess := .write 0x0 (BitVec.ofNat 64 (w % 2 ^ nbits % 2 ^ 32))

end Sys2Proof.Machine
end

