-- ==== Sys2Proof/Machine/Step.lean ====
section
/-!
DEFINITION. The step: one host interaction (Machine/HostPort.lean), and the placing of a command where the next step
takes it.
-/

namespace Sys2Proof.Machine

/-- One step of the machine. -/
def step (s : State) : Host.Outcome State Fault Refusal := stepHost s

/-- The state whose next host interaction is the write of this word to `CMD`: commands "arrive only as host writes to
`CMD`" (20_memory.md R48, log 1). -/
def State.withFetchWord (s : State) (nbits w : Nat) : State := s.setPending (commandAccess nbits w :: s.pending)

end Sys2Proof.Machine
end

