-- ==== Sys2Proof/Machine/Assembler.lean ====
section
/-!
DEFINITION. The assembler's lines (30_encoding.md R60) and the pseudo-instructions (R61): what host accesses a line
stands for, and the reading of a line's text. The machine never runs text: a line is the host's notation for the
register writes that the machine's step performs. Log 15 says what R60 leaves open of the text.
-/

namespace Sys2Proof.Machine

open Sys2Proof

/-! ### Lines -/

/-- A float operand `<x>` (30_encoding.md R60). -/
inductive FloatLiteral where
  /-- A decimal literal: `digits * 10^exp10`, negated if `neg`. -/
  | decimal (neg : Bool) (digits : Nat) (exp10 : Int)
  /-- `inf` or `-inf`. -/
  | infinity (neg : Bool)
  /-- `nan`. -/
  | nan
  /-- `0x` and 16 hexadecimal digits: the binary64 pattern itself. -/
  | pattern (p : Word64)
  deriving DecidableEq, Repr

/-- One assembler line (30_encoding.md R60, R61). -/
inductive AsmLine where
  | skip (byteDelta bitDelta : Int)
  | goto (byteAbs bitAbs : Int)
  | align (n : Int)
  | alignrev (n : Int)
  | wrbits (u : Signedness) (e : OrderSel) (n : Nat) (value : Int)
  | rdbits (u : Signedness) (e : OrderSel) (n : Nat)
  | wrf16 (e : OrderSel) (x : FloatLiteral)
  | rdf16 (e : OrderSel)
  | wrf32 (e : OrderSel) (x : FloatLiteral)
  | rdf32 (e : OrderSel)
  | wrf64 (e : OrderSel) (x : FloatLiteral)
  | rdf64 (e : OrderSel)
  /-- `rewind`: cursor to the buffer start. -/
  | rewind
  /-- `skipbits <k>`. -/
  | skipbits (k : Int)
  /-- `skipbytes <k>`. -/
  | skipbytes (k : Int)
  /-- `byte_align`: to the next byte boundary. -/
  | byteAlign
  deriving DecidableEq, Repr

/-! ### What a line stands for -/

/-- The scaled magnitude of the binary64 value nearest `num / den`, ties to even (30_encoding.md R60); none where the
literal is beyond the finite range (log 15). -/
def nearest64 (num den : Nat) : Option Nat :=
  let scaled := num * 2 ^ 1074
  let k := (scaled / den).log2 - 52
  let mag := roundNearestEven scaled (den * 2 ^ k) * 2 ^ k
  if mag < 2 ^ (1024 + 1074) then some mag else none

/-- The binary64 pattern of a float operand (30_encoding.md R60). -/
def FloatLiteral.pattern64 : FloatLiteral → Option Word64
  | .decimal neg digits exp10 =>
    (nearest64 (digits * 10 ^ exp10.toNat) (10 ^ (-exp10).toNat)).map (pack64 neg)
  | .infinity neg => some (infinity64 neg)
  | .nan => some 0x7FF8000000000000#64
  | .pattern p => some p

/-- The write of a command to `CMD` (10_state.md R19). -/
def issue (i : Instr) : HostAccess := .write 0x0 ((encode i).setWidth 64)

/-- `OPA <- v`, an integer in a 64-bit register (30_encoding.md R60: `value mod 2^64`). -/
def writeOpa (v : Int) : HostAccess := .write 0x1 (BitVec.ofInt 64 v)

/-- `OPB <- v`. -/
def writeOpb (v : Int) : HostAccess := .write 0x2 (BitVec.ofInt 64 v)

/-- A float write line: `OPA <- binary64 pattern of x`, then the command (30_encoding.md R60). -/
def floatLine (i : Instr) (x : FloatLiteral) : Option (List HostAccess) :=
  x.pattern64.map fun p => [.write 0x1 p, issue i]

/-- The host accesses of a line (30_encoding.md R60, R61); `curBit` is what the host reads from `CUR_BIT`, which only
`byte_align` asks for. None for a bit count that field `N` cannot hold (R52) or a literal with no binary64 value. -/
def expandLine (curBit : BitVec 3) : AsmLine → Option (List HostAccess)
  | .skip byteDelta bitDelta => some [writeOpa byteDelta, writeOpb bitDelta, issue .skip]
  | .goto byteAbs bitAbs => some [writeOpa byteAbs, writeOpb bitAbs, issue .goto]
  | .align n => some [writeOpa n, issue .align]
  | .alignrev n => some [writeOpa n, issue .alignrev]
  | .wrbits u e n value => if n < 64 then some [writeOpa value, issue (.wrbits n u e)] else none
  | .rdbits u e n => if n < 64 then some [issue (.rdbits n u e)] else none
  | .wrf16 e x => floatLine (.wrf16 e) x
  | .rdf16 e => some [issue (.rdf16 e)]
  | .wrf32 e x => floatLine (.wrf32 e) x
  | .rdf32 e => some [issue (.rdf32 e)]
  | .wrf64 e x => floatLine (.wrf64 e) x
  | .rdf64 e => some [issue (.rdf64 e)]
  | .rewind => some [writeOpa 0, writeOpb 0, issue .goto]
  | .skipbits k => some [writeOpa 0, writeOpb k, issue .skip]
  | .skipbytes k => some [writeOpa k, writeOpb 0, issue .skip]
  | .byteAlign =>
    some [.read 0x9, writeOpa 0, writeOpb (((8 - curBit.toNat) % 8 : Nat) : Int), issue .skip]

/-! ### Reading a line's text -/

/-- Cut a text at every occurrence of a character. -/
def cutAt (c : Char) : List Char → List (List Char)
  | [] => [[]]
  | d :: rest =>
    if d = c then [] :: cutAt c rest
    else
      match cutAt c rest with
      | [] => [[d]]
      | first :: more => (d :: first) :: more

/-- A blank character. -/
def isBlank (c : Char) : Bool := c = ' ' || c = '\t'

/-- A text without the blanks around it. -/
def trimBlanks (t : List Char) : List Char := ((t.dropWhile isBlank).reverse.dropWhile isBlank).reverse

/-- The value of a digit of a base up to 16. -/
def digitValue (base : Nat) (c : Char) : Option Nat :=
  let v :=
    if '0' ≤ c ∧ c ≤ '9' then c.toNat - '0'.toNat
    else if 'a' ≤ c ∧ c ≤ 'f' then c.toNat - 'a'.toNat + 10
    else if 'A' ≤ c ∧ c ≤ 'F' then c.toNat - 'A'.toNat + 10
    else 16
  if v < base then some v else none

/-- The value of digits that follow a value. -/
def digitsAfter (base acc : Nat) : List Char → Option Nat
  | [] => some acc
  | c :: rest => (digitValue base c).bind fun v => digitsAfter base (acc * base + v) rest

/-- A natural number of at least one digit. -/
def parseDigits (base : Nat) (t : List Char) : Option Nat :=
  match t with
  | [] => none
  | _ => digitsAfter base 0 t

/-- "decimal or `0x` hexadecimal" (30_encoding.md R60). -/
def parseNatural (t : List Char) : Option Nat :=
  match t with
  | '0' :: 'x' :: rest => parseDigits 16 rest
  | _ => parseDigits 10 t

/-- "optionally negative" (30_encoding.md R60). -/
def parseInteger (t : List Char) : Option Int :=
  match t with
  | '-' :: rest => (parseNatural rest).map fun v => -(v : Int)
  | _ => (parseNatural t).map fun v => (v : Int)

/-- A decimal exponent, with an optional sign. -/
def parseExponent (t : List Char) : Option Int :=
  match t with
  | '+' :: rest => (parseDigits 10 rest).map fun v => (v : Int)
  | '-' :: rest => (parseDigits 10 rest).map fun v => -(v : Int)
  | _ => (parseDigits 10 t).map fun v => (v : Int)

/-- The mantissa of a decimal literal, `digits` or `digits.digits`, times `10^exp10`. -/
def parseMantissa (neg : Bool) (exp10 : Int) (t : List Char) : Option FloatLiteral :=
  match cutAt '.' t with
  | [whole] => (parseDigits 10 whole).map fun v => .decimal neg v exp10
  | [whole, part] =>
    (parseDigits 10 whole).bind fun v =>
      (parseDigits 10 part).bind fun _ =>
        (digitsAfter 10 v part).map fun v => .decimal neg v (exp10 - part.length)
  | _ => none

/-- A decimal literal without its sign. -/
def parseDecimal (neg : Bool) (t : List Char) : Option FloatLiteral :=
  match cutAt 'e' t with
  | [mantissa] => parseMantissa neg 0 mantissa
  | [mantissa, exponent] => (parseExponent exponent).bind fun k => parseMantissa neg k mantissa
  | _ => none

/-- A float operand (30_encoding.md R60). -/
def parseFloat (t : List Char) : Option FloatLiteral :=
  if t = ['i', 'n', 'f'] then some (.infinity false)
  else if t = ['-', 'i', 'n', 'f'] then some (.infinity true)
  else if t = ['n', 'a', 'n'] then some .nan
  else
    match t with
    | '0' :: 'x' :: rest =>
      if rest.length = 16 then (parseDigits 16 rest).map fun v => .pattern (BitVec.ofNat 64 v) else none
    | '-' :: rest => parseDecimal true rest
    | _ => parseDecimal false t

/-- A byte-order suffix, or none (30_encoding.md R60). -/
def parseOrder : List (List Char) → Option OrderSel
  | [] => some .configured
  | [t] => if t = ['l', 'e'] then some .little else if t = ['b', 'e'] then some .big else none
  | _ => none

/-- The signedness suffix (30_encoding.md R60). -/
def parseSignedness (t : List Char) : Option Signedness :=
  if t = ['u'] then some .unsigned else if t = ['s'] then some .signed else none

/-- A line with no suffix and one integer operand. -/
def oneInteger (mk : Int → AsmLine) (suffixes ops : List (List Char)) : Option AsmLine :=
  match suffixes, ops with
  | [], [a] => (parseInteger a).map mk
  | _, _ => none

/-- A line with no suffix and two integer operands. -/
def twoIntegers (mk : Int → Int → AsmLine) (suffixes ops : List (List Char)) : Option AsmLine :=
  match suffixes, ops with
  | [], [a, b] => (parseInteger a).bind fun x => (parseInteger b).map fun y => mk x y
  | _, _ => none

/-- A line with no suffix and no operand. -/
def noOperand (l : AsmLine) (suffixes ops : List (List Char)) : Option AsmLine :=
  match suffixes, ops with
  | [], [] => some l
  | _, _ => none

/-- `wrbits.<u|s>[.le|.be] <n>, <value>`. -/
def wrbitsLine (suffixes ops : List (List Char)) : Option AsmLine :=
  match suffixes, ops with
  | sign :: order, [n, value] =>
    (parseSignedness sign).bind fun u =>
      (parseOrder order).bind fun e =>
        (parseNatural n).bind fun n => (parseInteger value).map fun v => .wrbits u e n v
  | _, _ => none

/-- `rdbits.<u|s>[.le|.be] <n>`. -/
def rdbitsLine (suffixes ops : List (List Char)) : Option AsmLine :=
  match suffixes, ops with
  | sign :: order, [n] =>
    (parseSignedness sign).bind fun u =>
      (parseOrder order).bind fun e => (parseNatural n).map fun n => .rdbits u e n
  | _, _ => none

/-- A float write line, `[.le|.be] <x>`. -/
def floatWriteLine (mk : OrderSel → FloatLiteral → AsmLine) (suffixes ops : List (List Char)) : Option AsmLine :=
  match ops with
  | [x] => (parseOrder suffixes).bind fun e => (parseFloat x).map fun x => mk e x
  | _ => none

/-- A float read line, `[.le|.be]`. -/
def floatReadLine (mk : OrderSel → AsmLine) (suffixes ops : List (List Char)) : Option AsmLine :=
  match ops with
  | [] => (parseOrder suffixes).map mk
  | _ => none

/-- The line of a mnemonic, its suffixes and its operands (30_encoding.md R60, R61: mnemonics are lower case). -/
def parseParts (mnemonic : List Char) (suffixes ops : List (List Char)) : Option AsmLine :=
  if mnemonic = ['s', 'k', 'i', 'p'] then twoIntegers .skip suffixes ops
  else if mnemonic = ['g', 'o', 't', 'o'] then twoIntegers .goto suffixes ops
  else if mnemonic = ['a', 'l', 'i', 'g', 'n'] then oneInteger .align suffixes ops
  else if mnemonic = ['a', 'l', 'i', 'g', 'n', 'r', 'e', 'v'] then oneInteger .alignrev suffixes ops
  else if mnemonic = ['w', 'r', 'b', 'i', 't', 's'] then wrbitsLine suffixes ops
  else if mnemonic = ['r', 'd', 'b', 'i', 't', 's'] then rdbitsLine suffixes ops
  else if mnemonic = ['w', 'r', 'f', '1', '6'] then floatWriteLine .wrf16 suffixes ops
  else if mnemonic = ['r', 'd', 'f', '1', '6'] then floatReadLine .rdf16 suffixes ops
  else if mnemonic = ['w', 'r', 'f', '3', '2'] then floatWriteLine .wrf32 suffixes ops
  else if mnemonic = ['r', 'd', 'f', '3', '2'] then floatReadLine .rdf32 suffixes ops
  else if mnemonic = ['w', 'r', 'f', '6', '4'] then floatWriteLine .wrf64 suffixes ops
  else if mnemonic = ['r', 'd', 'f', '6', '4'] then floatReadLine .rdf64 suffixes ops
  else if mnemonic = ['r', 'e', 'w', 'i', 'n', 'd'] then noOperand .rewind suffixes ops
  else if mnemonic = ['s', 'k', 'i', 'p', 'b', 'i', 't', 's'] then oneInteger .skipbits suffixes ops
  else if mnemonic = ['s', 'k', 'i', 'p', 'b', 'y', 't', 'e', 's'] then oneInteger .skipbytes suffixes ops
  else if mnemonic = ['b', 'y', 't', 'e', '_', 'a', 'l', 'i', 'g', 'n'] then noOperand .byteAlign suffixes ops
  else none

/-- The operands of a line: separated by commas, none where nothing is written. -/
def parseOperands (t : List Char) : List (List Char) :=
  match trimBlanks t with
  | [] => []
  | u => (cutAt ',' u).map trimBlanks

/-- Read a line (30_encoding.md R60): `;` starts a comment; none where the text is no line. -/
def parseLine (text : List Char) : Option AsmLine :=
  let code := trimBlanks (text.takeWhile (fun c => c ≠ ';'))
  match cutAt '.' (code.takeWhile (fun c => !isBlank c)) with
  | mnemonic :: suffixes => parseParts mnemonic suffixes (parseOperands (code.dropWhile (fun c => !isBlank c)))
  | [] => none

/-- The host accesses of a line's text: none at all for a line that is blank or a comment. -/
def assembleLine (curBit : BitVec 3) (text : List Char) : Option (List HostAccess) :=
  if trimBlanks (text.takeWhile (fun c => c ≠ ';')) = [] then some []
  else (parseLine text).bind (expandLine curBit)

end Sys2Proof.Machine
end

