-- ==== Sys2Proof/Safety.lean ====
section
/-!
DEFINITION. The terms in which claims about the machine are made: the invariant of a state, the stream view of the
buffer (20_memory.md R35), the exact values of the float formats (42_float.md R77 to R81), and where a buffer command
finds capacity (20_memory.md R36).
-/

namespace Sys2Proof.Machine

open Sys2Proof

/-! ### The invariant -/

/-- Sensible parameters: the NaN parameters are NaN patterns of their formats (42_float.md R82, R85, R87), and
`HALF_MAX` is at most the largest finite binary16 value (R85: "`0 <= a <= 65504`"). -/
def paramsOk (p : Config.Params) : Bool :=
  (p.nan16.extractLsb' 10 5 = 31 && p.nan16.extractLsb' 0 10 ≠ 0)
    && (p.nan32.extractLsb' 23 8 = 255 && p.nan32.extractLsb' 0 23 ≠ 0)
    && isNaN64 p.nan64d
    && p.halfMax ≤ 65504

/-- The invariant of a state: the buffer is canonical and not larger than `MAX_BYTES` (10_state.md R9), the status
code is one the BFC writes (60_exceptions.md R97, R100), the parameters are sensible. -/
def State.inv (s : State) : Bool :=
  s.buf.wf && s.inst.fits s.buf.size && writtenCode s.statusCode && paramsOk s.inst

/-! ### Outcomes -/

/-- The machine goes on. -/
def answersNext (r : Result) : Bool :=
  match r with
  | .next _ => true
  | .fault _ => false
  | .refused _ => false

/-! ### The bit stream (20_memory.md R35) -/

/-- `b(q)`: which bit of its byte a stream position is. -/
def bitOfByte (e : Endian) (q : Nat) : Nat :=
  match e with
  | .big => 7 - q % 8
  | .little => q % 8

/-- `t(j)`: which bit of the n-bit field pattern the j-th stream position of the field holds. -/
def bitOfField (e : Endian) (n j : Nat) : Nat :=
  match e with
  | .big => n - 1 - j
  | .little => j

/-- The bit at a stream position, in a byte order. -/
def streamBit (e : Endian) (m : Memory) (q : Nat) : Bool := (m.read (q / 8)).getLsbD (bitOfByte e q)

/-! ### Byte layouts -/

/-- Byte `i` of the layout of a `w`-byte pattern: `LE(p, w)[i]` or `BE(p, w)[i]` (00_scope.md R6). -/
def layoutByte (e : Endian) (p w i : Nat) : Byte :=
  match e with
  | .little => BitVec.ofNat 8 (p / 256 ^ i)
  | .big => BitVec.ofNat 8 (p / 256 ^ (w - 1 - i))

/-! ### Float values -/

/-- A binary16 pattern is finite (42_float.md R79). -/
def finite16 (h : BitVec 16) : Bool := h.extractLsb' 10 5 ≠ 31

/-- A binary16 pattern is NaN (42_float.md R79). -/
def isNaN16 (h : BitVec 16) : Bool := h.extractLsb' 10 5 = 31 && h.extractLsb' 0 10 ≠ 0

/-- The magnitude of a finite binary16 pattern, times `2^1074` (42_float.md R79). -/
def magnitude16 (h : BitVec 16) : Nat :=
  if (h.extractLsb' 10 5).toNat = 0 then (h.extractLsb' 0 10).toNat * 2 ^ (1074 - 24)
  else (1024 + (h.extractLsb' 0 10).toNat) * 2 ^ (1074 + (h.extractLsb' 10 5).toNat - 25)

/-- A binary32 pattern is finite (42_float.md R80). -/
def finite32 (w : BitVec 32) : Bool := w.extractLsb' 23 8 ≠ 255

/-- A binary32 pattern is NaN (42_float.md R80). -/
def isNaN32 (w : BitVec 32) : Bool := w.extractLsb' 23 8 = 255 && w.extractLsb' 0 23 ≠ 0

/-- The magnitude of a finite binary32 pattern, times `2^1074` (42_float.md R80). -/
def magnitude32 (w : BitVec 32) : Nat :=
  if (w.extractLsb' 23 8).toNat = 0 then (w.extractLsb' 0 23).toNat * 2 ^ (1074 - 149)
  else (2 ^ 23 + (w.extractLsb' 0 23).toNat) * 2 ^ (1074 + (w.extractLsb' 23 8).toNat - 150)

/-- The distance between two magnitudes. -/
def gap (a b : Nat) : Nat := (a - b) + (b - a)

/-- The value `digits * 10^exp10` of a decimal literal, as a fraction: its numerator (30_encoding.md R60). -/
def decimalNum (digits : Nat) (exp10 : Int) : Nat := digits * 10 ^ exp10.toNat

/-- The denominator of that fraction. -/
def decimalDen (exp10 : Int) : Nat := 10 ^ (-exp10).toNat

/-! ### Capacity -/

/-- The capacity check passes: the buffer is large enough, or it may grow to be (20_memory.md R36). -/
def hasCapacity (needed : Nat) (s : State) : Bool :=
  needed ≤ s.buf.size
    || (!s.cfg.strict && s.inst.fits (s.buf.size + growthOf s.cfg.chunk.toNat (needed - s.buf.size)))

/-- The size after a capacity check that passes (20_memory.md R36). -/
def sizeAfter (needed : Nat) (s : State) : Nat :=
  if needed ≤ s.buf.size then s.buf.size
  else s.buf.size + growthOf s.cfg.chunk.toNat (needed - s.buf.size)

/-- The capacity figure `needed` a command asks for (20_memory.md R39), none for a command that checks no capacity. -/
def capacityFigure (i : Instr) (s : State) : Option Nat :=
  match i with
  | .skip => none
  | .goto => none
  | .align => none
  | .alignrev => none
  | .wrbits n _ _ => some (s.curOff.toNat + (s.curBit.toNat + n + 7) / 8)
  | .rdbits n _ _ => if n = 0 then none else some (s.curOff.toNat + (s.curBit.toNat + n + 7) / 8)
  | .wrf16 _ => some (s.curOff.toNat + 2)
  | .rdf16 _ => some (s.curOff.toNat + 2)
  | .wrf32 _ => some (s.curOff.toNat + 4)
  | .rdf32 _ => some (s.curOff.toNat + 4)
  | .wrf64 _ => some (s.curOff.toNat + 8)
  | .rdf64 _ => some (s.curOff.toNat + 8)

/-- The argument checks of a buffer command pass (60_exceptions.md R99, item 2). -/
def argumentsOk (i : Instr) (s : State) : Bool :=
  match i with
  | .skip => true
  | .goto => true
  | .align => true
  | .alignrev => true
  | .wrbits n u _ => decide (1 ≤ n ∧ n ≤ 32) && inRange s.opaInt n u
  | .rdbits n _ _ => decide (n ≤ 32)
  | .wrf16 _ => halfRangeOk s.inst.halfMax s.opa
  | .rdf16 _ => true
  | .wrf32 _ => true
  | .rdf32 _ => true
  | .wrf64 _ => true
  | .rdf64 _ => true

/-! ### What a command leaves -/

/-- `t` is `s` after `raise K(needed)` (60_exceptions.md R103, R104): only `STATUS`, the error registers and the model's
count of free values differ; a figure that fits its 64-bit register is there. -/
def RaisedFrom (k : ErrorKind) (needed : Nat) (s t : State) : Prop :=
  t = { s with statusCode := errorCode k, errOffset := s.curOff, errSize := t.errSize, errNeeded := t.errNeeded,
               draws := t.draws } ∧
  (s.buf.size < 2 ^ 64 → t.errSize.toNat = s.buf.size) ∧
  (needed < 2 ^ 64 → t.errNeeded.toNat = needed) ∧
  (s.buf.size < 2 ^ 64 → needed < 2 ^ 64 → t.draws = s.draws)

/-- The `w`-byte pattern `p` is stored at the cursor of `s`, in the order of `e`, and nothing else is stored
(42_float.md R89). -/
def StoresPattern (w p : Nat) (e : OrderSel) (s : State) (r : Result) : Prop :=
  ∃ t, r = .next t ∧
    t.curOff.toNat = s.curOff.toNat + w ∧ t.curBit = 0 ∧
    t.buf.size = sizeAfter (s.curOff.toNat + w) s ∧
    (∀ i, i < w → t.buf.byte (s.curOff.toNat + i) = layoutByte (effOrder e s) p w i) ∧
    (∀ a, a < s.curOff.toNat ∨ s.curOff.toNat + w ≤ a → t.buf.byte a = s.buf.byte a) ∧
    t = { s with buf := t.buf, curOff := t.curOff, curBit := t.curBit, statusCode := 0 }

/-- As `StoresPattern`, at the top of the offset range, where the spec states no new `cur.off` and the model leaves it
free (log 4). -/
def StoresPatternAtTop (w p : Nat) (e : OrderSel) (s : State) (r : Result) : Prop :=
  ∃ t, r = .next t ∧
    t.buf.size = sizeAfter (s.curOff.toNat + w) s ∧
    (∀ i, i < w → t.buf.byte (s.curOff.toNat + i) = layoutByte (effOrder e s) p w i) ∧
    (∀ a, a < s.curOff.toNat ∨ s.curOff.toNat + w ≤ a → t.buf.byte a = s.buf.byte a) ∧
    t = { s with buf := t.buf, curOff := t.curOff, curBit := 0, statusCode := 0, draws := t.draws }

/-- The weight of byte `i` of a `w`-byte pattern (42_float.md R91, R93, R95). -/
def byteWeight (e : Endian) (w i : Nat) : Nat :=
  match e with
  | .little => 256 ^ i
  | .big => 256 ^ (w - 1 - i)

/-- `RES` holds `dec` of the `w`-byte pattern at the cursor of `s`, in the order of `e`; no byte changes (42_float.md
R89). -/
def ReturnsPattern (w : Nat) (dec : Nat → Word64) (e : OrderSel) (s : State) (r : Result) : Prop :=
  ∃ t, r = .next t ∧
    t.curOff.toNat = s.curOff.toNat + w ∧
    t.res = dec (∑ i ∈ Finset.range w, (s.buf.byte (s.curOff.toNat + i)).toNat * byteWeight (effOrder e s) w i) ∧
    t = { s with buf := ⟨s.buf.cells, sizeAfter (s.curOff.toNat + w) s⟩, curOff := t.curOff, curBit := 0, res := t.res,
                 statusCode := 0 }

/-- As `ReturnsPattern`, at the top of the offset range, where the spec states no new `cur.off` and the model leaves it
free (log 4). -/
def ReturnsPatternAtTop (w : Nat) (dec : Nat → Word64) (e : OrderSel) (s : State) (r : Result) : Prop :=
  ∃ t, r = .next t ∧
    t.res = dec (∑ i ∈ Finset.range w, (s.buf.byte (s.curOff.toNat + i)).toNat * byteWeight (effOrder e s) w i) ∧
    t = { s with buf := ⟨s.buf.cells, sizeAfter (s.curOff.toNat + w) s⟩, curOff := t.curOff, curBit := 0, res := t.res,
                 statusCode := 0, draws := t.draws }

end Sys2Proof.Machine
end

