-- ==== Sys2Proof/Certificates/Slice0/Obligations.lean ====
section
/-!
DEFINITION. The statements about the machine, for the provers. Each docstring names the rules it rests on. Where such a
rule is the spec's own decision (a D number) or its own inference ("derived"), log 11 holds: the model follows it, and
the claim is about the machine that the spec describes.
-/

open Sys2Proof Sys2Proof.Machine

/-! ### Encoding -/

/-- 30_encoding.md R50 to R56: decoding the word of a well-formed command gives the command back. -/
def Obligations.DecodeEncodeRoundTrip : Prop :=
  ∀ i : Instr, i.WellFormed → decode (encode i) = .command i

/-- 30_encoding.md R57: every word is at most one command. A word that decodes is the word of what it decodes to, so no
bit of a word is dropped. -/
def Obligations.EncodeDecodeRoundTrip : Prop :=
  ∀ (w : Word32) (i : Instr), decode w = .command i → i.WellFormed ∧ encode i = w

/-- 30_encoding.md R50, R51, R60: the word is `OP | N<<8 | U<<14 | E<<15`, with the opcodes of R51. -/
def Obligations.CommandWordsAreFieldSums : Prop :=
  (∀ (n : Nat) (u : Signedness) (e : OrderSel), n < 64 →
    (encode (.wrbits n u e)).toNat
      = 0x10 + n * 2 ^ 8 + (signednessBits u).toNat * 2 ^ 14 + (orderBits e).toNat * 2 ^ 15 ∧
    (encode (.rdbits n u e)).toNat
      = 0x11 + n * 2 ^ 8 + (signednessBits u).toNat * 2 ^ 14 + (orderBits e).toNat * 2 ^ 15) ∧
  (∀ e : OrderSel,
    (encode (.wrf16 e)).toNat = 0x20 + (orderBits e).toNat * 2 ^ 15 ∧
    (encode (.rdf16 e)).toNat = 0x21 + (orderBits e).toNat * 2 ^ 15 ∧
    (encode (.wrf32 e)).toNat = 0x22 + (orderBits e).toNat * 2 ^ 15 ∧
    (encode (.rdf32 e)).toNat = 0x23 + (orderBits e).toNat * 2 ^ 15 ∧
    (encode (.wrf64 e)).toNat = 0x24 + (orderBits e).toNat * 2 ^ 15 ∧
    (encode (.rdf64 e)).toNat = 0x25 + (orderBits e).toNat * 2 ^ 15) ∧
  (encode .skip).toNat = 1 ∧ (encode .goto).toNat = 2 ∧ (encode .align).toNat = 3 ∧ (encode .alignrev).toNat = 4

/-- 30_encoding.md R57 (with R51, R56): exactly which words are illegal, in terms of the word as a number, and what an
illegal word does when the host writes it to `CMD`: `InvalidArgument`, with nothing changed but `CMD` itself
(10_state.md R19), `STATUS`, the error registers and the model's own fields. The queue `pending` from which the write
is taken (log 1) and the record it leaves in `hostLog` (log 2) are the model's choices. -/
def Obligations.IllegalWordsRaiseInvalidArgument : Prop :=
  ∀ w : Word32,
    ((∃ why, decode w = .illegal why) ↔
      (w.toNat / 2 ^ 17 ≠ 0 ∨
       w.toNat % 2 ^ 8 ∉ [0x01, 0x02, 0x03, 0x04, 0x10, 0x11, 0x20, 0x21, 0x22, 0x23, 0x24, 0x25] ∨
       w.toNat / 2 ^ 15 % 4 = 3 ∨
       (w.toNat % 2 ^ 8 ∈ [0x01, 0x02, 0x03, 0x04] ∧ w.toNat / 2 ^ 8 ≠ 0) ∨
       (w.toNat % 2 ^ 8 ∈ [0x20, 0x21, 0x22, 0x23, 0x24, 0x25] ∧ w.toNat / 2 ^ 8 % 2 ^ 7 ≠ 0))) ∧
    ((∃ why, decode w = .illegal why) →
      ∀ (s : State) (rest : List HostAccess), s.pending = .write 0x0 (w.setWidth 64) :: rest →
        ∃ t, step s = .next { t with hostLog := .commandDone 3 none :: s.hostLog } ∧
          RaisedFrom .invalidArgument 0 { s with pending := rest, cmd := w } t)

/-- 30_encoding.md R51, 95_test_vectors.md sections 1 and 2.1: a few words written out from the encoding decode to the
command they stand for. -/
def Obligations.WordsDecodeAsTabled : Prop :=
  decode 0x00000001#32 = .command .skip ∧
  decode 0x00000004#32 = .command .alignrev ∧
  decode 0x0000C310#32 = .command (.wrbits 3 .unsigned .little) ∧
  decode 0x00010C11#32 = .command (.rdbits 12 .signed .big) ∧
  decode 0x00000022#32 = .command (.wrf32 .configured) ∧
  decode 0x00010025#32 = .command (.rdf64 .big) ∧
  decode 0x00000000#32 = .illegal .unassignedOpcode

/-- 10_state.md R19: a host write of `w` to `CMD` stores `w` and executes the command `w` encodes exactly once. When
the oldest host interaction (log 1) is a write to `CMD` whose word decodes to a command, the step is that command's own
step in the state that holds the word and the remaining interactions; around it the step only records what R124 of
70_reset_and_hazards.md says a run yields (the record is the model's own, log 2). A host access carries 64 bits, of
which `CMD` takes the low 32: that is the model's choice (log 9); the spec describes 32-bit values there. -/
def Obligations.StepRunsDecodedCommand : Prop :=
  ∀ (s : State) (v : Word64) (rest : List HostAccess) (i : Instr),
    s.pending = .write 0x0 v :: rest → i.WellFormed → decode (v.setWidth 32) = .command i →
    step s =
      match exec i { s with pending := rest, cmd := v.setWidth 32 } with
      | .next t =>
        .next { t with
          hostLog := .commandDone t.statusCode (if writesRes i ∧ t.statusCode = 0 then some t.res else none)
            :: t.hostLog }
      | .fault f => .fault f
      | .refused r => .refused r

/-! ### Cursor commands -/

/-- 40_cursor.md R62, R63: `SKIP` moves the cursor to the absolute bit position `a`, carrying and borrowing between bits
and bytes; outside `[0, 2^67)` it raises `InvalidArgument` and the cursor stays. Everything else stays. -/
def Obligations.SkipMovesCursor : Prop :=
  ∀ (s : State) (a : Int),
    a = (s.curOff.toNat : Int) * 8 + s.curBit.toNat + s.opa.toInt * 8 + s.opb.toInt →
    (0 ≤ a → a < 2 ^ 67 →
      ∃ t, exec .skip s = .next t ∧ (t.curOff.toNat : Int) = a / 8 ∧ (t.curBit.toNat : Int) = a % 8 ∧
        t = { s with curOff := t.curOff, curBit := t.curBit, statusCode := 0 }) ∧
    (a < 0 ∨ 2 ^ 67 ≤ a → ∃ t, exec .skip s = .next t ∧ RaisedFrom .invalidArgument 0 s t)

/-- 40_cursor.md R62, R64: `GOTO` sets the cursor to `byteAbs*8 + bitAbs`, normalized; outside `[0, 2^67)` it raises
`InvalidArgument` and the cursor stays. Everything else stays. -/
def Obligations.GotoSetsCursor : Prop :=
  ∀ (s : State) (a : Int), a = (s.opa.toNat : Int) * 8 + s.opb.toInt →
    (0 ≤ a → a < 2 ^ 67 →
      ∃ t, exec .goto s = .next t ∧ (t.curOff.toNat : Int) = a / 8 ∧ (t.curBit.toNat : Int) = a % 8 ∧
        t = { s with curOff := t.curOff, curBit := t.curBit, statusCode := 0 }) ∧
    (a < 0 ∨ 2 ^ 67 ≤ a → ∃ t, exec .goto s = .next t ∧ RaisedFrom .invalidArgument 0 s t)

/-- 40_cursor.md R65: `ALIGN` adds `(n - cur.off mod n) mod n` to the byte offset and keeps the bit offset; it raises
`InvalidArgument` when `n = 0` or when the rounded offset does not fit 64 bits. Everything else stays. -/
def Obligations.AlignAddsDistanceToMultiple : Prop :=
  ∀ (s : State) (n d : Nat), n = s.opa.toNat → d = (n - s.curOff.toNat % n) % n →
    (n ≠ 0 → s.curOff.toNat + d < 2 ^ 64 →
      ∃ t, exec .align s = .next t ∧ t.curOff.toNat = s.curOff.toNat + d ∧
        t = { s with curOff := t.curOff, statusCode := 0 }) ∧
    (n = 0 ∨ 2 ^ 64 ≤ s.curOff.toNat + d →
      ∃ t, exec .align s = .next t ∧ RaisedFrom .invalidArgument 0 s t)

/-- 40_cursor.md R65 ("round the byte offset up to a multiple of `n`"): where some multiple of `n` at or above the
offset fits 64 bits, `ALIGN` completes on the least one; everything else stays. -/
def Obligations.AlignReachesLeastMultiple : Prop :=
  ∀ (s : State) (m : Nat), s.opa.toNat ≠ 0 → s.opa.toNat ∣ m → s.curOff.toNat ≤ m → m < 2 ^ 64 →
    ∃ t, exec .align s = .next t ∧ s.opa.toNat ∣ t.curOff.toNat ∧ s.curOff.toNat ≤ t.curOff.toNat ∧
      t.curOff.toNat ≤ m ∧ t = { s with curOff := t.curOff, statusCode := 0 }

/-- 40_cursor.md R66: `ALIGNREV` rounds the byte offset down to a multiple of `n`, to the greatest one, and keeps the
bit offset; it raises `InvalidArgument` exactly when `n = 0`. Everything else stays. -/
def Obligations.AlignrevReachesGreatestMultiple : Prop :=
  ∀ s : State,
    (s.opa.toNat ≠ 0 →
      ∃ t, exec .alignrev s = .next t ∧ t.curOff.toNat = s.curOff.toNat - s.curOff.toNat % s.opa.toNat ∧
        (∀ m, s.opa.toNat ∣ m → m ≤ s.curOff.toNat → m ≤ t.curOff.toNat) ∧
        t = { s with curOff := t.curOff, statusCode := 0 }) ∧
    (s.opa.toNat = 0 → ∃ t, exec .alignrev s = .next t ∧ RaisedFrom .invalidArgument 0 s t)

/-! ### Bit fields -/

/-- 41_bitcodec.md R69, R72, 20_memory.md R35: the chunk loop of `WriteField` writes exactly the stream positions of the
field, each with its bit of the pattern, and keeps every other bit of every byte. -/
def Obligations.WriteFieldFollowsBitLayout : Prop :=
  ∀ (e : Endian) (p n q : Nat) (m : Memory),
    (∀ j, j < n → streamBit e (writeField e p n q m) (q + j) = p.testBit (bitOfField e n j)) ∧
    (∀ x, x < q ∨ q + n ≤ x → streamBit e (writeField e p n q m) x = streamBit e m x)

/-- 41_bitcodec.md R70, 20_memory.md R35: the chunk loop of `ReadField` gives the n-bit pattern whose bits are the
field's stream positions. -/
def Obligations.ReadFieldFollowsBitLayout : Prop :=
  ∀ (e : Endian) (n q : Nat) (m : Memory),
    readField e n q m < 2 ^ n ∧
    (∀ j, j < n → (readField e n q m).testBit (bitOfField e n j) = streamBit e m (q + j))

/-- 41_bitcodec.md R70 (a law the spec derives): for every byte state, `ReadField(n, e)` after `WriteField(p, n, e)`
from the same cursor returns `p`. -/
def Obligations.ReadFieldReturnsWrittenField : Prop :=
  ∀ (e : Endian) (p n q : Nat) (m : Memory), p < 2 ^ n → readField e n q (writeField e p n q m) = p

/-- 41_bitcodec.md R71, R72, R75, 20_memory.md R35: `WRBITS` of an in-range value, with capacity, writes the `n` bits of
the value at the stream positions of the field, keeps every other bit and every byte it does not touch, advances the
cursor by `n` bits, and writes nothing else but `STATUS`. (Below the top of the offset range; see
`TopOfRangeCommandsComplete`.) -/
def Obligations.WrbitsStoresField : Prop :=
  ∀ (s : State) (n : Nat) (u : Signedness) (e : OrderSel),
    1 ≤ n → n ≤ 32 →
    (u = .unsigned → 0 ≤ s.opa.toInt ∧ s.opa.toInt ≤ 2 ^ n - 1) →
    (u = .signed → -2 ^ (n - 1) ≤ s.opa.toInt ∧ s.opa.toInt ≤ 2 ^ (n - 1) - 1) →
    hasCapacity (s.curOff.toNat + (s.curBit.toNat + n + 7) / 8) s = true →
    s.position + n < 2 ^ 67 →
    ∃ t, exec (.wrbits n u e) s = .next t ∧
      t.position = s.position + n ∧
      t.buf.size = sizeAfter (s.curOff.toNat + (s.curBit.toNat + n + 7) / 8) s ∧
      (∀ j, j < n → streamBit (effOrder e s) t.buf.cells (s.position + j)
        = s.opa.getLsbD (bitOfField (effOrder e s) n j)) ∧
      (∀ x, x < s.position ∨ s.position + n ≤ x →
        streamBit (effOrder e s) t.buf.cells x = streamBit (effOrder e s) s.buf.cells x) ∧
      (∀ a, a < s.curOff.toNat ∨ s.curOff.toNat + (s.curBit.toNat + n + 7) / 8 ≤ a →
        t.buf.byte a = s.buf.byte a) ∧
      t = { s with buf := t.buf, curOff := t.curOff, curBit := t.curBit, statusCode := 0 }

/-- 41_bitcodec.md R67, R75: `WRBITS` raises `InvalidArgument` for a bit count outside 1..32, before it looks at the
value, and `RangeError` for a value outside the n-bit range of R67, before it looks at the capacity; nothing else
changes. For a value in that range it never raises `RangeError`. -/
def Obligations.WrbitsChecksCountThenRange : Prop :=
  ∀ (s : State) (n : Nat) (u : Signedness) (e : OrderSel),
    (n < 1 ∨ 32 < n → ∃ t, exec (.wrbits n u e) s = .next t ∧ RaisedFrom .invalidArgument 0 s t) ∧
    (1 ≤ n → n ≤ 32 → u = .unsigned → s.opa.toInt < 0 ∨ 2 ^ n - 1 < s.opa.toInt →
      ∃ t, exec (.wrbits n u e) s = .next t ∧ RaisedFrom .rangeError 0 s t) ∧
    (1 ≤ n → n ≤ 32 → u = .signed → s.opa.toInt < -2 ^ (n - 1) ∨ 2 ^ (n - 1) - 1 < s.opa.toInt →
      ∃ t, exec (.wrbits n u e) s = .next t ∧ RaisedFrom .rangeError 0 s t) ∧
    (1 ≤ n → n ≤ 32 →
      (u = .unsigned ∧ 0 ≤ s.opa.toInt ∧ s.opa.toInt ≤ 2 ^ n - 1) ∨
        (u = .signed ∧ -2 ^ (n - 1) ≤ s.opa.toInt ∧ s.opa.toInt ≤ 2 ^ (n - 1) - 1) →
      ∀ t, exec (.wrbits n u e) s = .next t → t.statusCode ≠ errorCode .rangeError)

/-- 41_bitcodec.md R71, R74, R76, 20_memory.md R35: `RDBITS` of 1 to 32 bits, with capacity, puts the field's stream
bits in the low `n` bits of `RES`, 0 above them when unsigned and the field's top bit above them when signed; it
advances the cursor by `n` bits, changes no byte, and writes nothing else but `STATUS`. -/
def Obligations.RdbitsReturnsField : Prop :=
  ∀ (s : State) (n : Nat) (u : Signedness) (e : OrderSel),
    1 ≤ n → n ≤ 32 →
    hasCapacity (s.curOff.toNat + (s.curBit.toNat + n + 7) / 8) s = true →
    s.position + n < 2 ^ 67 →
    ∃ t, exec (.rdbits n u e) s = .next t ∧
      t.position = s.position + n ∧
      (∀ j, j < n → t.res.getLsbD (bitOfField (effOrder e s) n j)
        = streamBit (effOrder e s) s.buf.cells (s.position + j)) ∧
      (∀ k, n ≤ k → k < 64 →
        t.res.getLsbD k = match u with | .unsigned => false | .signed => t.res.getLsbD (n - 1)) ∧
      t = { s with buf := ⟨s.buf.cells, sizeAfter (s.curOff.toNat + (s.curBit.toNat + n + 7) / 8) s⟩,
                   curOff := t.curOff, curBit := t.curBit, res := t.res, statusCode := 0 }

/-- 41_bitcodec.md R76 (92_eei_decisions.md D19): `RDBITS` of 0 bits returns 0, with no capacity check and no cursor
change, in every state; a count above 32 raises `InvalidArgument`. -/
def Obligations.RdbitsZeroAndOverlong : Prop :=
  ∀ (s : State) (n : Nat) (u : Signedness) (e : OrderSel),
    exec (.rdbits 0 u e) s = .next { s with res := 0, statusCode := 0 } ∧
    (32 < n → ∃ t, exec (.rdbits n u e) s = .next t ∧ RaisedFrom .invalidArgument 0 s t)

/-- 41_bitcodec.md R68, R70, R74: a `WRBITS` that completes, followed by an `RDBITS` with the same fields from the same
cursor, returns the value written, signed or unsigned: `RES` is `OPA`. -/
def Obligations.BitFieldRoundTrip : Prop :=
  ∀ (s t : State) (n : Nat) (u : Signedness) (e : OrderSel),
    exec (.wrbits n u e) s = .next t → t.statusCode = 0 →
    ∃ r, exec (.rdbits n u e) { t with curOff := s.curOff, curBit := s.curBit } = .next r ∧
      r.statusCode = 0 ∧ r.res = s.opa ∧ r.buf = t.buf

/-! ### Capacity and growth -/

/-- 20_memory.md R36, R41: when a capacity check grows the buffer, it grows it to at least the bytes needed, to exactly
those with chunk 0, and else by the smallest multiple of the chunk that covers the deficit. -/
def Obligations.GrowthIsLeastMultipleOfChunk : Prop :=
  ∀ (s : State) (needed : Nat) (b : Buffer), s.buf.size < needed → ensureCapacity needed s = some b →
    s.cfg.strict = false ∧ needed ≤ b.size ∧
    (s.cfg.chunk = 0 → b.size = needed) ∧
    (s.cfg.chunk ≠ 0 → s.cfg.chunk.toNat ∣ b.size - s.buf.size ∧ b.size < needed + s.cfg.chunk.toNat)

/-- 20_memory.md R37, R38 (decision D12, and a law the spec derives): growth keeps every byte below the old size, and
every byte it adds is `0x00`. -/
def Obligations.GrowthAppendsZeroBytes : Prop :=
  ∀ (s : State) (needed : Nat) (b : Buffer), s.buf.wf = true → ensureCapacity needed s = some b →
    (∀ a, a < s.buf.size → b.byte a = s.buf.byte a) ∧
    (∀ a, s.buf.size ≤ a → a < b.size → b.byte a = 0)

/-- 20_memory.md R40: in strict mode a buffer command that needs more bytes than the buffer has keeps the buffer, its
size and the cursor; it raises `OutOfBounds` with `needed`, unless one of its argument checks raises first
(60_exceptions.md R99). -/
def Obligations.StrictShortfallRaisesOutOfBounds : Prop :=
  ∀ (i : Instr) (s : State) (needed : Nat), capacityFigure i s = some needed → s.buf.size < needed →
    s.cfg.strict = true →
    (argumentsOk i s = true → ∃ t, exec i s = .next t ∧ RaisedFrom .outOfBounds needed s t) ∧
    (∃ t, exec i s = .next t ∧ t.buf = s.buf ∧ t.curOff = s.curOff ∧ t.curBit = s.curBit)

/-- 20_memory.md R36 (the spec's decision D14): a buffer command whose argument checks pass and whose growth would pass
`MAX_BYTES` raises `OutOfBounds` with `needed`; nothing else changes. -/
def Obligations.GrowthPastMaxBytesRaisesOutOfBounds : Prop :=
  ∀ (i : Instr) (s : State) (needed m : Nat), argumentsOk i s = true → capacityFigure i s = some needed →
    s.buf.size < needed → s.inst.maxBytes = some m →
    m < s.buf.size + growthOf s.cfg.chunk.toNat (needed - s.buf.size) →
    ∃ t, exec i s = .next t ∧ RaisedFrom .outOfBounds needed s t

/-- 20_memory.md R36, R39: a buffer command whose argument checks pass completes wherever there is capacity, at the top
of the offset range too (where the new `cur.off` is free, log 4): it stores only to the bytes from `cur.off` to below
`needed`, and only the buffer, the cursor, `RES` and `STATUS` (and the model's count of free values) change. -/
def Obligations.BufferCommandsCompleteWithCapacity : Prop :=
  ∀ (i : Instr) (s : State) (needed : Nat), argumentsOk i s = true → capacityFigure i s = some needed →
    hasCapacity needed s = true →
    ∃ t, exec i s = .next t ∧ t.buf.size = sizeAfter needed s ∧
      (∀ a, a < s.curOff.toNat ∨ needed ≤ a → t.buf.byte a = s.buf.byte a) ∧
      t = { s with buf := t.buf, curOff := t.curOff, curBit := t.curBit, res := t.res, statusCode := 0,
                   draws := t.draws }

/-- 20_memory.md R36, 10_state.md R15: in strict mode no command changes the size of the buffer. -/
def Obligations.StrictModeKeepsSize : Prop :=
  ∀ (i : Instr) (s t : State), s.cfg.strict = true → exec i s = .next t → t.buf.size = s.buf.size

/-- 20_memory.md R41, R42 (laws the spec derives): no command shrinks the buffer, and a buffer command that completes
leaves at least the bytes it needed. -/
def Obligations.SizeNeverShrinksAndCovers : Prop :=
  ∀ (i : Instr) (s t : State), exec i s = .next t →
    s.buf.size ≤ t.buf.size ∧
    (t.statusCode = 0 → ∀ needed, capacityFigure i s = some needed → needed ≤ t.buf.size)

/-! ### Float conversions -/

/-- 42_float.md R79, R82, R83: decoding a finite binary16 pattern gives a finite binary64 pattern of the same sign and
exactly the same value, an infinity gives the infinity of its sign, and any NaN gives `NAN64D`. -/
def Obligations.HalfDecodeIsExact : Prop :=
  ∀ (nan64d : Word64) (h : BitVec 16),
    (finite16 h = true →
      sign64 (dec16 nan64d h) = h.getLsbD 15 ∧ exp64 (dec16 nan64d h) ≠ 2047 ∧
      magnitude64 (dec16 nan64d h) = magnitude16 h) ∧
    (finite16 h = false → isNaN16 h = false →
      dec16 nan64d h = if h.getLsbD 15 then 0xFFF0000000000000#64 else 0x7FF0000000000000#64) ∧
    (isNaN16 h = true → dec16 nan64d h = nan64d)

/-- 42_float.md R80, R82, R83: the same for binary32. -/
def Obligations.SingleDecodeIsExact : Prop :=
  ∀ (nan64d : Word64) (w : BitVec 32),
    (finite32 w = true →
      sign64 (dec32 nan64d w) = w.getLsbD 31 ∧ exp64 (dec32 nan64d w) ≠ 2047 ∧
      magnitude64 (dec32 nan64d w) = magnitude32 w) ∧
    (finite32 w = false → isNaN32 w = false →
      dec32 nan64d w = if w.getLsbD 31 then 0xFFF0000000000000#64 else 0x7FF0000000000000#64) ∧
    (isNaN32 w = true → dec32 nan64d w = nan64d)

/-- 42_float.md R84, R85: encoding a finite binary64 pattern of magnitude at most 65504 gives a finite binary16 pattern
of the same sign whose value no other finite binary16 value is nearer to; where another is equally near, the fraction is
even. -/
def Obligations.HalfEncodeRoundsToNearestEven : Prop :=
  ∀ (nan16 : BitVec 16) (d : Word64), exp64 d ≠ 2047 → magnitude64 d ≤ 65504 * 2 ^ 1074 →
    finite16 (enc16 nan16 d) = true ∧ (enc16 nan16 d).getLsbD 15 = sign64 d ∧
    ∀ g : BitVec 16, finite16 g = true →
      gap (magnitude16 (enc16 nan16 d)) (magnitude64 d) ≤ gap (magnitude16 g) (magnitude64 d) ∧
      (gap (magnitude16 (enc16 nan16 d)) (magnitude64 d) = gap (magnitude16 g) (magnitude64 d) →
        magnitude16 g ≠ magnitude16 (enc16 nan16 d) → (enc16 nan16 d).getLsbD 0 = false)

/-- 42_float.md R84, R87: encoding a finite binary64 pattern below the midpoint between the largest finite binary32
value and `2^128` gives a finite binary32 pattern of the same sign whose value no other finite binary32 value is nearer
to, the fraction even where another is equally near; from the midpoint on it gives the infinity of the sign. -/
def Obligations.SingleEncodeRoundsToNearestEven : Prop :=
  ∀ (nan32 : BitVec 32) (d : Word64), exp64 d ≠ 2047 →
    (enc32 nan32 d).getLsbD 31 = sign64 d ∧
    ((2 ^ 25 - 1) * 2 ^ (103 + 1074) ≤ magnitude64 d →
      finite32 (enc32 nan32 d) = false ∧ isNaN32 (enc32 nan32 d) = false) ∧
    (magnitude64 d < (2 ^ 25 - 1) * 2 ^ (103 + 1074) →
      finite32 (enc32 nan32 d) = true ∧
      ∀ g : BitVec 32, finite32 g = true →
        gap (magnitude32 (enc32 nan32 d)) (magnitude64 d) ≤ gap (magnitude32 g) (magnitude64 d) ∧
        (gap (magnitude32 (enc32 nan32 d)) (magnitude64 d) = gap (magnitude32 g) (magnitude64 d) →
          magnitude32 g ≠ magnitude32 (enc32 nan32 d) → (enc32 nan32 d).getLsbD 0 = false))

/-- 42_float.md R79, R80, R85, R87: every binary16 and binary32 pattern that is not NaN comes back from its decoding. -/
def Obligations.NarrowPatternsSurviveDecodeEncode : Prop :=
  (∀ (nan16 : BitVec 16) (nan64d : Word64) (h : BitVec 16), isNaN16 h = false → enc16 nan16 (dec16 nan64d h) = h) ∧
  (∀ (nan32 : BitVec 32) (nan64d : Word64) (w : BitVec 32), isNaN32 w = false → enc32 nan32 (dec32 nan64d w) = w)

/-- 42_float.md R83, R85, R87: what the encodings give for NaN, the infinities and the zeros, the sign of a zero kept in
both directions. -/
def Obligations.EncodeSpecialValues : Prop :=
  ∀ (nan16 : BitVec 16) (nan32 : BitVec 32) (nan64d d : Word64),
    (isNaN64 d = true → enc16 nan16 d = nan16 ∧ enc32 nan32 d = nan32 ∧ dec64 nan64d d = nan64d) ∧
    (isNaN64 d = false → dec64 nan64d d = d) ∧ enc64 d = d ∧
    enc16 nan16 0x7FF0000000000000#64 = 0x7C00#16 ∧ enc16 nan16 0xFFF0000000000000#64 = 0xFC00#16 ∧
    enc32 nan32 0x7FF0000000000000#64 = 0x7F800000#32 ∧ enc32 nan32 0xFFF0000000000000#64 = 0xFF800000#32 ∧
    enc16 nan16 0#64 = 0#16 ∧ enc16 nan16 0x8000000000000000#64 = 0x8000#16 ∧
    enc32 nan32 0#64 = 0#32 ∧ enc32 nan32 0x8000000000000000#64 = 0x80000000#32 ∧
    dec16 nan64d 0x8000#16 = 0x8000000000000000#64 ∧ dec32 nan64d 0x80000000#32 = 0x8000000000000000#64

/-! ### Float commands -/

/-- 42_float.md R89, R90: `WRF16` of an operand that passes the range check, with capacity, stores `Enc16` of it at the
cursor, two whole bytes from `cur.off` whatever `cur.bit` is; every other byte and every other register stays. -/
def Obligations.Wrf16StoresHalf : Prop :=
  ∀ (s : State) (e : OrderSel), halfRangeOk s.inst.halfMax s.opa = true → hasCapacity (s.curOff.toNat + 2) s = true →
    s.curOff.toNat + 2 < 2 ^ 64 →
    StoresPattern 2 (enc16 s.inst.nan16 s.opa).toNat e s (exec (.wrf16 e) s)

/-- 42_float.md R89, R92: `WRF32`, with capacity, stores `Enc32` of the operand; there is no range check. -/
def Obligations.Wrf32StoresSingle : Prop :=
  ∀ (s : State) (e : OrderSel), hasCapacity (s.curOff.toNat + 4) s = true → s.curOff.toNat + 4 < 2 ^ 64 →
    StoresPattern 4 (enc32 s.inst.nan32 s.opa).toNat e s (exec (.wrf32 e) s)

/-- 42_float.md R88, R89, R94: `WRF64`, with capacity, stores the operand's pattern unchanged. -/
def Obligations.Wrf64StoresDouble : Prop :=
  ∀ (s : State) (e : OrderSel), hasCapacity (s.curOff.toNat + 8) s = true → s.curOff.toNat + 8 < 2 ^ 64 →
    StoresPattern 8 s.opa.toNat e s (exec (.wrf64 e) s)

/-- 42_float.md R86, R90, 60_exceptions.md R99: `WRF16` of a finite operand of magnitude above `HALF_MAX` raises
`RangeError`, whatever the capacity; of any other operand it never does. -/
def Obligations.Wrf16RejectsBeyondHalfMax : Prop :=
  ∀ (s : State) (e : OrderSel),
    (exp64 s.opa ≠ 2047 → s.inst.halfMax * 2 ^ 1074 < magnitude64 s.opa →
      ∃ t, exec (.wrf16 e) s = .next t ∧ RaisedFrom .rangeError 0 s t) ∧
    (exp64 s.opa = 2047 ∨ magnitude64 s.opa ≤ s.inst.halfMax * 2 ^ 1074 →
      ∀ t, exec (.wrf16 e) s = .next t → t.statusCode ≠ errorCode .rangeError)

/-- 42_float.md R79, R89, R91: `RDF16`, with capacity, decodes the two bytes at `cur.off` into `RES`; no byte changes.
-/
def Obligations.Rdf16ReturnsHalf : Prop :=
  ∀ (s : State) (e : OrderSel), hasCapacity (s.curOff.toNat + 2) s = true → s.curOff.toNat + 2 < 2 ^ 64 →
    ReturnsPattern 2 (fun p => dec16 s.inst.nan64d (BitVec.ofNat 16 p)) e s (exec (.rdf16 e) s)

/-- 42_float.md R80, R89, R93: `RDF32`, with capacity, decodes the four bytes at `cur.off` into `RES`. -/
def Obligations.Rdf32ReturnsSingle : Prop :=
  ∀ (s : State) (e : OrderSel), hasCapacity (s.curOff.toNat + 4) s = true → s.curOff.toNat + 4 < 2 ^ 64 →
    ReturnsPattern 4 (fun p => dec32 s.inst.nan64d (BitVec.ofNat 32 p)) e s (exec (.rdf32 e) s)

/-- 42_float.md R81, R89, R95: `RDF64`, with capacity, decodes the eight bytes at `cur.off` into `RES`. -/
def Obligations.Rdf64ReturnsDouble : Prop :=
  ∀ (s : State) (e : OrderSel), hasCapacity (s.curOff.toNat + 8) s = true → s.curOff.toNat + 8 < 2 ^ 64 →
    ReturnsPattern 8 (fun p => dec64 s.inst.nan64d (BitVec.ofNat 64 p)) e s (exec (.rdf64 e) s)

/-- 42_float.md R96: the round-trip laws, which the spec derives. A float write that completes, followed by the
matching read with the same `E` from the same cursor: `RDF64` returns a non-NaN operand; `RDF32` and `RDF16` return a
non-NaN operand that the format holds exactly, and else the binary64 of the encoded value; for a NaN each returns
`NAN64D` (with sensible NaN parameters). -/
def Obligations.FloatWriteThenReadLaws : Prop :=
  ∀ (s t : State) (e : OrderSel), paramsOk s.inst = true → t.statusCode = 0 →
    (exec (.wrf64 e) s = .next t →
      ∃ r, exec (.rdf64 e) { t with curOff := s.curOff, curBit := s.curBit } = .next r ∧ r.statusCode = 0 ∧
        r.res = if isNaN64 s.opa then s.inst.nan64d else s.opa) ∧
    (exec (.wrf32 e) s = .next t →
      ∃ r, exec (.rdf32 e) { t with curOff := s.curOff, curBit := s.curBit } = .next r ∧ r.statusCode = 0 ∧
        (isNaN64 s.opa = true → r.res = s.inst.nan64d) ∧
        (isNaN64 s.opa = false → r.res = dec32 s.inst.nan64d (enc32 s.inst.nan32 s.opa)) ∧
        (isNaN64 s.opa = false →
          (∃ w, isNaN32 w = false ∧ dec32 s.inst.nan64d w = s.opa) → r.res = s.opa)) ∧
    (exec (.wrf16 e) s = .next t →
      ∃ r, exec (.rdf16 e) { t with curOff := s.curOff, curBit := s.curBit } = .next r ∧ r.statusCode = 0 ∧
        (isNaN64 s.opa = true → r.res = s.inst.nan64d) ∧
        (isNaN64 s.opa = false → r.res = dec16 s.inst.nan64d (enc16 s.inst.nan16 s.opa)) ∧
        (isNaN64 s.opa = false →
          (∃ h, isNaN16 h = false ∧ dec16 s.inst.nan64d h = s.opa) → r.res = s.opa))

/-- Log 4 (DESIGN CHOICE; 10_state.md R12, 41_bitcodec.md R71, 42_float.md R89): at the top of the offset range, where
the advanced offset does not fit the 64-bit `cur.off`, the spec states no new `cur.off` and the model leaves it free;
every bit and float command with capacity still completes with every other effect: the field or the bytes stored,
`RES`, the bit offset, the size, `STATUS`. Stated for every value of the count of free values, and of no value of
`cur.off`. -/
def Obligations.TopOfRangeCommandsComplete : Prop :=
  ∀ (s : State) (e : OrderSel),
    (∀ (n : Nat) (u : Signedness), 1 ≤ n → n ≤ 32 →
      hasCapacity (s.curOff.toNat + (s.curBit.toNat + n + 7) / 8) s = true → 2 ^ 67 ≤ s.position + n →
      ((u = .unsigned → 0 ≤ s.opa.toInt ∧ s.opa.toInt ≤ 2 ^ n - 1) →
        (u = .signed → -2 ^ (n - 1) ≤ s.opa.toInt ∧ s.opa.toInt ≤ 2 ^ (n - 1) - 1) →
        ∃ t, exec (.wrbits n u e) s = .next t ∧ t.curBit.toNat = (s.curBit.toNat + n) % 8 ∧
          t.buf.size = sizeAfter (s.curOff.toNat + (s.curBit.toNat + n + 7) / 8) s ∧
          (∀ j, j < n → streamBit (effOrder e s) t.buf.cells (s.position + j)
            = s.opa.getLsbD (bitOfField (effOrder e s) n j)) ∧
          (∀ x, x < s.position ∨ s.position + n ≤ x →
            streamBit (effOrder e s) t.buf.cells x = streamBit (effOrder e s) s.buf.cells x) ∧
          (∀ a, a < s.curOff.toNat ∨ s.curOff.toNat + (s.curBit.toNat + n + 7) / 8 ≤ a →
            t.buf.byte a = s.buf.byte a) ∧
          t = { s with buf := t.buf, curOff := t.curOff, curBit := t.curBit, statusCode := 0, draws := t.draws }) ∧
      (∃ t, exec (.rdbits n u e) s = .next t ∧ t.curBit.toNat = (s.curBit.toNat + n) % 8 ∧
        (∀ j, j < n → t.res.getLsbD (bitOfField (effOrder e s) n j)
          = streamBit (effOrder e s) s.buf.cells (s.position + j)) ∧
        (∀ k, n ≤ k → k < 64 →
          t.res.getLsbD k = match u with | .unsigned => false | .signed => t.res.getLsbD (n - 1)) ∧
        t = { s with buf := ⟨s.buf.cells, sizeAfter (s.curOff.toNat + (s.curBit.toNat + n + 7) / 8) s⟩,
                     curOff := t.curOff, curBit := t.curBit, res := t.res, statusCode := 0, draws := t.draws })) ∧
    (hasCapacity (s.curOff.toNat + 2) s = true → 2 ^ 64 ≤ s.curOff.toNat + 2 →
      (halfRangeOk s.inst.halfMax s.opa = true →
        StoresPatternAtTop 2 (enc16 s.inst.nan16 s.opa).toNat e s (exec (.wrf16 e) s)) ∧
      ReturnsPatternAtTop 2 (fun p => dec16 s.inst.nan64d (BitVec.ofNat 16 p)) e s (exec (.rdf16 e) s)) ∧
    (hasCapacity (s.curOff.toNat + 4) s = true → 2 ^ 64 ≤ s.curOff.toNat + 4 →
      StoresPatternAtTop 4 (enc32 s.inst.nan32 s.opa).toNat e s (exec (.wrf32 e) s) ∧
      ReturnsPatternAtTop 4 (fun p => dec32 s.inst.nan64d (BitVec.ofNat 32 p)) e s (exec (.rdf32 e) s)) ∧
    (hasCapacity (s.curOff.toNat + 8) s = true → 2 ^ 64 ≤ s.curOff.toNat + 8 →
      StoresPatternAtTop 8 s.opa.toNat e s (exec (.wrf64 e) s) ∧
      ReturnsPatternAtTop 8 (fun p => dec64 s.inst.nan64d (BitVec.ofNat 64 p)) e s (exec (.rdf64 e) s))

/-! ### Errors -/

/-- 60_exceptions.md R101: a command that raises changes no state except `STATUS` and the three error registers (and
the model's own count of free values, log 3). -/
def Obligations.RaisedErrorsArePrecise : Prop :=
  ∀ (i : Instr) (s t : State), exec i s = .next t → t.statusCode ≠ 0 →
    t = { s with statusCode := t.statusCode, errOffset := t.errOffset, errSize := t.errSize,
                 errNeeded := t.errNeeded, draws := t.draws }

/-- 60_exceptions.md R103: a command that raises writes `cur.off`, `size` and, for `OutOfBounds`, `needed` (else 0) into
the error registers, each figure that fits its register; a command that completes does not write them. -/
def Obligations.ErrorRegistersDescribeLastFailure : Prop :=
  ∀ (i : Instr) (s t : State), exec i s = .next t →
    (t.statusCode ≠ 0 →
      t.errOffset = s.curOff ∧ (s.buf.size < 2 ^ 64 → t.errSize.toNat = s.buf.size) ∧
      (t.statusCode ≠ errorCode .outOfBounds → t.errNeeded = 0) ∧
      (t.statusCode = errorCode .outOfBounds → ∃ needed, capacityFigure i s = some needed ∧ s.buf.size < needed ∧
        (needed < 2 ^ 64 → t.errNeeded.toNat = needed))) ∧
    (t.statusCode = 0 →
      t.errOffset = s.errOffset ∧ t.errSize = s.errSize ∧ t.errNeeded = s.errNeeded)

/-- 60_exceptions.md R97, R100: every command leaves one of the codes 0 to 3; code 4, `UnsupportedOperation`, is never
raised and codes 5 to 7 are never written. -/
def Obligations.CommandsWriteCodesZeroToThree : Prop :=
  ∀ (i : Instr) (s t : State), exec i s = .next t → t.statusCode.toNat ≤ 3

/-- 60_exceptions.md R102, 20_memory.md R36: every command ends in a next state, in every state: no access leaves the
buffer, and no error stops the machine. -/
def Obligations.EveryCommandAnswersNext : Prop :=
  ∀ (i : Instr) (s : State), ∃ t, exec i s = .next t

/-- 70_reset_and_hazards.md R114, R124: every step goes on, except a reset whose construction arguments are refused;
and a reset is refused exactly when more bytes than `MAX_BYTES`, a position outside `[0, 2^67)` or a chunk outside 64
bits are given. That a refused construction is a named refusal of the step is log 14, and that a reset is one of the
host's interactions log 10. -/
def Obligations.OnlyRefusedResetsStop : Prop :=
  ∀ s : State,
    ((∃ t, step s = .next t) ∨
      (∃ a rest why, s.pending = .reset a :: rest ∧ step s = .refused (.construction why) ∧
        ((∃ m, s.inst.maxBytes = some m ∧ m < a.bytes.length) ∨
         a.byteOffset * 8 + a.bitOffset < 0 ∨ 2 ^ 67 ≤ a.byteOffset * 8 + a.bitOffset ∨
         a.extendChunkSize < 0 ∨ 2 ^ 64 ≤ a.extendChunkSize))) ∧
    (∀ (a : ResetArgs) (rest : List HostAccess), s.pending = .reset a :: rest →
      ((∃ m, s.inst.maxBytes = some m ∧ m < a.bytes.length) ∨
       a.byteOffset * 8 + a.bitOffset < 0 ∨ 2 ^ 67 ≤ a.byteOffset * 8 + a.bitOffset ∨
       a.extendChunkSize < 0 ∨ 2 ^ 64 ≤ a.extendChunkSize) →
      ∃ why, step s = .refused (.construction why))

/-! ### Invariants of every step -/

/-- 10_state.md R9, 60_exceptions.md R97: every step keeps the invariant: the buffer canonical and within `MAX_BYTES`,
a status code the BFC writes, sensible parameters. -/
def Obligations.StepKeepsInvariant : Prop :=
  ∀ s t : State, s.inv = true → step s = .next t → t.inv = true

/-- 10_state.md R28: the state after reset has the invariant, and so has the state any accepted reset leaves. -/
def Obligations.ResetEstablishesInvariant : Prop :=
  State.reset.inv = true ∧
  ∀ (s t : State) (a : ResetArgs), paramsOk s.inst = true → hostReset a s = .next t → t.inv = true

/-- 10_state.md R15: only a reset changes the configuration. That nothing, a reset included, changes the parameters of
the instance (00_scope.md R5) is the model's choice (log 5, log 10). -/
def Obligations.ConfigurationChangesOnlyByReset : Prop :=
  ∀ s t : State, step s = .next t →
    t.inst = s.inst ∧ ((∀ a rest, s.pending ≠ .reset a :: rest) → t.cfg = s.cfg)

/-- 10_state.md R20, R21, R25: no command writes `OPA`, `OPB`, `BUF_ADDR` or `CMD`; only `RDBITS`, `RDF16`, `RDF32` and
`RDF64` write `RES`, and only when they complete.The model's own queue and record stay too (log 1, log 2). -/
def Obligations.CommandsKeepHostRegisters : Prop :=
  ∀ (i : Instr) (s t : State), exec i s = .next t →
    t.opa = s.opa ∧ t.opb = s.opb ∧ t.bufAddr = s.bufAddr ∧ t.cmd = s.cmd ∧
    t.pending = s.pending ∧ t.hostLog = s.hostLog ∧
    (writesRes i = false ∨ t.statusCode ≠ 0 → t.res = s.res)

/-- 20_memory.md R45, 10_state.md R14 (laws the spec derives): a command that is not a write changes no byte: a cursor
command keeps the whole buffer, a read command keeps every byte. -/
def Obligations.OnlyWritesChangeBytes : Prop :=
  ∀ (i : Instr) (s t : State), exec i s = .next t →
    (i = .skip ∨ i = .goto ∨ i = .align ∨ i = .alignrev → t.buf = s.buf) ∧
    (writesRes i = true → ∀ a, t.buf.byte a = s.buf.byte a)

/-! ### What has no effect -/

/-- 10_state.md R17: `cfg.enforceWide` and `cfg.errorDump` have no effect on any command. Two states that differ only in
them are led to states that differ only in them. -/
def Obligations.HeldFlagsHaveNoEffect : Prop :=
  ∀ (i : Instr) (s t : State) (a b : Bool), exec i s = .next t →
    exec i { s with cfg := { s.cfg with enforceWide := a, errorDump := b } }
      = .next { t with cfg := { t.cfg with enforceWide := a, errorDump := b } }

/-- 30_encoding.md R55: which operand registers a command ignores. `OPB` is read by `SKIP` and `GOTO` only; the read
commands read no operand register. -/
def Obligations.IgnoredOperandsHaveNoEffect : Prop :=
  ∀ (i : Instr) (s t : State) (x y : Word64), exec i s = .next t →
    (i ≠ .skip → i ≠ .goto → exec i { s with opb := y } = .next { t with opb := y }) ∧
    (writesRes i = true → exec i { s with opa := x, opb := y } = .next { t with opa := x, opb := y })

/-! ### The host's side -/

/-- 10_state.md R18, R20, R24, R25, R29: a host write of `OPA`, `OPB` or `BUF_ADDR` stores the value; a write of any
other register than `CMD`, read-only or reserved, is ignored. -/
def Obligations.HostWritesStoreOrAreIgnored : Prop :=
  ∀ (s : State) (reg : Nat) (v : Word64) (rest : List HostAccess), s.pending = .write reg v :: rest → reg ≠ 0 →
    step s = .next
      (if reg = 1 then { s with pending := rest, opa := v }
       else if reg = 2 then { s with pending := rest, opb := v }
       else if reg = 13 then { s with pending := rest, bufAddr := v }
       else { s with pending := rest })

/-- 10_state.md R18, R24, R25, R29: what a host read of each register returns (recorded by the model, log 2); it
changes no state of the BFC. Reserved numbers and reserved bits read 0. A read carries 64 bits, a 32-bit register
zero-extended: that is the model's choice (log 9). A `SIZE` that does not fit 64 bits reads as a free value (log 4),
which only advances the model's count of them. -/
def Obligations.HostReadsReturnRegisters : Prop :=
  ∀ (s : State) (reg : Nat) (rest : List HostAccess), s.pending = .read reg :: rest →
    ∃ v k, step s = .next { s with pending := rest, hostLog := .readValue reg v :: s.hostLog, draws := k } ∧
      (reg ≠ 0xA ∨ s.buf.size < 2 ^ 64 → k = s.draws) ∧
      (reg = 0x0 → v.toNat = s.cmd.toNat) ∧ (reg = 0x1 → v = s.opa) ∧ (reg = 0x2 → v = s.opb) ∧
      (reg = 0x3 → v = s.res) ∧ (reg = 0x4 → v.toNat = s.statusCode.toNat) ∧ (reg = 0x5 → v = s.errOffset) ∧
      (reg = 0x6 → v = s.errSize) ∧ (reg = 0x7 → v = s.errNeeded) ∧ (reg = 0x8 → v = s.curOff) ∧
      (reg = 0x9 → v.toNat = s.curBit.toNat) ∧ (reg = 0xA → s.buf.size < 2 ^ 64 → v.toNat = s.buf.size) ∧
      (reg = 0xB → v.toNat = (if s.cfg.endian = .big then 1 else 0) + (if s.cfg.strict then 2 else 0)
        + (if s.cfg.enforceWide then 4 else 0) + (if s.cfg.errorDump then 8 else 0)) ∧
      (reg = 0xC → v = s.cfg.chunk) ∧ (reg = 0xD → v = s.bufAddr) ∧
      (reg = 0xE → v.toNat =
        if s.bufAddr.toNat < s.buf.size then (s.buf.byte s.bufAddr.toNat).toNat else 0) ∧
      (0xF ≤ reg → v = 0)

/-- 70_reset_and_hazards.md R112, 10_state.md R28: a reset whose arguments hold R112's requirements loads the bytes,
the configuration and the normalized cursor, and zeroes every other register. That the parameters of the instance and
the model's own fields stay is the model's choice (log 10). -/
def Obligations.ResetLoadsConstruction : Prop :=
  ∀ (s : State) (a : ResetArgs) (rest : List HostAccess), s.pending = .reset a :: rest →
    (∀ m, s.inst.maxBytes = some m → a.bytes.length ≤ m) →
    0 ≤ a.byteOffset * 8 + a.bitOffset → a.byteOffset * 8 + a.bitOffset < 2 ^ 67 →
    0 ≤ a.extendChunkSize → a.extendChunkSize < 2 ^ 64 →
    ∃ t, step s = .next t ∧
      t.buf.size = a.bytes.length ∧ (∀ k (h : k < a.bytes.length), t.buf.byte k = a.bytes[k]) ∧
      (t.curOff.toNat : Int) = (a.byteOffset * 8 + a.bitOffset) / 8 ∧
      (t.curBit.toNat : Int) = (a.byteOffset * 8 + a.bitOffset) % 8 ∧
      t.cfg.endian = a.endianness ∧ t.cfg.strict = a.strict ∧ (t.cfg.chunk.toNat : Int) = a.extendChunkSize ∧
      t.cfg.enforceWide = a.enforceWideInt ∧ t.cfg.errorDump = a.errorDump ∧
      t = { State.reset with inst := s.inst, buf := t.buf, curOff := t.curOff, curBit := t.curBit, cfg := t.cfg,
                             pending := rest, hostLog := s.hostLog, draws := s.draws }

/-- 10_state.md R28, 70_reset_and_hazards.md R113: the state after a reset with the default arguments: an empty buffer,
the cursor at `(0, 0)`, little endian, non-strict, chunk 0, both held flags 0, every register 0. -/
def Obligations.ResetStateValues : Prop :=
  State.reset.buf.size = 0 ∧ (∀ a, State.reset.buf.byte a = 0) ∧
  State.reset.curOff = 0 ∧ State.reset.curBit = 0 ∧ State.reset.cfg = ⟨.little, false, 0, false, false⟩ ∧
  State.reset.cmd = 0 ∧ State.reset.opa = 0 ∧ State.reset.opb = 0 ∧ State.reset.res = 0 ∧
  State.reset.statusCode = 0 ∧ State.reset.errOffset = 0 ∧ State.reset.errSize = 0 ∧ State.reset.errNeeded = 0 ∧
  State.reset.bufAddr = 0

/-- 60_exceptions.md R110 (log 1): with no host interaction to come, the machine is idle and keeps all its state. -/
def Obligations.IdleStepKeepsState : Prop :=
  ∀ s : State, s.pending = [] → step s = .next s

/-- 30_encoding.md R60, R61: what the lines of the assembler stand for: the operand writes in order, then the write of
the command word, for the cursor lines, the pseudo-instructions, the bit lines and the float lines with each form of
float operand but the decimal one (see `DecimalOperandsDenoteNearestDouble`). That an integer operand of any line is
written mod `2^64`, of which R60 speaks for `wrbits` only, and that `nan` is the pattern `0x7FF8000000000000`, are the
model's choices (log 15). -/
def Obligations.AssemblerLinesExpand : Prop :=
  (∀ (c : BitVec 3) (x y : Int),
    expandLine c (.skip x y) = some [.write 1 (BitVec.ofInt 64 x), .write 2 (BitVec.ofInt 64 y), .write 0 1] ∧
    expandLine c (.goto x y) = some [.write 1 (BitVec.ofInt 64 x), .write 2 (BitVec.ofInt 64 y), .write 0 2] ∧
    expandLine c (.align x) = some [.write 1 (BitVec.ofInt 64 x), .write 0 3] ∧
    expandLine c (.alignrev x) = some [.write 1 (BitVec.ofInt 64 x), .write 0 4] ∧
    expandLine c .rewind = expandLine c (.goto 0 0) ∧
    expandLine c (.skipbits x) = expandLine c (.skip 0 x) ∧
    expandLine c (.skipbytes x) = expandLine c (.skip x 0) ∧
    expandLine c .byteAlign = (expandLine c (.skip 0 ((8 - c.toNat) % 8 : Nat))).map (.read 9 :: ·)) ∧
  (∀ (c : BitVec 3) (u : Signedness) (e : OrderSel) (n : Nat) (x : Int), n < 64 →
    expandLine c (.wrbits u e n x)
      = some [.write 1 (BitVec.ofInt 64 x), .write 0 (BitVec.ofNat 64
          (0x10 + n * 2 ^ 8 + (signednessBits u).toNat * 2 ^ 14 + (orderBits e).toNat * 2 ^ 15))] ∧
    expandLine c (.rdbits u e n)
      = some [.write 0 (BitVec.ofNat 64
          (0x11 + n * 2 ^ 8 + (signednessBits u).toNat * 2 ^ 14 + (orderBits e).toNat * 2 ^ 15))]) ∧
  (∀ (c : BitVec 3) (e : OrderSel) (x : FloatLiteral) (p : Word64), x.pattern64 = some p →
    expandLine c (.wrf16 e x) = some [.write 1 p, .write 0 (BitVec.ofNat 64 (0x20 + (orderBits e).toNat * 2 ^ 15))] ∧
    expandLine c (.wrf32 e x) = some [.write 1 p, .write 0 (BitVec.ofNat 64 (0x22 + (orderBits e).toNat * 2 ^ 15))] ∧
    expandLine c (.wrf64 e x) = some [.write 1 p, .write 0 (BitVec.ofNat 64 (0x24 + (orderBits e).toNat * 2 ^ 15))]) ∧
  (∀ (c : BitVec 3) (e : OrderSel),
    expandLine c (.rdf16 e) = some [.write 0 (BitVec.ofNat 64 (0x21 + (orderBits e).toNat * 2 ^ 15))] ∧
    expandLine c (.rdf32 e) = some [.write 0 (BitVec.ofNat 64 (0x23 + (orderBits e).toNat * 2 ^ 15))] ∧
    expandLine c (.rdf64 e) = some [.write 0 (BitVec.ofNat 64 (0x25 + (orderBits e).toNat * 2 ^ 15))]) ∧
  (∀ p : Word64, (FloatLiteral.pattern p).pattern64 = some p) ∧
  (FloatLiteral.infinity false).pattern64 = some 0x7FF0000000000000#64 ∧
  (FloatLiteral.infinity true).pattern64 = some 0xFFF0000000000000#64 ∧
  FloatLiteral.nan.pattern64 = some 0x7FF8000000000000#64

/-- 30_encoding.md R60: a decimal float operand denotes the binary64 value nearest it, the even one where another is
equally near, with the operand's sign. That an operand at or beyond the midpoint between the largest finite value and
`2^1024` is no line is the model's choice (log 15). -/
def Obligations.DecimalOperandsDenoteNearestDouble : Prop :=
  ∀ (neg : Bool) (digits : Nat) (exp10 : Int),
    ((FloatLiteral.decimal neg digits exp10).pattern64 = none ↔
      (2 ^ 54 - 1) * 2 ^ (970 + 1074) * decimalDen exp10 ≤ decimalNum digits exp10 * 2 ^ 1074) ∧
    ∀ p : Word64, (FloatLiteral.decimal neg digits exp10).pattern64 = some p →
      sign64 p = neg ∧ exp64 p ≠ 2047 ∧
      ∀ q : Word64, exp64 q ≠ 2047 →
        gap (magnitude64 p * decimalDen exp10) (decimalNum digits exp10 * 2 ^ 1074)
          ≤ gap (magnitude64 q * decimalDen exp10) (decimalNum digits exp10 * 2 ^ 1074) ∧
        (gap (magnitude64 p * decimalDen exp10) (decimalNum digits exp10 * 2 ^ 1074)
            = gap (magnitude64 q * decimalDen exp10) (decimalNum digits exp10 * 2 ^ 1074) →
          magnitude64 q ≠ magnitude64 p → p.getLsbD 0 = false)
end

