-- ==== Sys2Proof/Laws/State.lean ====
section
/-!
SUPPORT. One lemma per field per update of the state, so that no proof unfolds a record update.
-/

namespace Sys2Proof.Machine

open Sys2Proof

variable (s : State)

/-! ### Replacing the buffer -/

@[simp] theorem State.setBuf_inst (b : Buffer) : (s.setBuf b).inst = s.inst := rfl
@[simp] theorem State.setBuf_buf (b : Buffer) : (s.setBuf b).buf = b := rfl
@[simp] theorem State.setBuf_curOff (b : Buffer) : (s.setBuf b).curOff = s.curOff := rfl
@[simp] theorem State.setBuf_curBit (b : Buffer) : (s.setBuf b).curBit = s.curBit := rfl
@[simp] theorem State.setBuf_cfg (b : Buffer) : (s.setBuf b).cfg = s.cfg := rfl
@[simp] theorem State.setBuf_cmd (b : Buffer) : (s.setBuf b).cmd = s.cmd := rfl
@[simp] theorem State.setBuf_opa (b : Buffer) : (s.setBuf b).opa = s.opa := rfl
@[simp] theorem State.setBuf_opb (b : Buffer) : (s.setBuf b).opb = s.opb := rfl
@[simp] theorem State.setBuf_res (b : Buffer) : (s.setBuf b).res = s.res := rfl
@[simp] theorem State.setBuf_statusCode (b : Buffer) : (s.setBuf b).statusCode = s.statusCode := rfl
@[simp] theorem State.setBuf_errOffset (b : Buffer) : (s.setBuf b).errOffset = s.errOffset := rfl
@[simp] theorem State.setBuf_errSize (b : Buffer) : (s.setBuf b).errSize = s.errSize := rfl
@[simp] theorem State.setBuf_errNeeded (b : Buffer) : (s.setBuf b).errNeeded = s.errNeeded := rfl
@[simp] theorem State.setBuf_bufAddr (b : Buffer) : (s.setBuf b).bufAddr = s.bufAddr := rfl
@[simp] theorem State.setBuf_pending (b : Buffer) : (s.setBuf b).pending = s.pending := rfl
@[simp] theorem State.setBuf_hostLog (b : Buffer) : (s.setBuf b).hostLog = s.hostLog := rfl
@[simp] theorem State.setBuf_draws (b : Buffer) : (s.setBuf b).draws = s.draws := rfl

/-! ### Replacing the bytes -/

@[simp] theorem State.setCells_inst (m : Memory) : (s.setCells m).inst = s.inst := rfl
@[simp] theorem State.setCells_buf (m : Memory) : (s.setCells m).buf = ⟨m, s.buf.size⟩ := rfl
@[simp] theorem State.setCells_curOff (m : Memory) : (s.setCells m).curOff = s.curOff := rfl
@[simp] theorem State.setCells_curBit (m : Memory) : (s.setCells m).curBit = s.curBit := rfl
@[simp] theorem State.setCells_cfg (m : Memory) : (s.setCells m).cfg = s.cfg := rfl
@[simp] theorem State.setCells_cmd (m : Memory) : (s.setCells m).cmd = s.cmd := rfl
@[simp] theorem State.setCells_opa (m : Memory) : (s.setCells m).opa = s.opa := rfl
@[simp] theorem State.setCells_opb (m : Memory) : (s.setCells m).opb = s.opb := rfl
@[simp] theorem State.setCells_res (m : Memory) : (s.setCells m).res = s.res := rfl
@[simp] theorem State.setCells_statusCode (m : Memory) : (s.setCells m).statusCode = s.statusCode := rfl
@[simp] theorem State.setCells_errOffset (m : Memory) : (s.setCells m).errOffset = s.errOffset := rfl
@[simp] theorem State.setCells_errSize (m : Memory) : (s.setCells m).errSize = s.errSize := rfl
@[simp] theorem State.setCells_errNeeded (m : Memory) : (s.setCells m).errNeeded = s.errNeeded := rfl
@[simp] theorem State.setCells_bufAddr (m : Memory) : (s.setCells m).bufAddr = s.bufAddr := rfl
@[simp] theorem State.setCells_pending (m : Memory) : (s.setCells m).pending = s.pending := rfl
@[simp] theorem State.setCells_hostLog (m : Memory) : (s.setCells m).hostLog = s.hostLog := rfl
@[simp] theorem State.setCells_draws (m : Memory) : (s.setCells m).draws = s.draws := rfl

/-! ### Replacing the cursor -/

@[simp] theorem State.setCursor_inst (o : Word64) (k : BitVec 3) : (s.setCursor o k).inst = s.inst := rfl
@[simp] theorem State.setCursor_buf (o : Word64) (k : BitVec 3) : (s.setCursor o k).buf = s.buf := rfl
@[simp] theorem State.setCursor_curOff (o : Word64) (k : BitVec 3) : (s.setCursor o k).curOff = o := rfl
@[simp] theorem State.setCursor_curBit (o : Word64) (k : BitVec 3) : (s.setCursor o k).curBit = k := rfl
@[simp] theorem State.setCursor_cfg (o : Word64) (k : BitVec 3) : (s.setCursor o k).cfg = s.cfg := rfl
@[simp] theorem State.setCursor_cmd (o : Word64) (k : BitVec 3) : (s.setCursor o k).cmd = s.cmd := rfl
@[simp] theorem State.setCursor_opa (o : Word64) (k : BitVec 3) : (s.setCursor o k).opa = s.opa := rfl
@[simp] theorem State.setCursor_opb (o : Word64) (k : BitVec 3) : (s.setCursor o k).opb = s.opb := rfl
@[simp] theorem State.setCursor_res (o : Word64) (k : BitVec 3) : (s.setCursor o k).res = s.res := rfl
@[simp] theorem State.setCursor_statusCode (o : Word64) (k : BitVec 3) : (s.setCursor o k).statusCode = s.statusCode := rfl
@[simp] theorem State.setCursor_errOffset (o : Word64) (k : BitVec 3) : (s.setCursor o k).errOffset = s.errOffset := rfl
@[simp] theorem State.setCursor_errSize (o : Word64) (k : BitVec 3) : (s.setCursor o k).errSize = s.errSize := rfl
@[simp] theorem State.setCursor_errNeeded (o : Word64) (k : BitVec 3) : (s.setCursor o k).errNeeded = s.errNeeded := rfl
@[simp] theorem State.setCursor_bufAddr (o : Word64) (k : BitVec 3) : (s.setCursor o k).bufAddr = s.bufAddr := rfl
@[simp] theorem State.setCursor_pending (o : Word64) (k : BitVec 3) : (s.setCursor o k).pending = s.pending := rfl
@[simp] theorem State.setCursor_hostLog (o : Word64) (k : BitVec 3) : (s.setCursor o k).hostLog = s.hostLog := rfl
@[simp] theorem State.setCursor_draws (o : Word64) (k : BitVec 3) : (s.setCursor o k).draws = s.draws := rfl

/-! ### Writing `RES` -/

@[simp] theorem State.setRes_inst (v : Word64) : (s.setRes v).inst = s.inst := rfl
@[simp] theorem State.setRes_buf (v : Word64) : (s.setRes v).buf = s.buf := rfl
@[simp] theorem State.setRes_curOff (v : Word64) : (s.setRes v).curOff = s.curOff := rfl
@[simp] theorem State.setRes_curBit (v : Word64) : (s.setRes v).curBit = s.curBit := rfl
@[simp] theorem State.setRes_cfg (v : Word64) : (s.setRes v).cfg = s.cfg := rfl
@[simp] theorem State.setRes_cmd (v : Word64) : (s.setRes v).cmd = s.cmd := rfl
@[simp] theorem State.setRes_opa (v : Word64) : (s.setRes v).opa = s.opa := rfl
@[simp] theorem State.setRes_opb (v : Word64) : (s.setRes v).opb = s.opb := rfl
@[simp] theorem State.setRes_res (v : Word64) : (s.setRes v).res = v := rfl
@[simp] theorem State.setRes_statusCode (v : Word64) : (s.setRes v).statusCode = s.statusCode := rfl
@[simp] theorem State.setRes_errOffset (v : Word64) : (s.setRes v).errOffset = s.errOffset := rfl
@[simp] theorem State.setRes_errSize (v : Word64) : (s.setRes v).errSize = s.errSize := rfl
@[simp] theorem State.setRes_errNeeded (v : Word64) : (s.setRes v).errNeeded = s.errNeeded := rfl
@[simp] theorem State.setRes_bufAddr (v : Word64) : (s.setRes v).bufAddr = s.bufAddr := rfl
@[simp] theorem State.setRes_pending (v : Word64) : (s.setRes v).pending = s.pending := rfl
@[simp] theorem State.setRes_hostLog (v : Word64) : (s.setRes v).hostLog = s.hostLog := rfl
@[simp] theorem State.setRes_draws (v : Word64) : (s.setRes v).draws = s.draws := rfl

/-! ### Completing a command -/

@[simp] theorem State.complete_inst : (s.complete).inst = s.inst := rfl
@[simp] theorem State.complete_buf : (s.complete).buf = s.buf := rfl
@[simp] theorem State.complete_curOff : (s.complete).curOff = s.curOff := rfl
@[simp] theorem State.complete_curBit : (s.complete).curBit = s.curBit := rfl
@[simp] theorem State.complete_cfg : (s.complete).cfg = s.cfg := rfl
@[simp] theorem State.complete_cmd : (s.complete).cmd = s.cmd := rfl
@[simp] theorem State.complete_opa : (s.complete).opa = s.opa := rfl
@[simp] theorem State.complete_opb : (s.complete).opb = s.opb := rfl
@[simp] theorem State.complete_res : (s.complete).res = s.res := rfl
@[simp] theorem State.complete_statusCode : (s.complete).statusCode = successCode := rfl
@[simp] theorem State.complete_errOffset : (s.complete).errOffset = s.errOffset := rfl
@[simp] theorem State.complete_errSize : (s.complete).errSize = s.errSize := rfl
@[simp] theorem State.complete_errNeeded : (s.complete).errNeeded = s.errNeeded := rfl
@[simp] theorem State.complete_bufAddr : (s.complete).bufAddr = s.bufAddr := rfl
@[simp] theorem State.complete_pending : (s.complete).pending = s.pending := rfl
@[simp] theorem State.complete_hostLog : (s.complete).hostLog = s.hostLog := rfl
@[simp] theorem State.complete_draws : (s.complete).draws = s.draws := rfl

/-! ### Raising an error (60_exceptions.md R101, R103) -/

@[simp] theorem State.raise_inst (k : ErrorKind) (n : Nat) : (s.raise k n).inst = s.inst := rfl
@[simp] theorem State.raise_buf (k : ErrorKind) (n : Nat) : (s.raise k n).buf = s.buf := rfl
@[simp] theorem State.raise_curOff (k : ErrorKind) (n : Nat) : (s.raise k n).curOff = s.curOff := rfl
@[simp] theorem State.raise_curBit (k : ErrorKind) (n : Nat) : (s.raise k n).curBit = s.curBit := rfl
@[simp] theorem State.raise_cfg (k : ErrorKind) (n : Nat) : (s.raise k n).cfg = s.cfg := rfl
@[simp] theorem State.raise_cmd (k : ErrorKind) (n : Nat) : (s.raise k n).cmd = s.cmd := rfl
@[simp] theorem State.raise_opa (k : ErrorKind) (n : Nat) : (s.raise k n).opa = s.opa := rfl
@[simp] theorem State.raise_opb (k : ErrorKind) (n : Nat) : (s.raise k n).opb = s.opb := rfl
@[simp] theorem State.raise_res (k : ErrorKind) (n : Nat) : (s.raise k n).res = s.res := rfl
@[simp] theorem State.raise_statusCode (k : ErrorKind) (n : Nat) : (s.raise k n).statusCode = errorCode k := rfl
@[simp] theorem State.raise_errOffset (k : ErrorKind) (n : Nat) : (s.raise k n).errOffset = s.curOff := rfl
@[simp] theorem State.raise_errSize (k : ErrorKind) (n : Nat) : (s.raise k n).errSize = figure64 s.draws s.buf.size := rfl
@[simp] theorem State.raise_errNeeded (k : ErrorKind) (n : Nat) : (s.raise k n).errNeeded = figure64 (s.draws + figureDraws s.buf.size) n := rfl
@[simp] theorem State.raise_bufAddr (k : ErrorKind) (n : Nat) : (s.raise k n).bufAddr = s.bufAddr := rfl
@[simp] theorem State.raise_pending (k : ErrorKind) (n : Nat) : (s.raise k n).pending = s.pending := rfl
@[simp] theorem State.raise_hostLog (k : ErrorKind) (n : Nat) : (s.raise k n).hostLog = s.hostLog := rfl
@[simp] theorem State.raise_draws (k : ErrorKind) (n : Nat) : (s.raise k n).draws = s.draws + figureDraws s.buf.size + figureDraws n := rfl

/-! ### Advancing the cursor -/

@[simp] theorem State.advance_inst (n k : Nat) : (s.advance n k).inst = s.inst := rfl
@[simp] theorem State.advance_buf (n k : Nat) : (s.advance n k).buf = s.buf := rfl
@[simp] theorem State.advance_curOff (n k : Nat) : (s.advance n k).curOff = figure64 s.draws (s.curOff.toNat + n) := rfl
@[simp] theorem State.advance_curBit (n k : Nat) : (s.advance n k).curBit = BitVec.ofNat 3 k := rfl
@[simp] theorem State.advance_cfg (n k : Nat) : (s.advance n k).cfg = s.cfg := rfl
@[simp] theorem State.advance_cmd (n k : Nat) : (s.advance n k).cmd = s.cmd := rfl
@[simp] theorem State.advance_opa (n k : Nat) : (s.advance n k).opa = s.opa := rfl
@[simp] theorem State.advance_opb (n k : Nat) : (s.advance n k).opb = s.opb := rfl
@[simp] theorem State.advance_res (n k : Nat) : (s.advance n k).res = s.res := rfl
@[simp] theorem State.advance_statusCode (n k : Nat) : (s.advance n k).statusCode = s.statusCode := rfl
@[simp] theorem State.advance_errOffset (n k : Nat) : (s.advance n k).errOffset = s.errOffset := rfl
@[simp] theorem State.advance_errSize (n k : Nat) : (s.advance n k).errSize = s.errSize := rfl
@[simp] theorem State.advance_errNeeded (n k : Nat) : (s.advance n k).errNeeded = s.errNeeded := rfl
@[simp] theorem State.advance_bufAddr (n k : Nat) : (s.advance n k).bufAddr = s.bufAddr := rfl
@[simp] theorem State.advance_pending (n k : Nat) : (s.advance n k).pending = s.pending := rfl
@[simp] theorem State.advance_hostLog (n k : Nat) : (s.advance n k).hostLog = s.hostLog := rfl
@[simp] theorem State.advance_draws (n k : Nat) : (s.advance n k).draws = s.draws + figureDraws (s.curOff.toNat + n) := rfl

/-! ### Storing `CMD` -/

@[simp] theorem State.setCmd_inst (w : Word32) : (s.setCmd w).inst = s.inst := rfl
@[simp] theorem State.setCmd_buf (w : Word32) : (s.setCmd w).buf = s.buf := rfl
@[simp] theorem State.setCmd_curOff (w : Word32) : (s.setCmd w).curOff = s.curOff := rfl
@[simp] theorem State.setCmd_curBit (w : Word32) : (s.setCmd w).curBit = s.curBit := rfl
@[simp] theorem State.setCmd_cfg (w : Word32) : (s.setCmd w).cfg = s.cfg := rfl
@[simp] theorem State.setCmd_cmd (w : Word32) : (s.setCmd w).cmd = w := rfl
@[simp] theorem State.setCmd_opa (w : Word32) : (s.setCmd w).opa = s.opa := rfl
@[simp] theorem State.setCmd_opb (w : Word32) : (s.setCmd w).opb = s.opb := rfl
@[simp] theorem State.setCmd_res (w : Word32) : (s.setCmd w).res = s.res := rfl
@[simp] theorem State.setCmd_statusCode (w : Word32) : (s.setCmd w).statusCode = s.statusCode := rfl
@[simp] theorem State.setCmd_errOffset (w : Word32) : (s.setCmd w).errOffset = s.errOffset := rfl
@[simp] theorem State.setCmd_errSize (w : Word32) : (s.setCmd w).errSize = s.errSize := rfl
@[simp] theorem State.setCmd_errNeeded (w : Word32) : (s.setCmd w).errNeeded = s.errNeeded := rfl
@[simp] theorem State.setCmd_bufAddr (w : Word32) : (s.setCmd w).bufAddr = s.bufAddr := rfl
@[simp] theorem State.setCmd_pending (w : Word32) : (s.setCmd w).pending = s.pending := rfl
@[simp] theorem State.setCmd_hostLog (w : Word32) : (s.setCmd w).hostLog = s.hostLog := rfl
@[simp] theorem State.setCmd_draws (w : Word32) : (s.setCmd w).draws = s.draws := rfl

/-! ### Writing `OPA` -/

@[simp] theorem State.setOpa_inst (v : Word64) : (s.setOpa v).inst = s.inst := rfl
@[simp] theorem State.setOpa_buf (v : Word64) : (s.setOpa v).buf = s.buf := rfl
@[simp] theorem State.setOpa_curOff (v : Word64) : (s.setOpa v).curOff = s.curOff := rfl
@[simp] theorem State.setOpa_curBit (v : Word64) : (s.setOpa v).curBit = s.curBit := rfl
@[simp] theorem State.setOpa_cfg (v : Word64) : (s.setOpa v).cfg = s.cfg := rfl
@[simp] theorem State.setOpa_cmd (v : Word64) : (s.setOpa v).cmd = s.cmd := rfl
@[simp] theorem State.setOpa_opa (v : Word64) : (s.setOpa v).opa = v := rfl
@[simp] theorem State.setOpa_opb (v : Word64) : (s.setOpa v).opb = s.opb := rfl
@[simp] theorem State.setOpa_res (v : Word64) : (s.setOpa v).res = s.res := rfl
@[simp] theorem State.setOpa_statusCode (v : Word64) : (s.setOpa v).statusCode = s.statusCode := rfl
@[simp] theorem State.setOpa_errOffset (v : Word64) : (s.setOpa v).errOffset = s.errOffset := rfl
@[simp] theorem State.setOpa_errSize (v : Word64) : (s.setOpa v).errSize = s.errSize := rfl
@[simp] theorem State.setOpa_errNeeded (v : Word64) : (s.setOpa v).errNeeded = s.errNeeded := rfl
@[simp] theorem State.setOpa_bufAddr (v : Word64) : (s.setOpa v).bufAddr = s.bufAddr := rfl
@[simp] theorem State.setOpa_pending (v : Word64) : (s.setOpa v).pending = s.pending := rfl
@[simp] theorem State.setOpa_hostLog (v : Word64) : (s.setOpa v).hostLog = s.hostLog := rfl
@[simp] theorem State.setOpa_draws (v : Word64) : (s.setOpa v).draws = s.draws := rfl

/-! ### Writing `OPB` -/

@[simp] theorem State.setOpb_inst (v : Word64) : (s.setOpb v).inst = s.inst := rfl
@[simp] theorem State.setOpb_buf (v : Word64) : (s.setOpb v).buf = s.buf := rfl
@[simp] theorem State.setOpb_curOff (v : Word64) : (s.setOpb v).curOff = s.curOff := rfl
@[simp] theorem State.setOpb_curBit (v : Word64) : (s.setOpb v).curBit = s.curBit := rfl
@[simp] theorem State.setOpb_cfg (v : Word64) : (s.setOpb v).cfg = s.cfg := rfl
@[simp] theorem State.setOpb_cmd (v : Word64) : (s.setOpb v).cmd = s.cmd := rfl
@[simp] theorem State.setOpb_opa (v : Word64) : (s.setOpb v).opa = s.opa := rfl
@[simp] theorem State.setOpb_opb (v : Word64) : (s.setOpb v).opb = v := rfl
@[simp] theorem State.setOpb_res (v : Word64) : (s.setOpb v).res = s.res := rfl
@[simp] theorem State.setOpb_statusCode (v : Word64) : (s.setOpb v).statusCode = s.statusCode := rfl
@[simp] theorem State.setOpb_errOffset (v : Word64) : (s.setOpb v).errOffset = s.errOffset := rfl
@[simp] theorem State.setOpb_errSize (v : Word64) : (s.setOpb v).errSize = s.errSize := rfl
@[simp] theorem State.setOpb_errNeeded (v : Word64) : (s.setOpb v).errNeeded = s.errNeeded := rfl
@[simp] theorem State.setOpb_bufAddr (v : Word64) : (s.setOpb v).bufAddr = s.bufAddr := rfl
@[simp] theorem State.setOpb_pending (v : Word64) : (s.setOpb v).pending = s.pending := rfl
@[simp] theorem State.setOpb_hostLog (v : Word64) : (s.setOpb v).hostLog = s.hostLog := rfl
@[simp] theorem State.setOpb_draws (v : Word64) : (s.setOpb v).draws = s.draws := rfl

/-! ### Writing `BUF_ADDR` -/

@[simp] theorem State.setBufAddr_inst (v : Word64) : (s.setBufAddr v).inst = s.inst := rfl
@[simp] theorem State.setBufAddr_buf (v : Word64) : (s.setBufAddr v).buf = s.buf := rfl
@[simp] theorem State.setBufAddr_curOff (v : Word64) : (s.setBufAddr v).curOff = s.curOff := rfl
@[simp] theorem State.setBufAddr_curBit (v : Word64) : (s.setBufAddr v).curBit = s.curBit := rfl
@[simp] theorem State.setBufAddr_cfg (v : Word64) : (s.setBufAddr v).cfg = s.cfg := rfl
@[simp] theorem State.setBufAddr_cmd (v : Word64) : (s.setBufAddr v).cmd = s.cmd := rfl
@[simp] theorem State.setBufAddr_opa (v : Word64) : (s.setBufAddr v).opa = s.opa := rfl
@[simp] theorem State.setBufAddr_opb (v : Word64) : (s.setBufAddr v).opb = s.opb := rfl
@[simp] theorem State.setBufAddr_res (v : Word64) : (s.setBufAddr v).res = s.res := rfl
@[simp] theorem State.setBufAddr_statusCode (v : Word64) : (s.setBufAddr v).statusCode = s.statusCode := rfl
@[simp] theorem State.setBufAddr_errOffset (v : Word64) : (s.setBufAddr v).errOffset = s.errOffset := rfl
@[simp] theorem State.setBufAddr_errSize (v : Word64) : (s.setBufAddr v).errSize = s.errSize := rfl
@[simp] theorem State.setBufAddr_errNeeded (v : Word64) : (s.setBufAddr v).errNeeded = s.errNeeded := rfl
@[simp] theorem State.setBufAddr_bufAddr (v : Word64) : (s.setBufAddr v).bufAddr = v := rfl
@[simp] theorem State.setBufAddr_pending (v : Word64) : (s.setBufAddr v).pending = s.pending := rfl
@[simp] theorem State.setBufAddr_hostLog (v : Word64) : (s.setBufAddr v).hostLog = s.hostLog := rfl
@[simp] theorem State.setBufAddr_draws (v : Word64) : (s.setBufAddr v).draws = s.draws := rfl

/-! ### Taking an interaction -/

@[simp] theorem State.setPending_inst (p : List HostAccess) : (s.setPending p).inst = s.inst := rfl
@[simp] theorem State.setPending_buf (p : List HostAccess) : (s.setPending p).buf = s.buf := rfl
@[simp] theorem State.setPending_curOff (p : List HostAccess) : (s.setPending p).curOff = s.curOff := rfl
@[simp] theorem State.setPending_curBit (p : List HostAccess) : (s.setPending p).curBit = s.curBit := rfl
@[simp] theorem State.setPending_cfg (p : List HostAccess) : (s.setPending p).cfg = s.cfg := rfl
@[simp] theorem State.setPending_cmd (p : List HostAccess) : (s.setPending p).cmd = s.cmd := rfl
@[simp] theorem State.setPending_opa (p : List HostAccess) : (s.setPending p).opa = s.opa := rfl
@[simp] theorem State.setPending_opb (p : List HostAccess) : (s.setPending p).opb = s.opb := rfl
@[simp] theorem State.setPending_res (p : List HostAccess) : (s.setPending p).res = s.res := rfl
@[simp] theorem State.setPending_statusCode (p : List HostAccess) : (s.setPending p).statusCode = s.statusCode := rfl
@[simp] theorem State.setPending_errOffset (p : List HostAccess) : (s.setPending p).errOffset = s.errOffset := rfl
@[simp] theorem State.setPending_errSize (p : List HostAccess) : (s.setPending p).errSize = s.errSize := rfl
@[simp] theorem State.setPending_errNeeded (p : List HostAccess) : (s.setPending p).errNeeded = s.errNeeded := rfl
@[simp] theorem State.setPending_bufAddr (p : List HostAccess) : (s.setPending p).bufAddr = s.bufAddr := rfl
@[simp] theorem State.setPending_pending (p : List HostAccess) : (s.setPending p).pending = p := rfl
@[simp] theorem State.setPending_hostLog (p : List HostAccess) : (s.setPending p).hostLog = s.hostLog := rfl
@[simp] theorem State.setPending_draws (p : List HostAccess) : (s.setPending p).draws = s.draws := rfl

/-! ### Recording an event -/

@[simp] theorem State.logEvent_inst (ev : HostEvent) (k : Nat) : (s.logEvent ev k).inst = s.inst := rfl
@[simp] theorem State.logEvent_buf (ev : HostEvent) (k : Nat) : (s.logEvent ev k).buf = s.buf := rfl
@[simp] theorem State.logEvent_curOff (ev : HostEvent) (k : Nat) : (s.logEvent ev k).curOff = s.curOff := rfl
@[simp] theorem State.logEvent_curBit (ev : HostEvent) (k : Nat) : (s.logEvent ev k).curBit = s.curBit := rfl
@[simp] theorem State.logEvent_cfg (ev : HostEvent) (k : Nat) : (s.logEvent ev k).cfg = s.cfg := rfl
@[simp] theorem State.logEvent_cmd (ev : HostEvent) (k : Nat) : (s.logEvent ev k).cmd = s.cmd := rfl
@[simp] theorem State.logEvent_opa (ev : HostEvent) (k : Nat) : (s.logEvent ev k).opa = s.opa := rfl
@[simp] theorem State.logEvent_opb (ev : HostEvent) (k : Nat) : (s.logEvent ev k).opb = s.opb := rfl
@[simp] theorem State.logEvent_res (ev : HostEvent) (k : Nat) : (s.logEvent ev k).res = s.res := rfl
@[simp] theorem State.logEvent_statusCode (ev : HostEvent) (k : Nat) : (s.logEvent ev k).statusCode = s.statusCode := rfl
@[simp] theorem State.logEvent_errOffset (ev : HostEvent) (k : Nat) : (s.logEvent ev k).errOffset = s.errOffset := rfl
@[simp] theorem State.logEvent_errSize (ev : HostEvent) (k : Nat) : (s.logEvent ev k).errSize = s.errSize := rfl
@[simp] theorem State.logEvent_errNeeded (ev : HostEvent) (k : Nat) : (s.logEvent ev k).errNeeded = s.errNeeded := rfl
@[simp] theorem State.logEvent_bufAddr (ev : HostEvent) (k : Nat) : (s.logEvent ev k).bufAddr = s.bufAddr := rfl
@[simp] theorem State.logEvent_pending (ev : HostEvent) (k : Nat) : (s.logEvent ev k).pending = s.pending := rfl
@[simp] theorem State.logEvent_hostLog (ev : HostEvent) (k : Nat) : (s.logEvent ev k).hostLog = ev :: s.hostLog := rfl
@[simp] theorem State.logEvent_draws (ev : HostEvent) (k : Nat) : (s.logEvent ev k).draws = s.draws + k := rfl

/-! ### Construction (70_reset_and_hazards.md R112) -/

@[simp] theorem State.construct_inst (a : ResetArgs) : (s.construct a).inst = s.inst := rfl
@[simp] theorem State.construct_buf (a : ResetArgs) : (s.construct a).buf = Buffer.ofBytes a.bytes := rfl
@[simp] theorem State.construct_curOff (a : ResetArgs) : (s.construct a).curOff = BitVec.ofNat 64 (a.position.toNat / 8) := rfl
@[simp] theorem State.construct_curBit (a : ResetArgs) : (s.construct a).curBit = BitVec.ofNat 3 (a.position.toNat % 8) := rfl
@[simp] theorem State.construct_cfg (a : ResetArgs) : (s.construct a).cfg = ⟨a.endianness, a.strict, BitVec.ofInt 64 a.extendChunkSize, a.enforceWideInt, a.errorDump⟩ := rfl
@[simp] theorem State.construct_cmd (a : ResetArgs) : (s.construct a).cmd = 0 := rfl
@[simp] theorem State.construct_opa (a : ResetArgs) : (s.construct a).opa = 0 := rfl
@[simp] theorem State.construct_opb (a : ResetArgs) : (s.construct a).opb = 0 := rfl
@[simp] theorem State.construct_res (a : ResetArgs) : (s.construct a).res = 0 := rfl
@[simp] theorem State.construct_statusCode (a : ResetArgs) : (s.construct a).statusCode = 0 := rfl
@[simp] theorem State.construct_errOffset (a : ResetArgs) : (s.construct a).errOffset = 0 := rfl
@[simp] theorem State.construct_errSize (a : ResetArgs) : (s.construct a).errSize = 0 := rfl
@[simp] theorem State.construct_errNeeded (a : ResetArgs) : (s.construct a).errNeeded = 0 := rfl
@[simp] theorem State.construct_bufAddr (a : ResetArgs) : (s.construct a).bufAddr = 0 := rfl
@[simp] theorem State.construct_pending (a : ResetArgs) : (s.construct a).pending = s.pending := rfl
@[simp] theorem State.construct_hostLog (a : ResetArgs) : (s.construct a).hostLog = s.hostLog := rfl
@[simp] theorem State.construct_draws (a : ResetArgs) : (s.construct a).draws = s.draws := rfl

end Sys2Proof.Machine
end

