-- ==== Sys2Proof/Laws/Memory.lean ====
section
/-!
SUPPORT. The laws of memory: what a read after a write gives, and that every operation keeps the canonical form.
-/

namespace Sys2Proof.Machine

open Sys2Proof

/-! ### Reading one byte -/

@[simp] theorem Memory.read_nil (a : Nat) : Memory.read [] a = 0 := rfl

theorem Memory.read_cons (c : Host.Cell) (m : Memory) (a : Nat) :
    Memory.read (c :: m) a = if c.1 = a then c.2 else Memory.read m a := rfl

theorem Memory.read_unlisted {m : Memory} {a : Nat} (h : ∀ c ∈ m, c.1 ≠ a) : m.read a = 0 := by
  induction m with
  | nil => rfl
  | cons c m ih =>
    rw [Memory.read_cons, if_neg (h c (by simp)), ih fun d hd => h d (by simp [hd])]

theorem Memory.erase_unlisted (m : Memory) (a : Nat) : ∀ c ∈ m.erase a, c.1 ≠ a := by
  intro c hc
  simpa using (List.mem_filter.mp hc).2

theorem Memory.read_erase_ne (m : Memory) {a a' : Nat} (h : a' ≠ a) : (m.erase a).read a' = m.read a' := by
  induction m with
  | nil => rfl
  | cons c m ih =>
    rw [Memory.erase] at ih ⊢
    by_cases hc : c.1 = a
    · rw [List.filter_cons_of_neg (by simpa using hc), ih, Memory.read_cons, if_neg (by omega)]
    · rw [List.filter_cons_of_pos (by simpa using hc), Memory.read_cons, Memory.read_cons, ih]

theorem Memory.read_insert_self {m : Memory} {a : Nat} (b : Byte) (h : ∀ c ∈ m, c.1 ≠ a) :
    (Memory.insert a b m).read a = b := by
  induction m with
  | nil => simp [Memory.insert, Memory.read_cons]
  | cons c m ih =>
    rw [Memory.insert]
    split
    · simp [Memory.read_cons]
    · rw [Memory.read_cons, if_neg (h c (by simp)), ih fun d hd => h d (by simp [hd])]

theorem Memory.read_insert_ne (m : Memory) (b : Byte) {a a' : Nat} (h : a' ≠ a) :
    (Memory.insert a b m).read a' = m.read a' := by
  induction m with
  | nil => simp [Memory.insert, Memory.read_cons, Ne.symm h]
  | cons c m ih =>
    rw [Memory.insert]
    split
    · rw [Memory.read_cons, if_neg (Ne.symm h)]
    · rw [Memory.read_cons, Memory.read_cons, ih]

/-- A read after a write: the byte written at its address, every other byte as before. -/
theorem Memory.read_write (m : Memory) (a : Nat) (b : Byte) (a' : Nat) :
    (m.write a b).read a' = if a' = a then b else m.read a' := by
  rw [Memory.write]
  by_cases h : a' = a
  · subst h
    rw [if_pos rfl]
    split
    · next hb => rw [Memory.read_unlisted (m.erase_unlisted a'), hb, unlistedByte]
    · exact Memory.read_insert_self b (m.erase_unlisted a')
  · rw [if_neg h]
    split
    · exact m.read_erase_ne h
    · rw [Memory.read_insert_ne _ _ h, m.read_erase_ne h]

@[simp] theorem Memory.read_write_self (m : Memory) (a : Nat) (b : Byte) : (m.write a b).read a = b := by
  rw [Memory.read_write, if_pos rfl]

theorem Memory.read_write_ne (m : Memory) (b : Byte) {a a' : Nat} (h : a' ≠ a) :
    (m.write a b).read a' = m.read a' := by
  rw [Memory.read_write, if_neg h]

/-! ### Reading and writing byte sequences -/

@[simp] theorem Memory.length_readBytes (m : Memory) (addr n : Nat) : (m.readBytes addr n).length = n := by
  induction n generalizing addr with
  | zero => rfl
  | succ n ih => simp [Memory.readBytes, ih]

theorem Memory.getElem_readBytes (m : Memory) (addr n i : Nat) (h : i < (m.readBytes addr n).length) :
    (m.readBytes addr n)[i] = m.read (addr + i) := by
  induction n generalizing addr i with
  | zero => simp at h
  | succ n ih =>
    cases i with
    | zero => rfl
    | succ i =>
      simp only [Memory.readBytes, List.getElem_cons_succ]
      rw [ih, Nat.add_assoc, Nat.add_comm 1 i]

/-- Byte sequences that agree byte by byte are read alike. -/
theorem Memory.readBytes_congr {m m' : Memory} {addr n : Nat}
    (h : ∀ a, addr ≤ a → a < addr + n → m.read a = m'.read a) : m.readBytes addr n = m'.readBytes addr n := by
  induction n generalizing addr with
  | zero => rfl
  | succ n ih =>
    simp only [Memory.readBytes]
    rw [h addr (by omega) (by omega), ih fun a h1 h2 => h a (by omega) (by omega)]

theorem Memory.read_writeBytes_outside (m : Memory) (bytes : List Byte) (addr : Nat) {a : Nat}
    (h : a < addr ∨ addr + bytes.length ≤ a) : (m.writeBytes addr bytes).read a = m.read a := by
  induction bytes generalizing m addr with
  | nil => rfl
  | cons b bytes ih =>
    simp only [List.length_cons] at h
    rw [Memory.writeBytes, ih _ _ (by omega), Memory.read_write_ne _ _ (by omega)]

theorem Memory.read_writeBytes_inside (m : Memory) (bytes : List Byte) (addr i : Nat) (h : i < bytes.length) :
    (m.writeBytes addr bytes).read (addr + i) = bytes[i] := by
  induction bytes generalizing m addr i with
  | nil => simp at h
  | cons b bytes ih =>
    rw [Memory.writeBytes]
    cases i with
    | zero => rw [Memory.read_writeBytes_outside _ _ _ (by omega)]; simp
    | succ i =>
      have := ih (m.write addr b) (addr + 1) i (by simpa using h)
      rw [show addr + (i + 1) = addr + 1 + i by omega, this]; rfl

/-- `MemRead` after `MemWrite` of the same bytes. -/
theorem Memory.readBytes_writeBytes (m : Memory) (addr : Nat) (bytes : List Byte) :
    (m.writeBytes addr bytes).readBytes addr bytes.length = bytes := by
  apply List.ext_getElem (by simp)
  intro i h1 h2
  rw [Memory.getElem_readBytes, Memory.read_writeBytes_inside _ _ _ _ h2]

/-! ### The canonical form -/

theorem Memory.rising_iff (m : Memory) : m.rising = true ↔ m.Pairwise (fun c d => c.1 < d.1) := by
  induction m with
  | nil => simp [Memory.rising]
  | cons c m ih =>
    cases m with
    | nil => simp [Memory.rising]
    | cons d m =>
      rw [Memory.rising, Bool.and_eq_true, ih, decide_eq_true_eq, List.pairwise_cons (a := c)]
      constructor
      · rintro ⟨h, hp⟩
        refine ⟨fun x hx => ?_, hp⟩
        rcases List.mem_cons.mp hx with rfl | hx
        · exact h
        · exact Nat.lt_trans h ((List.pairwise_cons.mp hp).1 x hx)
      · rintro ⟨h, hp⟩
        exact ⟨h d (by simp), hp⟩

theorem Memory.wf_iff (m : Memory) :
    m.wf = true ↔ m.Pairwise (fun c d => c.1 < d.1) ∧ ∀ c ∈ m, c.2 ≠ 0 := by
  rw [Memory.wf, Bool.and_eq_true, Memory.rising_iff, List.all_eq_true]
  simp only [decide_eq_true_eq]
  exact Iff.rfl

theorem Memory.mem_insert {m : Memory} {a : Nat} {b : Byte} {c : Host.Cell} (h : c ∈ Memory.insert a b m) :
    c = (a, b) ∨ c ∈ m := by
  induction m with
  | nil => simpa [Memory.insert] using h
  | cons d m ih =>
    rw [Memory.insert] at h
    split at h
    · simpa using h
    · rcases List.mem_cons.mp h with rfl | h
      · exact .inr (by simp)
      · rcases ih h with h | h
        · exact .inl h
        · exact .inr (by simp [h])

theorem Memory.mem_write {m : Memory} {a : Nat} {b : Byte} {c : Host.Cell} (h : c ∈ m.write a b) :
    (c = (a, b) ∧ b ≠ 0) ∨ (c ∈ m ∧ c.1 ≠ a) := by
  have erased {d : Host.Cell} (hd : d ∈ m.erase a) : d ∈ m ∧ d.1 ≠ a :=
    ⟨(List.mem_filter.mp hd).1, m.erase_unlisted a d hd⟩
  rw [Memory.write] at h
  split at h
  · exact .inr (erased h)
  · next hb =>
    rcases Memory.mem_insert h with h | h
    · exact .inl ⟨h, hb⟩
    · exact .inr (erased h)

theorem Memory.insert_pairwise {m : Memory} {a : Nat} (b : Byte) (hm : m.Pairwise (fun c d => c.1 < d.1))
    (ha : ∀ c ∈ m, c.1 ≠ a) : (Memory.insert a b m).Pairwise (fun c d => c.1 < d.1) := by
  induction m with
  | nil => simp [Memory.insert]
  | cons c m ih =>
    obtain ⟨h1, h2⟩ := List.pairwise_cons.mp hm
    rw [Memory.insert]
    split
    · next hlt =>
      refine List.pairwise_cons.mpr ⟨fun d hd => ?_, hm⟩
      rcases List.mem_cons.mp hd with rfl | hd
      · exact hlt
      · exact Nat.lt_trans hlt (h1 d hd)
    · next hge =>
      refine List.pairwise_cons.mpr ⟨fun d hd => ?_, ih h2 fun d hd => ha d (by simp [hd])⟩
      rcases Memory.mem_insert hd with rfl | hd
      · have := ha c (by simp)
        simp only
        omega
      · exact h1 d hd

/-- A write keeps the canonical form. -/
theorem Memory.wf_write {m : Memory} (h : m.wf = true) (a : Nat) (b : Byte) : (m.write a b).wf = true := by
  rw [Memory.wf_iff] at h ⊢
  refine ⟨?_, fun c hc => ?_⟩
  · have he : (m.erase a).Pairwise (fun c d => c.1 < d.1) := h.1.filter _
    rw [Memory.write]
    split
    · exact he
    · exact Memory.insert_pairwise b he (m.erase_unlisted a)
  · rcases Memory.mem_write hc with ⟨rfl, hb⟩ | ⟨hc, -⟩
    · exact hb
    · exact h.2 c hc

/-- A write below a bound keeps every address below it. -/
theorem Memory.below_write {m : Memory} {n a : Nat} (b : Byte) (h : ∀ c ∈ m, c.1 < n) (ha : a < n) :
    ∀ c ∈ m.write a b, c.1 < n := by
  intro c hc
  rcases Memory.mem_write hc with ⟨rfl, -⟩ | ⟨hc, -⟩
  · exact ha
  · exact h c hc

theorem Memory.wf_writeBytes {m : Memory} (h : m.wf = true) (addr : Nat) (bytes : List Byte) :
    (m.writeBytes addr bytes).wf = true := by
  induction bytes generalizing m addr with
  | nil => exact h
  | cons b bytes ih => exact ih (Memory.wf_write h addr b) (addr + 1)

theorem Memory.below_writeBytes {m : Memory} {n addr : Nat} (bytes : List Byte) (h : ∀ c ∈ m, c.1 < n)
    (ha : addr + bytes.length ≤ n) : ∀ c ∈ m.writeBytes addr bytes, c.1 < n := by
  induction bytes generalizing m addr with
  | nil => exact h
  | cons b bytes ih =>
    simp only [List.length_cons] at ha
    exact ih (Memory.below_write b h (by omega)) (by omega)

/-- The bytes of a canonical memory at and above a bound on its addresses are 0. -/
theorem Memory.read_above {m : Memory} {n a : Nat} (h : ∀ c ∈ m, c.1 < n) (ha : n ≤ a) : m.read a = 0 :=
  Memory.read_unlisted fun c hc => Nat.ne_of_lt (Nat.lt_of_lt_of_le (h c hc) ha)

theorem Buffer.wf_iff (b : Buffer) : b.wf = true ↔ Memory.wf b.cells = true ∧ ∀ c ∈ b.cells, c.1 < b.size := by
  simp [Buffer.wf]

/-- Growth keeps the canonical form. -/
theorem Buffer.wf_grow {b : Buffer} (h : b.wf = true) (k : Nat) : (b.grow k).wf = true := by
  rw [Buffer.wf_iff] at h ⊢
  exact ⟨h.1, fun c hc => Nat.lt_of_lt_of_le (h.2 c hc) (Nat.le_add_right _ _)⟩

/-- A byte write inside the buffer keeps the canonical form. -/
theorem Buffer.wf_writeBytes {b : Buffer} (h : b.wf = true) {addr : Nat} {bytes : List Byte}
    (ha : addr + bytes.length ≤ b.size) : Buffer.wf ⟨Memory.writeBytes b.cells addr bytes, b.size⟩ = true := by
  rw [Buffer.wf_iff] at h ⊢
  exact ⟨Memory.wf_writeBytes h.1 addr bytes, Memory.below_writeBytes bytes h.2 ha⟩

/-- The buffer of a byte sequence is canonical. -/
theorem Buffer.wf_ofBytes (bytes : List Byte) : (Buffer.ofBytes bytes).wf = true := by
  have h : Buffer.wf ⟨[], bytes.length⟩ = true := rfl
  exact Buffer.wf_writeBytes h (by simp)

/-! ### Bit fields -/

theorem chunkWidth_pos {n i q : Nat} (h : i < n) : 0 < chunkWidth n i q := by
  unfold chunkWidth
  omega

/-- Writing a field keeps the canonical form. -/
theorem writeLoop_wf (e : Endian) (p n fuel q i : Nat) {m : Memory} (h : m.wf = true) :
    (writeLoop e p n fuel q i m).wf = true := by
  induction fuel generalizing q i m with
  | zero => exact h
  | succ fuel ih =>
    rw [writeLoop]
    split
    · exact ih _ _ (Memory.wf_write h _ _)
    · exact h

/-- Writing a field stays inside the bytes it touches. -/
theorem writeLoop_below (e : Endian) (p n fuel q i size : Nat) {m : Memory} (h : ∀ c ∈ m, c.1 < size)
    (hq : q + (n - i) ≤ size * 8) : ∀ c ∈ writeLoop e p n fuel q i m, c.1 < size := by
  induction fuel generalizing q i m with
  | zero => exact h
  | succ fuel ih =>
    rw [writeLoop]
    split
    · next hi =>
      have hw : chunkWidth n i q ≤ n - i := Nat.min_le_left _ _
      exact ih _ _ (Memory.below_write _ h (by omega)) (by omega)
    · exact h

/-- A field leaves every byte alone that none of its stream positions is in. -/
theorem writeLoop_outside (e : Endian) (p n fuel q i : Nat) (m : Memory) {a : Nat}
    (h : a < q / 8 ∨ q + (n - i) ≤ a * 8) : (writeLoop e p n fuel q i m).read a = m.read a := by
  induction fuel generalizing q i m with
  | zero => rfl
  | succ fuel ih =>
    rw [writeLoop]
    split
    · next hi =>
      have hw : chunkWidth n i q ≤ n - i := Nat.min_le_left _ _
      rw [ih _ _ _ (by omega), Memory.read_write_ne _ _ (by omega)]
    · rfl

end Sys2Proof.Machine
end

