-- ==== Sys2Proof/Laws/Ops.lean ====
section
/-!
SUPPORT. What each shared operation can do, said once: figures, errors, cursor moves, the capacity check, bit fields,
byte layouts, float access and the host's accesses.
-/

namespace Sys2Proof.Machine

open Sys2Proof

/-! ### Figures in 64-bit registers -/

theorem figure64_of_lt (draw : Nat) {x : Nat} (h : x < 2 ^ 64) : figure64 draw x = BitVec.ofNat 64 x := if_pos h

theorem figureDraws_of_lt {x : Nat} (h : x < 2 ^ 64) : figureDraws x = 0 := if_pos h

theorem figure64_toNat (draw : Nat) {x : Nat} (h : x < 2 ^ 64) : (figure64 draw x).toNat = x := by
  rw [figure64_of_lt draw h, BitVec.toNat_ofNat, Nat.mod_eq_of_lt h]

@[simp] theorem figureDraws_zero : figureDraws 0 = 0 := rfl

/-! ### The cursor -/

@[simp] theorem State.position_setBuf (b : Buffer) (s : State) : (s.setBuf b).position = s.position := rfl

@[simp] theorem State.opaInt_setBuf (b : Buffer) (s : State) : (s.setBuf b).opaInt = s.opaInt := rfl

@[simp] theorem effOrder_setBuf (e : OrderSel) (b : Buffer) (s : State) : effOrder e (s.setBuf b) = effOrder e s := by
  cases e <;> rfl

@[simp] theorem State.fieldBytes_setBuf (n : Nat) (b : Buffer) (s : State) :
    (s.setBuf b).fieldBytes n = s.fieldBytes n := rfl

/-- `moveCursor` raises `InvalidArgument` outside `[0, 2^67)` and else sets the cursor. -/
theorem moveCursor_cases (a : Int) (s : State) :
    ((a < 0 ∨ 2 ^ 67 ≤ a) ∧ moveCursor a s = .next (s.raise .invalidArgument 0)) ∨
    (0 ≤ a ∧ a < 2 ^ 67 ∧
      moveCursor a s =
        .next (s.setCursor (BitVec.ofNat 64 (a.toNat / 8)) (BitVec.ofNat 3 (a.toNat % 8))).complete) := by
  by_cases h : a < 0 ∨ 2 ^ 67 ≤ a
  · exact .inl ⟨h, if_pos h⟩
  · exact .inr ⟨by omega, by omega, if_neg h⟩

/-- A position below `2^67` is what the cursor set from it holds (10_state.md R12, R13). -/
theorem position_setCursor {a : Nat} (h : a < 2 ^ 67) (s : State) :
    (s.setCursor (BitVec.ofNat 64 (a / 8)) (BitVec.ofNat 3 (a % 8))).position = a := by
  simp only [State.position, State.setCursor_curOff, State.setCursor_curBit, BitVec.toNat_ofNat]
  rw [Nat.mod_eq_of_lt (a := a / 8) (by omega), Nat.mod_eq_of_lt (a := a % 8) (by omega)]
  omega

/-- `ALIGN` by 0 (40_cursor.md R65). -/
theorem execAlign_zero {s : State} (h : s.opa.toNat = 0) : execAlign s = .next (s.raise .invalidArgument 0) := if_pos h

/-- `ALIGN` by another `n` ends as a cursor move (40_cursor.md R65). -/
theorem execAlign_ne_zero {s : State} (h : s.opa.toNat ≠ 0) :
    execAlign s =
      moveCursor (s.position + (((s.opa.toNat - s.curOff.toNat % s.opa.toNat) % s.opa.toNat : Nat) : Int) * 8) s :=
  if_neg h

/-- `ALIGNREV` by 0 (40_cursor.md R66). -/
theorem execAlignrev_zero {s : State} (h : s.opa.toNat = 0) : execAlignrev s = .next (s.raise .invalidArgument 0) :=
  if_pos h

/-- `ALIGNREV` by another `n` ends as a cursor move (40_cursor.md R66). -/
theorem execAlignrev_ne_zero {s : State} (h : s.opa.toNat ≠ 0) :
    execAlignrev s = moveCursor (s.position - ((s.curOff.toNat % s.opa.toNat : Nat) : Int) * 8) s :=
  if_neg h

/-! ### Capacity -/

/-- What `ensureCapacity` can do (20_memory.md R36): keep the buffer, grow it, or answer none. -/
theorem ensureCapacity_cases (needed : Nat) (s : State) :
    (needed ≤ s.buf.size ∧ ensureCapacity needed s = some s.buf) ∨
    (s.buf.size < needed ∧ s.cfg.strict = false ∧
      s.inst.fits (s.buf.size + growthOf s.cfg.chunk.toNat (needed - s.buf.size)) = true ∧
      ensureCapacity needed s = some (s.buf.grow (growthOf s.cfg.chunk.toNat (needed - s.buf.size)))) ∨
    (s.buf.size < needed ∧
      (s.cfg.strict = true ∨
        s.inst.fits (s.buf.size + growthOf s.cfg.chunk.toNat (needed - s.buf.size)) = false) ∧
      ensureCapacity needed s = none) := by
  rw [ensureCapacity]
  by_cases h : needed ≤ s.buf.size
  · exact .inl ⟨h, if_pos h⟩
  · rw [if_neg h]
    cases hs : s.cfg.strict
    · cases hf : s.inst.fits (s.buf.size + growthOf s.cfg.chunk.toNat (needed - s.buf.size))
      · exact .inr (.inr ⟨by omega, .inr rfl, by simp [hf]⟩)
      · exact .inr (.inl ⟨by omega, rfl, rfl, by simp [hf]⟩)
    · exact .inr (.inr ⟨by omega, .inl rfl, by simp⟩)

theorem ceilDiv_mul_ge (a : Nat) {b : Nat} (h : 0 < b) : a ≤ b * ceilDiv a b := by
  rw [ceilDiv]
  have := Nat.div_add_mod (a + (b - 1)) b
  have := Nat.mod_lt (a + (b - 1)) h
  omega

/-- The growth covers the deficit. -/
theorem le_growthOf (chunk deficit : Nat) : deficit ≤ growthOf chunk deficit := by
  rw [growthOf]
  split
  · exact Nat.le_refl _
  · exact ceilDiv_mul_ge deficit (by omega)

/-- A buffer that the capacity check answers has the bytes asked for, and the old bytes. -/
theorem ensureCapacity_some {needed : Nat} {s : State} {b : Buffer} (h : ensureCapacity needed s = some b) :
    needed ≤ b.size ∧ s.buf.size ≤ b.size ∧ b.cells = s.buf.cells := by
  rcases ensureCapacity_cases needed s with ⟨hn, he⟩ | ⟨hn, -, -, he⟩ | ⟨-, -, he⟩ <;> rw [he] at h
  · obtain rfl := Option.some.inj h
    exact ⟨hn, Nat.le_refl _, rfl⟩
  · obtain rfl := Option.some.inj h
    have := le_growthOf s.cfg.chunk.toNat (needed - s.buf.size)
    exact ⟨by simp only [Buffer.grow]; omega, Nat.le_add_right _ _, rfl⟩
  · cases h

/-- What a buffer command does with its capacity check: it raises `OutOfBounds`, or goes on. -/
theorem withCapacity_cases (needed : Nat) (s : State) (go : State → Result) :
    (ensureCapacity needed s = none ∧ withCapacity needed s go = .next (s.raise .outOfBounds needed)) ∨
    (∃ b, ensureCapacity needed s = some b ∧ withCapacity needed s go = go (s.setBuf b)) := by
  rw [withCapacity]
  cases h : ensureCapacity needed s with
  | none => exact .inl ⟨rfl, rfl⟩
  | some b => exact .inr ⟨b, rfl, rfl⟩

theorem within_of_le {addr count : Nat} {s : State} (h : addr + count ≤ s.buf.size) (go : Result) :
    within addr count s go = go := if_pos (by simpa [Buffer.has] using h)

theorem State.fieldNeeded_eq (n : Nat) (s : State) : s.fieldNeeded n = s.curOff.toNat + s.fieldBytes n := by
  simp [State.fieldNeeded, State.fieldBytes, neededBytes]

theorem State.floatNeeded_eq (w : Nat) (s : State) : s.floatNeeded w = s.curOff.toNat + w := by
  simp [State.floatNeeded, neededBytes, ceilDiv]

/-! ### Bit commands -/

/-- What `WRBITS` does after its argument checks (41_bitcodec.md R75): `OutOfBounds`, or the field written and the
cursor advanced. -/
theorem execWrbits_cases {n : Nat} {u : Signedness} (e : OrderSel) {s : State} (h1 : 1 ≤ n) (h32 : n ≤ 32)
    (hr : inRange s.opaInt n u = true) :
    (ensureCapacity (s.fieldNeeded n) s = none ∧
      execWrbits n u e s = .next (s.raise .outOfBounds (s.fieldNeeded n))) ∨
    (∃ b, ensureCapacity (s.fieldNeeded n) s = some b ∧
      execWrbits n u e s =
        .next (((s.setBuf b).setCells
          (writeField (effOrder e s) (fieldPattern s.opaInt n) n s.position b.cells)).advanceBits n).complete) := by
  rw [execWrbits, if_neg (by omega), if_neg (by simp [hr])]
  rcases withCapacity_cases (s.fieldNeeded n) s _ with ⟨hc, he⟩ | ⟨b, hc, he⟩
  · exact .inl ⟨hc, he⟩
  · refine .inr ⟨b, hc, ?_⟩
    have hb := (ensureCapacity_some hc).1
    rw [State.fieldNeeded_eq] at hb
    rw [he, within_of_le (by simpa using hb)]
    simp

/-- What `RDBITS` of 1 to 32 bits does (41_bitcodec.md R76): `OutOfBounds`, or the field read and the cursor
advanced. -/
theorem execRdbits_cases {n : Nat} (u : Signedness) (e : OrderSel) {s : State} (h1 : 1 ≤ n) (h32 : n ≤ 32) :
    (ensureCapacity (s.fieldNeeded n) s = none ∧
      execRdbits n u e s = .next (s.raise .outOfBounds (s.fieldNeeded n))) ∨
    (∃ b, ensureCapacity (s.fieldNeeded n) s = some b ∧
      execRdbits n u e s =
        .next (((s.setBuf b).setRes
          (extendField (readField (effOrder e s) n s.position b.cells) n u)).advanceBits n).complete) := by
  rw [execRdbits, if_neg (by omega), if_neg (by omega)]
  rcases withCapacity_cases (s.fieldNeeded n) s _ with ⟨hc, he⟩ | ⟨b, hc, he⟩
  · exact .inl ⟨hc, he⟩
  · refine .inr ⟨b, hc, ?_⟩
    have hb := (ensureCapacity_some hc).1
    rw [State.fieldNeeded_eq] at hb
    rw [he, within_of_le (by simpa using hb)]
    simp

/-! ### Byte layouts -/

@[simp] theorem length_bytesLE (p w : Nat) : (bytesLE p w).length = w := by
  induction w generalizing p with
  | zero => rfl
  | succ w ih => simp [bytesLE, ih]

@[simp] theorem length_layoutBytes (e : Endian) (p w : Nat) : (layoutBytes e p w).length = w := by
  cases e <;> simp [layoutBytes]

theorem patternLE_bytesLE (p w : Nat) : patternLE (bytesLE p w) = p % 256 ^ w := by
  induction w generalizing p with
  | zero => simp [bytesLE, patternLE, Nat.mod_one]
  | succ w ih =>
    have h8 : (BitVec.ofNat 8 p).toNat = p % 256 := rfl
    rw [bytesLE, patternLE, ih, h8, Nat.pow_succ, Nat.mul_comm, Nat.mul_comm (256 ^ w) 256, Nat.mod_mul]
    omega

/-- Gathering a layout gives the pattern back. -/
theorem gatherBytes_layoutBytes (e : Endian) (p w : Nat) : gatherBytes e (layoutBytes e p w) = p % 256 ^ w := by
  cases e <;> simp [gatherBytes, layoutBytes, patternLE_bytesLE]

/-! ### Float commands -/

/-- What a float write does (42_float.md R89): `OutOfBounds`, or the bytes written and the cursor advanced. -/
theorem floatWrite_cases (w p : Nat) (e : OrderSel) (s : State) :
    (ensureCapacity (s.floatNeeded w) s = none ∧
      floatWrite w p e s = .next (s.raise .outOfBounds (s.floatNeeded w))) ∨
    (∃ b, ensureCapacity (s.floatNeeded w) s = some b ∧
      floatWrite w p e s =
        .next (((s.setBuf b).setCells
          (Memory.writeBytes b.cells s.curOff.toNat (layoutBytes (effOrder e s) p w))).advance w 0).complete) := by
  rw [floatWrite]
  rcases withCapacity_cases (s.floatNeeded w) s _ with ⟨hc, he⟩ | ⟨b, hc, he⟩
  · exact .inl ⟨hc, he⟩
  · refine .inr ⟨b, hc, ?_⟩
    have hb := (ensureCapacity_some hc).1
    rw [State.floatNeeded_eq] at hb
    rw [he, within_of_le (by simpa using hb)]
    simp

/-- What a float read does (42_float.md R89): `OutOfBounds`, or the bytes decoded into `RES` and the cursor
advanced. -/
theorem floatRead_cases (w : Nat) (dec : Nat → Word64) (e : OrderSel) (s : State) :
    (ensureCapacity (s.floatNeeded w) s = none ∧
      floatRead w dec e s = .next (s.raise .outOfBounds (s.floatNeeded w))) ∨
    (∃ b, ensureCapacity (s.floatNeeded w) s = some b ∧
      floatRead w dec e s =
        .next (((s.setBuf b).setRes
          (dec (gatherBytes (effOrder e s) (Memory.readBytes b.cells s.curOff.toNat w)))).advance w 0).complete) := by
  rw [floatRead]
  rcases withCapacity_cases (s.floatNeeded w) s _ with ⟨hc, he⟩ | ⟨b, hc, he⟩
  · exact .inl ⟨hc, he⟩
  · refine .inr ⟨b, hc, ?_⟩
    have hb := (ensureCapacity_some hc).1
    rw [State.floatNeeded_eq] at hb
    rw [he, within_of_le (by simpa using hb)]
    simp

/-! ### The host -/

/-- What a write to `CMD` does: the decoded word's effect, recorded. -/
theorem hostCommand_next {w : Word32} {s t : State} (h : execDecoded (decode w) (s.setCmd w) = .next t) :
    hostCommand w s = .next (t.logEvent (commandEvent (decode w) t) 0) := by
  rw [hostCommand, h]
  rfl

/-- What a step does: nothing while idle, else the oldest interaction to come. -/
theorem step_cases (s : State) :
    (s.pending = [] ∧ step s = .next s) ∨
    (∃ a rest, s.pending = a :: rest ∧ step s = hostAccess a (s.setPending rest)) := by
  rw [step, stepHost]
  cases h : s.pending with
  | nil => exact .inl ⟨rfl, rfl⟩
  | cons a rest => exact .inr ⟨a, rest, rfl, rfl⟩

/-- The construction arguments have no problem exactly where every requirement of 70_reset_and_hazards.md R112
holds. -/
theorem ResetArgs.problem_eq_none_iff (a : ResetArgs) (inst : Config.Params) :
    a.problem inst = none ↔
      inst.fits a.bytes.length = true ∧ (0 ≤ a.position ∧ a.position < 2 ^ 67) ∧
      (0 ≤ a.extendChunkSize ∧ a.extendChunkSize < 2 ^ 64) := by
  rw [ResetArgs.problem]
  by_cases h1 : inst.fits a.bytes.length = true
  · rw [if_neg (by simpa using h1)]
    by_cases h2 : a.position < 0 ∨ 2 ^ 67 ≤ a.position
    · rw [if_pos h2]
      exact ⟨fun h => (nomatch h), fun h => by omega⟩
    · rw [if_neg h2]
      by_cases h3 : a.extendChunkSize < 0 ∨ 2 ^ 64 ≤ a.extendChunkSize
      · rw [if_pos h3]
        exact ⟨fun h => (nomatch h), fun h => by omega⟩
      · rw [if_neg h3]
        exact ⟨fun _ => ⟨h1, by omega, by omega⟩, fun _ => rfl⟩
  · rw [if_pos h1]
    exact ⟨fun h => (nomatch h), fun h => absurd h.1 h1⟩

/-- What a reset does: it is refused, or it constructs (70_reset_and_hazards.md R112, R114). -/
theorem hostReset_cases (a : ResetArgs) (s : State) :
    (∃ why, a.problem s.inst = some why ∧ hostReset a s = .refused (.construction why)) ∨
    (a.problem s.inst = none ∧ hostReset a s = .next (s.construct a)) := by
  rw [hostReset]
  cases h : a.problem s.inst with
  | none => exact .inr ⟨rfl, rfl⟩
  | some why => exact .inl ⟨why, rfl, rfl⟩

/-- The state after reset is the construction with the default arguments (70_reset_and_hazards.md R113). -/
theorem reset_eq_construct : State.reset = State.reset.construct ResetArgs.standard := by decide

end Sys2Proof.Machine
end

