-- ==== Sys2Proof/Laws/Capacity.lean ====
section
/-!
SUPPORT. What the shared operations do, in the terms of Safety.lean: what `raise` leaves, which buffer a capacity check
that passes leaves, and which byte of a pattern a layout holds.
-/

namespace Sys2Proof.Machine

open Sys2Proof

/-- `raise` leaves what `RaisedFrom` says. -/
theorem raisedFrom_raise (k : ErrorKind) (needed : Nat) (s : State) : RaisedFrom k needed s (s.raise k needed) := by
  refine ⟨rfl, fun h => figure64_toNat _ h, fun h => figure64_toNat _ h, fun h h' => ?_⟩
  simp [figureDraws_of_lt h, figureDraws_of_lt h']

theorem State.fieldNeeded_formula (n : Nat) (s : State) :
    s.fieldNeeded n = s.curOff.toNat + (s.curBit.toNat + n + 7) / 8 := by
  simp only [State.fieldNeeded, neededBytes, ceilDiv]
  omega

/-- A capacity check passes exactly where there is capacity, with the buffer of the new size. -/
theorem ensureCapacity_of_hasCapacity {needed : Nat} {s : State} (h : hasCapacity needed s = true) :
    ensureCapacity needed s = some ⟨s.buf.cells, sizeAfter needed s⟩ := by
  rcases ensureCapacity_cases needed s with ⟨hn, he⟩ | ⟨hn, -, -, he⟩ | ⟨hn, hc, -⟩
  · rw [he, sizeAfter, if_pos hn]
  · rw [he, sizeAfter, if_neg (Nat.not_le.mpr hn), Buffer.grow]
  · rcases hc with hc | hc <;> simp [hasCapacity, hc] at h <;> omega

theorem getElem_bytesLE (p w i : Nat) (h : i < (bytesLE p w).length) :
    (bytesLE p w)[i] = BitVec.ofNat 8 (p / 256 ^ i) := by
  induction w generalizing p i with
  | zero => simp at h
  | succ w ih =>
    cases i with
    | zero => simp [bytesLE]
    | succ i =>
      simp only [bytesLE, List.getElem_cons_succ]
      rw [ih, Nat.div_div_eq_div_mul, ← pow_succ']

/-- A layout holds the bytes that `layoutByte` names. -/
theorem getElem_layoutBytes (e : Endian) (p w i : Nat) (h : i < (layoutBytes e p w).length) :
    (layoutBytes e p w)[i] = layoutByte e p w i := by
  cases e
  · exact getElem_bytesLE _ _ _ _
  · simp only [layoutBytes, List.getElem_reverse, layoutByte]
    rw [getElem_bytesLE]
    simp

end Sys2Proof.Machine
end

