-- ==== Sys2Proof/Laws/Encoding.lean ====
section
/-!
SUPPORT. The fields of a command word as numbers (30_encoding.md R50): a word is the sum of its fields, and a word built
from fields has those fields.
-/

namespace Sys2Proof

/-- A word is the sum of its fields at their places. -/
theorem word_eq_fields (w : Word32) :
    w.toNat = (fieldOp w).toNat + (fieldN w).toNat * 2 ^ 8 + (fieldU w).toNat * 2 ^ 14 + (fieldE w).toNat * 2 ^ 15
      + (fieldRsv w).toNat * 2 ^ 17 := by
  simp only [fieldOp, fieldN, fieldU, fieldE, fieldRsv, BitVec.extractLsb'_toNat, Nat.shiftRight_eq_div_pow]
  have := w.isLt
  omega

/-- The word built from fields, as a number. -/
theorem assembleWord_toNat (op : BitVec 8) (n : Nat) (u : BitVec 1) (e : BitVec 2) :
    (assembleWord op n u e).toNat = op.toNat + (n % 64) * 2 ^ 8 + u.toNat * 2 ^ 14 + e.toNat * 2 ^ 15 := by
  have hop := op.isLt
  have hu := u.isLt
  have he := e.isLt
  have hn := Nat.mod_lt n (show 0 < 64 by decide)
  simp only [assembleWord, BitVec.toNat_append, BitVec.toNat_ofNat]
  rw [← Nat.shiftLeft_add_eq_or_of_lt (i := 8) hop, ← Nat.shiftLeft_add_eq_or_of_lt (i := 2) (by omega),
    ← Nat.shiftLeft_add_eq_or_of_lt (i := 1) (by omega), ← Nat.shiftLeft_add_eq_or_of_lt (i := 6) (by omega)]
  simp only [Nat.shiftLeft_eq]
  omega

/-- The fields of a word built from fields. -/
theorem fields_assembleWord (op : BitVec 8) (n : Nat) (u : BitVec 1) (e : BitVec 2) :
    fieldOp (assembleWord op n u e) = op ∧ (fieldN (assembleWord op n u e)).toNat = n % 64 ∧
    fieldU (assembleWord op n u e) = u ∧ fieldE (assembleWord op n u e) = e ∧
    fieldRsv (assembleWord op n u e) = 0 := by
  have h := word_eq_fields (assembleWord op n u e)
  rw [assembleWord_toNat] at h
  have a1 := op.isLt
  have a3 := u.isLt
  have a4 := e.isLt
  have b1 := (fieldOp (assembleWord op n u e)).isLt
  have b2 := (fieldN (assembleWord op n u e)).isLt
  have b3 := (fieldU (assembleWord op n u e)).isLt
  have b4 := (fieldE (assembleWord op n u e)).isLt
  exact ⟨BitVec.eq_of_toNat_eq (by omega), by omega, BitVec.eq_of_toNat_eq (by omega),
    BitVec.eq_of_toNat_eq (by omega), BitVec.eq_of_toNat_eq (by simp; omega)⟩

/-- Two words with the same fields are the same. -/
theorem word_ext_fields {w v : Word32} (hop : fieldOp w = fieldOp v) (hn : fieldN w = fieldN v)
    (hu : fieldU w = fieldU v) (he : fieldE w = fieldE v) (hr : fieldRsv w = fieldRsv v) : w = v := by
  apply BitVec.eq_of_toNat_eq
  rw [word_eq_fields w, word_eq_fields v, hop, hn, hu, he, hr]

@[simp] theorem signednessOf_bits (u : Signedness) : signednessOf (signednessBits u) = u := by cases u <;> rfl

@[simp] theorem orderSelOf_bits (e : OrderSel) : orderSelOf (orderBits e) = e := by cases e <;> rfl

theorem orderBits_ne_three (e : OrderSel) : orderBits e ≠ 3 := by cases e <;> decide

theorem signednessBits_of (u : BitVec 1) : signednessBits (signednessOf u) = u := by
  revert u
  decide

theorem orderBits_of {e : BitVec 2} (h : e ≠ 3) : orderBits (orderSelOf e) = e := by
  revert e
  decide

end Sys2Proof
end

