-- ==== Sys2Proof/Laws/Ieee.lean ====
section
/-!
SUPPORT. What the shared operations of the float conversions do: the fields of a pattern, packing a magnitude, and
rounding.
-/

namespace Sys2Proof.Machine

open Sys2Proof

/-- A pattern made from fields, as a number. -/
theorem make64_toNat (sign : Bool) (x f : Nat) :
    (make64 sign x f).toNat = f % 2 ^ 52 + x % 2 ^ 11 * 2 ^ 52 + sign.toNat * 2 ^ 63 := by
  have hf := Nat.mod_lt f (Nat.two_pow_pos 52)
  have hx := Nat.mod_lt x (Nat.two_pow_pos 11)
  simp only [make64, BitVec.toNat_append, BitVec.toNat_ofNat, BitVec.toNat_ofBool]
  rw [← Nat.shiftLeft_add_eq_or_of_lt hf, ← Nat.shiftLeft_add_eq_or_of_lt hx]
  simp only [Nat.shiftLeft_eq]
  omega

theorem sign64_make64 (sign : Bool) (x f : Nat) : sign64 (make64 sign x f) = sign := by
  have h : sign64 (make64 sign x f) = ((make64 sign x f).toNat / 2 ^ 63 % 2 == 1) := by
    rw [sign64, BitVec.getLsbD, Nat.testBit_eq_decide_div_mod_eq]
    rfl
  have hs : (make64 sign x f).toNat / 2 ^ 63 % 2 = sign.toNat := by
    rw [make64_toNat]
    have := sign.toNat_lt
    omega
  rw [h, hs]
  cases sign <;> rfl

theorem exp64_make64 (sign : Bool) {x : Nat} (f : Nat) (h : x < 2 ^ 11) : exp64 (make64 sign x f) = x := by
  rw [exp64, BitVec.extractLsb'_toNat, Nat.shiftRight_eq_div_pow, make64_toNat]
  have := sign.toNat_lt
  omega

theorem frac64_make64 (sign : Bool) (x : Nat) {f : Nat} (h : f < 2 ^ 52) : frac64 (make64 sign x f) = f := by
  rw [frac64, BitVec.extractLsb'_toNat, Nat.shiftRight_eq_div_pow, make64_toNat]
  have := sign.toNat_lt
  omega

/-- Packing a magnitude that binary64 holds exactly gives a finite pattern of that sign and magnitude. -/
theorem pack64_exact (sign : Bool) {mag : Nat} (hlt : mag < 2 ^ (1024 + 1074)) (hdvd : 2 ^ (mag.log2 - 52) ∣ mag) :
    sign64 (pack64 sign mag) = sign ∧ exp64 (pack64 sign mag) ≠ 2047 ∧ magnitude64 (pack64 sign mag) = mag := by
  rw [pack64]
  by_cases h : mag < 2 ^ 52
  · rw [if_pos h]
    refine ⟨sign64_make64 _ _ _, ?_, ?_⟩
    · rw [exp64_make64 _ _ (by decide)]
      decide
    · rw [magnitude64, if_pos (exp64_make64 _ _ (by decide)), frac64_make64 _ _ h]
  · rw [if_neg h]
    have h0 : mag ≠ 0 := fun h0 => h (h0 ▸ Nat.two_pow_pos 52)
    have hlo : 52 ≤ mag.log2 := (Nat.le_log2 h0).mpr (Nat.le_of_not_lt h)
    have hhi : mag.log2 < 1024 + 1074 := (Nat.log2_lt (k := 1024 + 1074) h0).mpr hlt
    have hx : mag.log2 - 51 < 2 ^ 11 := by
      clear hlt
      omega
    have hself : 2 ^ mag.log2 ≤ mag := Nat.log2_self_le h0
    have hnext : mag < 2 ^ (mag.log2 + 1) := Nat.lt_log2_self
    have hsplit : 2 ^ mag.log2 = 2 ^ 52 * 2 ^ (mag.log2 - 52) := by rw [← Nat.pow_add]; congr 1; omega
    have hge : 2 ^ 52 ≤ mag / 2 ^ (mag.log2 - 52) := by
      rw [Nat.le_div_iff_mul_le (Nat.two_pow_pos _), ← hsplit]
      exact hself
    have hlt' : mag / 2 ^ (mag.log2 - 52) < 2 ^ 53 := by
      rw [Nat.div_lt_iff_lt_mul (Nat.two_pow_pos _), ← Nat.pow_add]
      rwa [show 53 + (mag.log2 - 52) = mag.log2 + 1 by omega]
    refine ⟨sign64_make64 _ _ _, ?_, ?_⟩
    · rw [exp64_make64 _ _ hx]
      omega
    · rw [magnitude64, exp64_make64 _ _ hx, frac64_make64 _ _ (by omega), if_neg (by omega), Nat.add_sub_cancel' hge,
        show mag.log2 - 51 - 1 = mag.log2 - 52 by omega, Nat.div_mul_cancel hdvd]

/-- What rounding gives: the lower or the upper neighbour by the remainder, the even one at a tie. -/
theorem roundNearestEven_cases (a b : Nat) :
    (2 * (a % b) < b ∧ roundNearestEven a b = a / b) ∨
    (b < 2 * (a % b) ∧ roundNearestEven a b = a / b + 1) ∨
    (2 * (a % b) = b ∧ roundNearestEven a b = a / b + a / b % 2) := by
  rw [roundNearestEven]
  by_cases h : 2 * (a % b) < b
  · exact .inl ⟨h, if_pos h⟩
  · by_cases h' : b < 2 * (a % b)
    · exact .inr (.inl ⟨h', by rw [if_neg h, if_pos h']⟩)
    · exact .inr (.inr ⟨by omega, by rw [if_neg h, if_neg h']⟩)

end Sys2Proof.Machine
end

