-- ==== Sys2Proof/Laws/PerInstr.lean ====
section
/-!
SUPPORT. A law of every command as syntax, one lemma per constructor: its word keeps the reserved bits clear and never
holds the illegal byte order (30_encoding.md R50, R54, R57).
-/

namespace Sys2Proof.Laws.ReservedClear

open Sys2Proof

/-- The word of a command has `RSV = 0` and `E` other than `11`. -/
def Statement (i : Instr) : Prop := fieldRsv (encode i) = 0 ∧ fieldE (encode i) ≠ 3

theorem assembled (op : BitVec 8) (n : Nat) (u : BitVec 1) {e : BitVec 2} (h : e ≠ 3) :
    fieldRsv (assembleWord op n u e) = 0 ∧ fieldE (assembleWord op n u e) ≠ 3 := by
  obtain ⟨-, -, -, he, hr⟩ := fields_assembleWord op n u e
  exact ⟨hr, by rwa [he]⟩

theorem skip : Statement .skip := assembled _ _ _ (by decide)
theorem goto : Statement .goto := assembled _ _ _ (by decide)
theorem align : Statement .align := assembled _ _ _ (by decide)
theorem alignrev : Statement .alignrev := assembled _ _ _ (by decide)
theorem wrbits (n : Nat) (u : Signedness) (e : OrderSel) : Statement (.wrbits n u e) :=
  assembled _ _ _ (orderBits_ne_three e)
theorem rdbits (n : Nat) (u : Signedness) (e : OrderSel) : Statement (.rdbits n u e) :=
  assembled _ _ _ (orderBits_ne_three e)
theorem wrf16 (e : OrderSel) : Statement (.wrf16 e) := assembled _ _ _ (orderBits_ne_three e)
theorem rdf16 (e : OrderSel) : Statement (.rdf16 e) := assembled _ _ _ (orderBits_ne_three e)
theorem wrf32 (e : OrderSel) : Statement (.wrf32 e) := assembled _ _ _ (orderBits_ne_three e)
theorem rdf32 (e : OrderSel) : Statement (.rdf32 e) := assembled _ _ _ (orderBits_ne_three e)
theorem wrf64 (e : OrderSel) : Statement (.wrf64 e) := assembled _ _ _ (orderBits_ne_three e)
theorem rdf64 (e : OrderSel) : Statement (.rdf64 e) := assembled _ _ _ (orderBits_ne_three e)

end Sys2Proof.Laws.ReservedClear
end

