-- ==== Sys2Proof/Tests/Slice0.lean ====
section
/-!
SUPPORT. The model's own tests. Expected words and results come from spec/95_test_vectors.md (cited by section) or are
worked out by hand from the encoding of 30_encoding.md. The witnesses show, for each statement with hypotheses, a
concrete state and operands that meet them.
-/

namespace Sys2Proof.Tests

open Sys2Proof Sys2Proof.Machine

/-! ### Small states -/

/-- A machine with these bytes, this cursor and these operands; all else as after reset. -/
def bfc (bytes : List Byte) (off : Word64) (bit : BitVec 3) (opa opb : Word64) : State :=
  { State.reset with buf := Buffer.ofBytes bytes, curOff := off, curBit := bit, opa := opa, opb := opb }

/-- The same machine in strict mode. -/
def strictly (s : State) : State := { s with cfg := { s.cfg with strict := true } }

/-- The step goes on, to a state with this property. -/
def after (r : Result) (p : State → Bool) : Bool :=
  match r with
  | .next t => p t
  | .fault _ => false
  | .refused _ => false

/-- Issue this command word and take the step. -/
def issued (w : Nat) (s : State) (p : State → Bool) : Bool := after (step (s.withFetchWord 32 w)) p

/-- The first `n` bytes of the buffer. -/
def bytesOf (n : Nat) (s : State) : List Byte := Memory.readBytes s.buf.cells 0 n

/-- What a failing command leaves in the error registers. -/
def errors (s : State) : Word64 × Word64 × Word64 := (s.errOffset, s.errSize, s.errNeeded)

/-! ### Well-formed commands -/

theorem test_wrbits_count_64_ill_formed : ¬ (Instr.wrbits 64 .signed .configured).WellFormed := by decide
theorem test_rdbits_count_64_ill_formed : ¬ (Instr.rdbits 64 .unsigned .big).WellFormed := by decide
theorem test_wrbits_count_63_well_formed : (Instr.wrbits 63 .unsigned .little).WellFormed := by decide

/-! ### Words written out from 30_encoding.md R50 to R54, most significant field first: RSV, E, U, N, OP -/

theorem test_decode_skip : decode 0b000000000000000_00_0_000000_00000001#32 = .command .skip := by decide
theorem test_decode_goto : decode 0b000000000000000_00_0_000000_00000010#32 = .command .goto := by decide
theorem test_decode_align : decode 0b000000000000000_00_0_000000_00000011#32 = .command .align := by decide
theorem test_decode_alignrev : decode 0b000000000000000_00_0_000000_00000100#32 = .command .alignrev := by decide
theorem test_decode_wrbits :
    decode 0b000000000000000_01_1_000011_00010000#32 = .command (.wrbits 3 .unsigned .little) := by decide
theorem test_decode_rdbits :
    decode 0b000000000000000_10_0_100000_00010001#32 = .command (.rdbits 32 .signed .big) := by decide
theorem test_decode_wrf16 : decode 0b000000000000000_10_0_000000_00100000#32 = .command (.wrf16 .big) := by decide
theorem test_decode_rdf16 : decode 0b000000000000000_00_0_000000_00100001#32 = .command (.rdf16 .configured) := by decide
theorem test_decode_wrf32 : decode 0b000000000000000_01_0_000000_00100010#32 = .command (.wrf32 .little) := by decide
theorem test_decode_rdf32 : decode 0b000000000000000_10_0_000000_00100011#32 = .command (.rdf32 .big) := by decide
theorem test_decode_wrf64 : decode 0b000000000000000_00_0_000000_00100100#32 = .command (.wrf64 .configured) := by decide
theorem test_decode_rdf64 : decode 0b000000000000000_01_0_000000_00100101#32 = .command (.rdf64 .little) := by decide

/-- 95_test_vectors.md 2.1: every illegal word of the table. -/
theorem test_illegal_words :
    [0x00000000#32, 0x0001C810, 0x00000101, 0x00020001, 0x00008001, 0x00004002, 0x00000012, 0x000000FF, 0x0000C020,
      0x00009020, 0x80000025, 0x00018021, 0x00000026].all
      (fun w => decodeTableWord 32 w.toNat = none) = true := by decide

theorem test_encode_wrbits : encode (.wrbits 16 .signed .big) = 0x00011010#32 := by decide

/-! ### One step per command (95_test_vectors.md) -/

/-- 2.2, `skip -1, -6` at (2, 3). -/
theorem test_skip_borrows :
    issued 0x00000001 (bfc [] 2 3 0xFFFFFFFFFFFFFFFF 0xFFFFFFFFFFFFFFFA)
      (fun t => t.curOff = 0 ∧ t.curBit = 5 ∧ t.statusCode = 0) = true := by decide

/-- 2.2, `skip 0, -1` at (0, 0). -/
theorem test_skip_before_start :
    issued 0x00000001 (bfc [] 0 0 0 0xFFFFFFFFFFFFFFFF) (fun t => t.curOff = 0 ∧ t.curBit = 0 ∧ t.statusCode = 3)
      = true := by decide

/-- 2.2, `goto 2, 9`. -/
theorem test_goto_carries :
    issued 0x00000002 (bfc [] 7 7 2 9) (fun t => t.curOff = 3 ∧ t.curBit = 1 ∧ t.statusCode = 0) = true := by decide

/-- 2.2, `goto 2^64-1, 8`. -/
theorem test_goto_past_end :
    issued 0x00000002 (bfc [] 0 0 0xFFFFFFFFFFFFFFFF 8) (fun t => t.curOff = 0 ∧ t.statusCode = 3) = true := by decide

/-- 2.2, `align 4` at (5, 3). -/
theorem test_align_rounds_up :
    issued 0x00000003 (bfc [] 5 3 4 0) (fun t => t.curOff = 8 ∧ t.curBit = 3 ∧ t.statusCode = 0) = true := by decide

/-- 2.2, `align 2^63` at (2^64-1, 0). -/
theorem test_align_past_end :
    issued 0x00000003 (bfc [] 0xFFFFFFFFFFFFFFFF 0 0x8000000000000000 0)
      (fun t => t.statusCode = 3 ∧ errors t = (0xFFFFFFFFFFFFFFFF, 0, 0)) = true := by decide

/-- 2.2, `alignrev 3` at (8, 3). -/
theorem test_alignrev_rounds_down :
    issued 0x00000004 (bfc [] 8 3 3 0) (fun t => t.curOff = 6 ∧ t.curBit = 3 ∧ t.statusCode = 0) = true := by decide

/-- 2.2, `alignrev 0` at (5, 3). -/
theorem test_alignrev_zero :
    issued 0x00000004 (bfc [] 5 3 0 0) (fun t => t.statusCode = 3 ∧ errors t = (5, 0, 0)) = true := by decide

/-- 2.3, `wrbits.u.be 12, 0xABC` at bit 4. -/
theorem test_wrbits_big_at_bit_4 :
    issued 0x00014C10 (bfc [0, 0] 0 4 0xABC 0)
      (fun t => bytesOf 2 t = [0x0A, 0xBC] ∧ t.curOff = 2 ∧ t.curBit = 0) = true := by decide +kernel

/-- 2.3, `wrbits.u.le 5, 31` in strict mode. -/
theorem test_wrbits_strict_shortfall :
    issued 0x0000C510 (strictly (bfc [0] 0 4 0x1F 0)) (fun t => t.statusCode = 1 ∧ errors t = (0, 1, 2) ∧ t.curBit = 4)
      = true := by decide

/-- 2.3, `rdbits.s.be 32`. -/
theorem test_rdbits_sign_extends :
    issued 0x00012011 (bfc [0x80, 0, 0, 0] 0 0 0 0) (fun t => t.res = 0xFFFFFFFF80000000 ∧ t.curOff = 4) = true := by
  decide +kernel

/-- 2.3, `rdbits.u.le 12` at bit 4. -/
theorem test_rdbits_little_at_bit_4 :
    issued 0x0000CC11 (bfc [0xC0, 0xAB] 0 4 0 0) (fun t => t.res = 0xABC ∧ t.curOff = 2 ∧ t.curBit = 0) = true := by
  decide +kernel

/-- 2.4, `Enc16` of the tie 1 + 3*2^-11, stored in big order from the byte of the cursor (2.5). -/
theorem test_wrf16_tie_to_even :
    issued 0x00010020 (bfc [] 0 5 0x3FF0060000000000 0) (fun t => bytesOf 2 t = [0x3C, 0x02] ∧ t.curBit = 0 ∧ t.buf.size = 2)
      = true := by decide +kernel

/-- 2.4, 65519. -/
theorem test_wrf16_out_of_range :
    issued 0x00000020 (bfc [] 0 0 0x40EFFDE000000000 0) (fun t => t.statusCode = 2 ∧ t.buf.size = 0) = true := by
  decide +kernel

/-- 2.4, `Dec16` of the largest subnormal. -/
theorem test_rdf16_subnormal :
    issued 0x00000021 (bfc [0xFF, 0x03] 0 0 0 0) (fun t => t.res = 0x3F0FF80000000000 ∧ t.curOff = 2) = true := by
  decide +kernel

/-- 2.4, `Enc32` of 0.1. -/
theorem test_wrf32_rounds_up :
    issued 0x00008022 (bfc [] 0 0 0x3FB999999999999A 0) (fun t => bytesOf 4 t = [0xCD, 0xCC, 0xCC, 0x3D]) = true := by
  decide +kernel

/-- 2.4, `Enc32` of 3*2^-151. -/
theorem test_wrf32_least_subnormal :
    issued 0x00008022 (bfc [] 0 0 0x3698000000000000 0) (fun t => bytesOf 4 t = [1, 0, 0, 0]) = true := by decide +kernel

/-- 2.4, `Dec32` of 1.0, in big order. -/
theorem test_rdf32_one :
    issued 0x00010023 (bfc [0x3F, 0x80, 0, 0] 0 0 0 0) (fun t => t.res = 0x3FF0000000000000 ∧ t.curOff = 4) = true := by
  decide +kernel

/-- 42_float.md R94: the pattern's bytes, most significant first. -/
theorem test_wrf64_big :
    issued 0x00010024 (bfc [] 0 0 0x0102030405060708 0) (fun t => bytesOf 8 t = [1, 2, 3, 4, 5, 6, 7, 8]) = true := by
  decide +kernel

/-- 42_float.md R81: a signalling NaN reads as `NAN64D`. -/
theorem test_rdf64_nan :
    issued 0x00000025 (bfc [1, 0, 0, 0, 0, 0, 0xF0, 0x7F] 0 0 0 0) (fun t => t.res = 0x7FF8000000000000) = true := by
  decide +kernel

/-! ### The host's side, memory and reset -/

/-- 2.1: an illegal word at (1, 2) over four bytes. -/
theorem test_illegal_word_raises :
    issued 0x00008001 (bfc [0, 0, 0, 0] 1 2 5 0) (fun t => t.statusCode = 3 ∧ errors t = (1, 4, 0) ∧ t.curBit = 2) = true := by
  decide

/-- 10_state.md R25: the data port reads the byte at `BUF_ADDR`. -/
theorem test_data_port_reads_byte :
    after (step { bfc [1, 2, 3] 0 0 0 0 with bufAddr := 2, pending := [.read 14] })
      (fun t => t.hostLog = [.readValue 14 3]) = true := by decide

/-- 70_reset_and_hazards.md R112: a reset in the middle of a run loads the bytes and the normalized cursor. -/
theorem test_reset_loads :
    after (step { bfc [9, 9] 7 7 1 1 with pending := [.reset ⟨[5, 0, 6], 1, -3, .big, true, 4, true, false⟩] })
      (fun t => t.buf = ⟨[(0, 5), (2, 6)], 3⟩ ∧ t.curOff = 0 ∧ t.curBit = 5 ∧ t.cfg = ⟨.big, true, 4, true, false⟩ ∧ t.opa = 0)
      = true := by decide

/-- The step of a reset with these arguments, on an instance of at most one byte. -/
def resetStep (a : ResetArgs) : Result :=
  step { State.reset with inst := { Config.Params.standard with maxBytes := some 1 }, pending := [.reset a] }

/-- 70_reset_and_hazards.md R114: one byte too many, the positions and the chunks just outside their ranges; and
arguments just inside all of them. -/
theorem test_reset_refused :
    resetStep { ResetArgs.standard with bytes := [1, 2] } = .refused (.construction .tooManyBytes) ∧
    resetStep { ResetArgs.standard with bitOffset := -1 } = .refused (.construction .positionOutOfRange) ∧
    resetStep { ResetArgs.standard with byteOffset := 0xFFFFFFFFFFFFFFFF, bitOffset := 8 }
      = .refused (.construction .positionOutOfRange) ∧
    resetStep { ResetArgs.standard with extendChunkSize := -1 } = .refused (.construction .chunkOutOfRange) ∧
    resetStep { ResetArgs.standard with extendChunkSize := 2 ^ 64 } = .refused (.construction .chunkOutOfRange) ∧
    ∃ t, resetStep { ResetArgs.standard with
      bytes := [1], byteOffset := 0xFFFFFFFFFFFFFFFF, bitOffset := 7, extendChunkSize := 2 ^ 64 - 1 } = .next t :=
  ⟨rfl, rfl, rfl, rfl, rfl, ⟨_, rfl⟩⟩

/-- A write of the byte an unlisted address reads as removes the cell. -/
theorem test_memory_canonical : Memory.write [(1, 7), (3, 8)] 1 0 = [(3, 8)] := by decide

theorem test_memory_sorted : Memory.write [(1, 7), (3, 8)] 2 9 = [(1, 7), (2, 9), (3, 8)] := by decide

theorem test_reset_memory_wf : State.reset.buf.wf = true := by decide

/-- 30_encoding.md R60: `wrbits.u.le 3, 5`. -/
theorem test_assemble_wrbits :
    assembleLine 0 ['w', 'r', 'b', 'i', 't', 's', '.', 'u', '.', 'l', 'e', ' ', '3', ',', ' ', '5']
      = some [.write 1 5, .write 0 0x0000C310] := by decide

/-! ### Witnesses -/

theorem witness_DecodeEncodeRoundTrip : (Instr.wrbits 63 .signed .big).WellFormed := by decide

theorem witness_EncodeDecodeRoundTrip : decode 0x00007F10#32 = .command (.wrbits 63 .unsigned .configured) := by decide

theorem witness_CommandWordsAreFieldSums : (63 : Nat) < 64 := by decide

/-- Each ground of an illegal word at a boundary, and a state whose next interaction writes such a word. -/
theorem witness_IllegalWordsRaiseInvalidArgument :
    decode 0x00020001#32 = .illegal .reservedBits ∧ decode 0x00000026#32 = .illegal .unassignedOpcode ∧
    decode 0x00018010#32 = .illegal .illegalOrder ∧ decode 0x00000101#32 = .illegal .unusedField ∧
    decode 0x00007F25#32 = .illegal .unusedField ∧
    ({ State.reset with pending := [.write 0x0 ((0x00000026#32).setWidth 64)] }).pending
      = .write 0x0 ((0x00000026#32).setWidth 64) :: [] := by decide

theorem witness_StepRunsDecodedCommand :
    (State.reset.withFetchWord 32 0x0000C310).pending = .write 0x0 0x0000C310#64 :: [] ∧
    (Instr.wrbits 3 .unsigned .little).WellFormed ∧
    decode ((0x0000C310#64).setWidth 32) = .command (.wrbits 3 .unsigned .little) := by decide

/-- `SKIP` to the first and the last position, and one to either side. -/
theorem witness_SkipMovesCursor :
    let target (s : State) : Int := (s.curOff.toNat : Int) * 8 + s.curBit.toNat + s.opa.toInt * 8 + s.opb.toInt
    target (bfc [] 0 1 0 0xFFFFFFFFFFFFFFFF) = 0 ∧
    target (bfc [] 0xFFFFFFFFFFFFFFFF 6 0 1) = 2 ^ 67 - 1 ∧
    target (bfc [] 0 0 0 0xFFFFFFFFFFFFFFFF) = -1 ∧
    target (bfc [] 0xFFFFFFFFFFFFFFFF 7 0 1) = 2 ^ 67 := by decide +kernel

theorem witness_GotoSetsCursor :
    let target (s : State) : Int := (s.opa.toNat : Int) * 8 + s.opb.toInt
    target (bfc [] 0 0 0 0) = 0 ∧ target (bfc [] 0 0 0xFFFFFFFFFFFFFFFF 7) = 2 ^ 67 - 1 ∧
    target (bfc [] 0 0 0 0xFFFFFFFFFFFFFFFF) = -1 ∧ target (bfc [] 0 0 0xFFFFFFFFFFFFFFFF 8) = 2 ^ 67 := by
  decide +kernel

/-- `ALIGN` to the last offset, one past it, and by 0. -/
theorem witness_AlignAddsDistanceToMultiple :
    ((3 : Nat) = (bfc [] 0xFFFFFFFFFFFFFFFE 0 3 0).opa.toNat ∧
      (1 : Nat) = (3 - (bfc [] 0xFFFFFFFFFFFFFFFE 0 3 0).curOff.toNat % 3) % 3 ∧
      (bfc [] 0xFFFFFFFFFFFFFFFE 0 3 0).curOff.toNat + 1 < 2 ^ 64) ∧
    ((2 : Nat) = (bfc [] 0xFFFFFFFFFFFFFFFF 0 2 0).opa.toNat ∧
      (1 : Nat) = (2 - (bfc [] 0xFFFFFFFFFFFFFFFF 0 2 0).curOff.toNat % 2) % 2 ∧
      2 ^ 64 ≤ (bfc [] 0xFFFFFFFFFFFFFFFF 0 2 0).curOff.toNat + 1) ∧
    (0 : Nat) = (bfc [] 5 3 0 0).opa.toNat := by decide +kernel

theorem witness_AlignReachesLeastMultiple :
    (bfc [] 0xFFFFFFFFFFFFFFFE 0 3 0).opa.toNat ≠ 0 ∧
    (bfc [] 0xFFFFFFFFFFFFFFFE 0 3 0).opa.toNat ∣ 0xFFFFFFFFFFFFFFFF ∧
    (bfc [] 0xFFFFFFFFFFFFFFFE 0 3 0).curOff.toNat ≤ 0xFFFFFFFFFFFFFFFF ∧ 0xFFFFFFFFFFFFFFFF < 2 ^ 64 := by
  decide +kernel

theorem witness_AlignrevReachesGreatestMultiple :
    ((bfc [] 8 3 3 0).opa.toNat ≠ 0 ∧ (bfc [] 8 3 3 0).opa.toNat ∣ 6 ∧ 6 ≤ (bfc [] 8 3 3 0).curOff.toNat) ∧
    (bfc [] 8 3 0 0).opa.toNat = 0 := by decide

/-- A 12-bit field at stream position 4: its last bit, and the positions beside it. -/
theorem witness_WriteFieldFollowsBitLayout : 11 < 12 ∧ (3 < 4 ∨ 4 + 12 ≤ 3) ∧ (16 < 4 ∨ 4 + 12 ≤ 16) := by decide

theorem witness_ReadFieldFollowsBitLayout : 11 < 12 := by decide

theorem witness_ReadFieldReturnsWrittenField : 0xFFF < 2 ^ 12 := by decide

/-- 32 unsigned bits at their greatest value, and 32 signed bits at their least, on an empty buffer that may grow, the
cursor as far up as the field fits. -/
theorem witness_WrbitsStoresField :
    let s := bfc [] 0xFFFFFFFFFFFFFFFB 7 0xFFFFFFFF 0
    let s' := bfc [] 0 0 0xFFFFFFFF80000000 0
    (1 ≤ 32 ∧ 32 ≤ 32 ∧ 0 ≤ s.opa.toInt ∧ s.opa.toInt ≤ 2 ^ 32 - 1 ∧
      hasCapacity (s.curOff.toNat + (s.curBit.toNat + 32 + 7) / 8) s = true ∧ s.position + 32 < 2 ^ 67 ∧
      31 < 32 ∧ s.position + 32 ≤ s.position + 32 ∧ s.curOff.toNat - 1 < s.curOff.toNat) ∧
    (-2 ^ (32 - 1) ≤ s'.opa.toInt ∧ s'.opa.toInt ≤ 2 ^ (32 - 1) - 1 ∧
      hasCapacity (s'.curOff.toNat + (s'.curBit.toNat + 32 + 7) / 8) s' = true ∧ s'.position + 32 < 2 ^ 67) := by
  decide +kernel

theorem witness_WrbitsChecksCountThenRange :
    (0 < 1 ∧ 32 < 33) ∧ (bfc [] 0 0 0x100 0).opa.toInt > 2 ^ 8 - 1 ∧ (bfc [] 0 0 0xFFFFFFFFFFFFFFFF 0).opa.toInt < 0 ∧
    (bfc [] 0 0 0x80 0).opa.toInt > 2 ^ (8 - 1) - 1 ∧ (bfc [] 0 0 0xFFFFFFFFFFFFFF7F 0).opa.toInt < -2 ^ (8 - 1) ∧
    (bfc [] 0 0 0xFF 0).opa.toInt ≤ 2 ^ 8 - 1 ∧ -2 ^ (8 - 1) ≤ (bfc [] 0 0 0xFFFFFFFFFFFFFF80 0).opa.toInt ∧
    answersNext (exec (.wrbits 8 .unsigned .big) (bfc [] 0 0 0xFF 0)) = true := by
  decide

theorem witness_RdbitsReturnsField :
    let s := bfc [0x80, 0, 0, 0] 0 0 0 0
    1 ≤ 32 ∧ 32 ≤ 32 ∧ hasCapacity (s.curOff.toNat + (s.curBit.toNat + 32 + 7) / 8) s = true ∧
      s.position + 32 < 2 ^ 67 ∧ 31 < 32 ∧ 32 ≤ 63 ∧ 63 < 64 := by decide +kernel

theorem witness_RdbitsZeroAndOverlong : 32 < 33 := by decide

theorem witness_BitFieldRoundTrip :
    ∃ t, exec (.wrbits 3 .signed .big) (bfc [0] 0 6 0xFFFFFFFFFFFFFFFC 0) = .next t ∧ t.statusCode = 0 :=
  ⟨_, rfl, rfl⟩

/-- Growth by exactly the deficit, and by two chunks of 4. -/
theorem witness_GrowthIsLeastMultipleOfChunk :
    ((bfc [1] 0 0 0 0).buf.size < 6 ∧ (ensureCapacity 6 (bfc [1] 0 0 0 0)).isSome = true) ∧
    (let s := { bfc [1] 0 0 0 0 with cfg := ⟨.little, false, 4, false, false⟩ }
     s.buf.size < 6 ∧ s.cfg.chunk ≠ 0 ∧ ensureCapacity 6 s = some ⟨[(0, 1)], 9⟩) := by decide

theorem witness_GrowthAppendsZeroBytes :
    (bfc [1] 0 0 0 0).buf.wf = true ∧ ensureCapacity 3 (bfc [1] 0 0 0 0) = some ⟨[(0, 1)], 3⟩ ∧
    0 < (bfc [1] 0 0 0 0).buf.size ∧ (bfc [1] 0 0 0 0).buf.size ≤ 1 ∧ 2 < 3 := by decide

/-- One byte short in strict mode, with the argument checks passed and with one failed. -/
theorem witness_StrictShortfallRaisesOutOfBounds :
    let s := strictly (bfc [1] 0 0 0x100 0)
    (capacityFigure (.rdf16 .big) s = some 2 ∧ s.buf.size < 2 ∧ s.cfg.strict = true ∧ argumentsOk (.rdf16 .big) s = true) ∧
    (capacityFigure (.wrbits 16 .signed .big) s = some 2 ∧ argumentsOk (.wrbits 16 .signed .big) s = true) ∧
    (capacityFigure (.wrbits 40 .signed .big) s = some 5 ∧ argumentsOk (.wrbits 40 .signed .big) s = false) := by decide

/-- One byte past `MAX_BYTES`. -/
theorem witness_GrowthPastMaxBytesRaisesOutOfBounds :
    let s := { bfc [1] 0 0 0 0 with inst := { Config.Params.standard with maxBytes := some 1 } }
    argumentsOk (.rdbits 9 .signed .little) s = true ∧ capacityFigure (.rdbits 9 .signed .little) s = some 2 ∧
      s.buf.size < 2 ∧ s.inst.maxBytes = some 1 ∧ 1 < s.buf.size + growthOf s.cfg.chunk.toNat (2 - s.buf.size) := by decide

/-- At the last offset, and inside a strict buffer. -/
theorem witness_BufferCommandsCompleteWithCapacity :
    (let s := bfc [] 0xFFFFFFFFFFFFFFFF 7 0x1F 0
     argumentsOk (.wrbits 5 .unsigned .big) s = true ∧
       capacityFigure (.wrbits 5 .unsigned .big) s = some 0x10000000000000001 ∧
       hasCapacity 0x10000000000000001 s = true) ∧
    (let s := strictly (bfc [1, 2] 0 7 0 0)
     argumentsOk (.rdf16 .big) s = true ∧ capacityFigure (.rdf16 .big) s = some 2 ∧ hasCapacity 2 s = true) := by
  decide +kernel

theorem witness_StrictModeKeepsSize :
    ∃ t, (strictly (bfc [1, 2] 0 0 0 0)).cfg.strict = true ∧ exec (.rdf16 .big) (strictly (bfc [1, 2] 0 0 0 0)) = .next t :=
  ⟨_, rfl, rfl⟩

theorem witness_SizeNeverShrinksAndCovers :
    ∃ t, exec (.wrf64 .big) (bfc [] 3 0 1 0) = .next t ∧ t.statusCode = 0 ∧
      capacityFigure (.wrf64 .big) (bfc [] 3 0 1 0) = some 11 :=
  ⟨_, rfl, rfl, rfl⟩

/-- The largest finite half, an infinity, and a NaN with the least fraction. -/
theorem witness_HalfDecodeIsExact :
    finite16 0x7BFF = true ∧ (finite16 0xFC00 = false ∧ isNaN16 0xFC00 = false) ∧ isNaN16 0x7C01 = true := by decide

theorem witness_SingleDecodeIsExact :
    finite32 0x7F7FFFFF = true ∧ (finite32 0xFF800000 = false ∧ isNaN32 0xFF800000 = false) ∧
    isNaN32 0x7F800001 = true := by decide

/-- 65504 itself; and the tie 2^-25, as near to the pattern 1 as to its encoding 0. -/
theorem witness_HalfEncodeRoundsToNearestEven :
    (exp64 0x40EFFC0000000000 ≠ 2047 ∧ magnitude64 0x40EFFC0000000000 ≤ 65504 * 2 ^ 1074 ∧ finite16 0x7BFF = true) ∧
    (exp64 0x3E60000000000000 ≠ 2047 ∧ magnitude64 0x3E60000000000000 ≤ 65504 * 2 ^ 1074 ∧ finite16 1 = true ∧
      gap (magnitude16 (enc16 0x7E00 0x3E60000000000000)) (magnitude64 0x3E60000000000000)
        = gap (magnitude16 1) (magnitude64 0x3E60000000000000) ∧
      magnitude16 1 ≠ magnitude16 (enc16 0x7E00 0x3E60000000000000)) := by decide +kernel

/-- The midpoint above the largest finite single, the pattern below it, and the tie 2^-150. -/
theorem witness_SingleEncodeRoundsToNearestEven :
    (exp64 0x47EFFFFFF0000000 ≠ 2047 ∧ (2 ^ 25 - 1) * 2 ^ (103 + 1074) ≤ magnitude64 0x47EFFFFFF0000000) ∧
    (exp64 0x47EFFFFFEFFFFFFF ≠ 2047 ∧ magnitude64 0x47EFFFFFEFFFFFFF < (2 ^ 25 - 1) * 2 ^ (103 + 1074) ∧
      finite32 0x7F7FFFFF = true) ∧
    (finite32 1 = true ∧
      gap (magnitude32 (enc32 0x7FC00000 0x3690000000000000)) (magnitude64 0x3690000000000000)
        = gap (magnitude32 1) (magnitude64 0x3690000000000000) ∧
      magnitude32 1 ≠ magnitude32 (enc32 0x7FC00000 0x3690000000000000)) := by decide +kernel

theorem witness_NarrowPatternsSurviveDecodeEncode : isNaN16 0xFC00 = false ∧ isNaN32 0x7F800000 = false := by decide

theorem witness_EncodeSpecialValues : isNaN64 0x7FF0000000000001 = true ∧ isNaN64 0x7FF0000000000000 = false := by decide

/-- 65504 at the last offset a half fits below the top. -/
theorem witness_Wrf16StoresHalf :
    let s := bfc [] 0xFFFFFFFFFFFFFFFD 5 0x40EFFC0000000000 0
    halfRangeOk s.inst.halfMax s.opa = true ∧ hasCapacity (s.curOff.toNat + 2) s = true ∧
      s.curOff.toNat + 2 < 2 ^ 64 := by decide +kernel

theorem witness_Wrf32StoresSingle :
    let s := bfc [] 0xFFFFFFFFFFFFFFFB 5 0x3FF0000000000000 0
    hasCapacity (s.curOff.toNat + 4) s = true ∧ s.curOff.toNat + 4 < 2 ^ 64 := by decide +kernel

theorem witness_Wrf64StoresDouble :
    let s := bfc [] 0xFFFFFFFFFFFFFFF7 5 0x3FF0000000000000 0
    hasCapacity (s.curOff.toNat + 8) s = true ∧ s.curOff.toNat + 8 < 2 ^ 64 := by decide +kernel

theorem witness_Wrf16RejectsBeyondHalfMax :
    (let s := bfc [] 0 0 0x40EFFC0000000001 0
     exp64 s.opa ≠ 2047 ∧ s.inst.halfMax * 2 ^ 1074 < magnitude64 s.opa) ∧
    magnitude64 (bfc [] 0 0 0x40EFFC0000000000 0).opa ≤ State.reset.inst.halfMax * 2 ^ 1074 ∧
    exp64 (bfc [] 0 0 0x7FF0000000000000 0).opa = 2047 ∧
    answersNext (exec (.wrf16 .big) (bfc [] 0 0 0x7FF0000000000000 0)) = true := by decide +kernel

theorem witness_Rdf16ReturnsHalf :
    let s := strictly (bfc [1, 2] 0 7 0 0)
    hasCapacity (s.curOff.toNat + 2) s = true ∧ s.curOff.toNat + 2 < 2 ^ 64 := by decide +kernel

theorem witness_Rdf32ReturnsSingle :
    let s := strictly (bfc [1, 2, 3, 4] 0 7 0 0)
    hasCapacity (s.curOff.toNat + 4) s = true ∧ s.curOff.toNat + 4 < 2 ^ 64 := by decide +kernel

theorem witness_Rdf64ReturnsDouble :
    let s := strictly (bfc [1, 2, 3, 4, 5, 6, 7, 8] 0 7 0 0)
    hasCapacity (s.curOff.toNat + 8) s = true ∧ s.curOff.toNat + 8 < 2 ^ 64 := by decide +kernel

/-- 1.5, that every format holds, a third, that none holds exactly, and a NaN; each write completes. -/
theorem witness_FloatWriteThenReadLaws :
    paramsOk State.reset.inst = true ∧
    (isNaN64 0x3FF8000000000000 = false ∧ isNaN16 0x3E00 = false ∧ isNaN32 0x3FC00000 = false ∧
      dec16 0x7FF8000000000000 0x3E00 = 0x3FF8000000000000 ∧ dec32 0x7FF8000000000000 0x3FC00000 = 0x3FF8000000000000) ∧
    isNaN64 0x7FF0000000000001 = true ∧
    [0x3FF8000000000000#64, 0x3FD5555555555555, 0x7FF0000000000001].all (fun d =>
      after (exec (.wrf16 .little) (bfc [] 0 0 d 0)) (fun t => t.statusCode = 0) &&
      after (exec (.wrf32 .big) (bfc [] 0 0 d 0)) (fun t => t.statusCode = 0) &&
      after (exec (.wrf64 .configured) (bfc [] 0 0 d 0)) (fun t => t.statusCode = 0)) = true := by decide +kernel

/-- The first offsets at which two, four and eight bytes pass the top, and the first position at which 32 bits do, with
the greatest unsigned and the least signed value. -/
theorem witness_TopOfRangeCommandsComplete :
    (let s := bfc [] 0xFFFFFFFFFFFFFFFC 0 0xFFFFFFFF 0
     1 ≤ 32 ∧ 32 ≤ 32 ∧ hasCapacity (s.curOff.toNat + (s.curBit.toNat + 32 + 7) / 8) s = true ∧
       2 ^ 67 ≤ s.position + 32 ∧ 0 ≤ s.opa.toInt ∧ s.opa.toInt ≤ 2 ^ 32 - 1 ∧ 31 < 32) ∧
    (let s := bfc [] 0xFFFFFFFFFFFFFFFF 7 0xFFFFFFFFFFFFFFFF 0
     1 ≤ 1 ∧ hasCapacity (s.curOff.toNat + (s.curBit.toNat + 1 + 7) / 8) s = true ∧ 2 ^ 67 ≤ s.position + 1 ∧
       -2 ^ (1 - 1) ≤ s.opa.toInt ∧ s.opa.toInt ≤ 2 ^ (1 - 1) - 1 ∧ 1 ≤ 63 ∧ 63 < 64) ∧
    (let s := bfc [] 0xFFFFFFFFFFFFFFFE 0 0x40EFFC0000000000 0
     hasCapacity (s.curOff.toNat + 2) s = true ∧ 2 ^ 64 ≤ s.curOff.toNat + 2 ∧
       halfRangeOk s.inst.halfMax s.opa = true) ∧
    (let s := bfc [] 0xFFFFFFFFFFFFFFFC 0 0 0
     hasCapacity (s.curOff.toNat + 4) s = true ∧ 2 ^ 64 ≤ s.curOff.toNat + 4) ∧
    (let s := bfc [] 0xFFFFFFFFFFFFFFF8 0 0 0
     hasCapacity (s.curOff.toNat + 8) s = true ∧ 2 ^ 64 ≤ s.curOff.toNat + 8) := by
  decide +kernel

/-- A `SKIP` and a strict `RDF16` that raise. -/
theorem witness_RaisedErrorsArePrecise :
    (∃ t, exec .skip (bfc [] 0 0 0 0xFFFFFFFFFFFFFFFF) = .next t ∧ t.statusCode = 3) ∧
    (∃ t, exec (.rdf16 .big) (strictly (bfc [1] 0 0 0 0)) = .next t ∧ t.statusCode = 1) :=
  ⟨⟨_, rfl, rfl⟩, ⟨_, rfl, rfl⟩⟩

theorem witness_ErrorRegistersDescribeLastFailure :
    (∃ t, exec .skip (bfc [] 0 0 0 0xFFFFFFFFFFFFFFFF) = .next t ∧ t.statusCode = 3) ∧
    (∃ t, exec (.rdf16 .big) (strictly (bfc [1] 0 0 0 0)) = .next t ∧ t.statusCode = errorCode .outOfBounds) ∧
    (∃ t, exec .goto (bfc [] 0 0 0 0) = .next t ∧ t.statusCode = 0) ∧ (bfc [1] 0 0 0 0).buf.size < 2 ^ 64 :=
  ⟨⟨_, rfl, rfl⟩, ⟨_, rfl, rfl⟩, ⟨_, rfl, rfl⟩, by decide⟩

theorem witness_CommandsWriteCodesZeroToThree : ∃ t, exec .goto (bfc [] 0 0 0 0) = .next t := ⟨_, rfl⟩

/-- A reset that breaks each requirement at its boundary. -/
theorem witness_OnlyRefusedResetsStop :
    (let a : ResetArgs := { ResetArgs.standard with bytes := [1, 2] }
     let s : State := { State.reset with inst := { Config.Params.standard with maxBytes := some 1 }, pending := [.reset a] }
     s.pending = .reset a :: [] ∧ s.inst.maxBytes = some 1 ∧ 1 < a.bytes.length) ∧
    (let a : ResetArgs := { ResetArgs.standard with bitOffset := -1 }
     a.byteOffset * 8 + a.bitOffset < 0) ∧
    (let a : ResetArgs := { ResetArgs.standard with byteOffset := 0xFFFFFFFFFFFFFFFF, bitOffset := 8 }
     2 ^ 67 ≤ a.byteOffset * 8 + a.bitOffset) ∧
    (let a : ResetArgs := { ResetArgs.standard with extendChunkSize := -1 }
     a.extendChunkSize < 0) ∧
    (let a : ResetArgs := { ResetArgs.standard with extendChunkSize := 2 ^ 64 }
     2 ^ 64 ≤ a.extendChunkSize) := by decide +kernel

theorem witness_StepKeepsInvariant :
    (State.reset.withFetchWord 32 0x00000020).inv = true ∧
    answersNext (step (State.reset.withFetchWord 32 0x00000020)) = true := by decide +kernel

theorem witness_ResetEstablishesInvariant :
    paramsOk State.reset.inst = true ∧ answersNext (hostReset ⟨[1, 0], 0, 17, .big, true, 0, false, false⟩ State.reset) = true := by
  decide

theorem witness_ConfigurationChangesOnlyByReset :
    (∃ t, step (State.reset.withFetchWord 32 0x00000001) = .next t) ∧
    (∀ a rest, (State.reset.withFetchWord 32 0x00000001).pending ≠ .reset a :: rest) :=
  ⟨⟨_, rfl⟩, fun _ _ h => nomatch h⟩

theorem witness_CommandsKeepHostRegisters :
    (∃ t, exec .goto (bfc [] 0 0 0 0) = .next t ∧ writesRes .goto = false) ∧
    (∃ t, exec (.rdf16 .big) (strictly (bfc [1] 0 0 0 0)) = .next t ∧ t.statusCode ≠ 0) :=
  ⟨⟨_, rfl, rfl⟩, ⟨_, rfl, by decide⟩⟩

theorem witness_OnlyWritesChangeBytes :
    (∃ t, exec .goto (bfc [1] 0 0 0 0) = .next t) ∧
    (∃ t, exec (.rdf16 .big) (bfc [1] 0 0 0 0) = .next t ∧ writesRes (.rdf16 .big) = true) :=
  ⟨⟨_, rfl⟩, ⟨_, rfl, rfl⟩⟩

theorem witness_HeldFlagsHaveNoEffect : ∃ t, exec (.wrf64 .configured) (bfc [] 0 0 1 0) = .next t := ⟨_, rfl⟩

theorem witness_IgnoredOperandsHaveNoEffect :
    ∃ t, exec (.rdf64 .configured) (bfc [1] 0 0 1 2) = .next t ∧ Instr.rdf64 .configured ≠ .skip ∧
      Instr.rdf64 .configured ≠ .goto ∧ writesRes (.rdf64 .configured) = true :=
  ⟨_, rfl, by decide, by decide, rfl⟩

theorem witness_HostWritesStoreOrAreIgnored :
    ∀ reg : Nat, ({ State.reset with pending := [.write reg 7] }).pending = .write reg 7 :: [] ∧ (13 : Nat) ≠ 0 ∧ (14 : Nat) ≠ 0 :=
  fun _ => ⟨rfl, by decide, by decide⟩

/-- Every register number, over a small buffer and over one whose size does not fit 64 bits. -/
theorem witness_HostReadsReturnRegisters :
    ((bfc [1] 0 0 0 0).buf.size < 2 ^ 64 ∧ 2 ^ 64 ≤ (State.setBuf ⟨[], 2 ^ 64⟩ State.reset).buf.size) ∧
    ∀ reg : Nat, ({ bfc [1] 0 0 0 0 with pending := [.read reg] }).pending = .read reg :: [] ∧ 0xF ≤ 0xF :=
  ⟨by decide, fun _ => ⟨rfl, by decide⟩⟩

/-- Two bytes, the cursor at the last position, the largest chunk; and the least position. -/
theorem witness_ResetLoadsConstruction :
    let a : ResetArgs := ⟨[1, 2], 0xFFFFFFFFFFFFFFFF, 7, .big, true, 0xFFFFFFFFFFFFFFFF, true, true⟩
    let s : State := { State.reset with inst := { Config.Params.standard with maxBytes := some 2 }, pending := [.reset a] }
    (s.pending = .reset a :: [] ∧ s.inst.maxBytes = some 2 ∧ a.bytes.length ≤ 2 ∧
      0 ≤ a.byteOffset * 8 + a.bitOffset ∧ a.byteOffset * 8 + a.bitOffset < 2 ^ 67 ∧ 0 ≤ a.extendChunkSize ∧
      a.extendChunkSize < 2 ^ 64 ∧ 1 < a.bytes.length) ∧
    (0 : Int) ≤ 1 * 8 + -8 := by decide +kernel

theorem witness_IdleStepKeepsState : State.reset.pending = [] := by decide

theorem witness_AssemblerLinesExpand :
    (63 : Nat) < 64 ∧ (FloatLiteral.decimal true 15 (-1)).pattern64 = some 0xBFF8000000000000 := by decide +kernel

/-- 0.1; the midpoint 2^53 + 1, as near to 2^53 + 2 as to its double 2^53; and a literal beyond the range. -/
theorem witness_DecimalOperandsDenoteNearestDouble :
    (FloatLiteral.decimal false 1 (-1)).pattern64 = some 0x3FB999999999999A ∧
    ((FloatLiteral.decimal false 9007199254740993 0).pattern64 = some 0x4340000000000000 ∧
      exp64 0x4340000000000001 ≠ 2047 ∧
      gap (magnitude64 0x4340000000000000 * decimalDen 0) (decimalNum 9007199254740993 0 * 2 ^ 1074)
        = gap (magnitude64 0x4340000000000001 * decimalDen 0) (decimalNum 9007199254740993 0 * 2 ^ 1074) ∧
      magnitude64 0x4340000000000001 ≠ magnitude64 0x4340000000000000) ∧
    (FloatLiteral.decimal false 2 308).pattern64 = none ∧
    (2 ^ 54 - 1) * 2 ^ (970 + 1074) * decimalDen 308 ≤ decimalNum 2 308 * 2 ^ 1074 := by decide +kernel

end Sys2Proof.Tests
end

section
/-!
PROOFS. 10_state.md R17 (O52): a change of the state that the shared operations neither read nor overwrite goes through
every command unchanged. The rules say so operation by operation, for any such change; a command's lemma follows its
definition and names the operand registers it reads. The held flags are one such change.
-/

namespace Sys2Proof.Machine

open Sys2Proof

/-! ### Commuting with a change of the state -/

/-- `go` after the change `f` answers what it answers without it, changed by `f`. -/
def Commutes (f : State → State) (go : State → Result) : Prop := ∀ s, go (f s) = mapNext f (go s)

/-- A change of the state that the operations shared by the commands neither read (the first fields) nor overwrite (the
last). It may change the operand registers: only the commands themselves read those. -/
structure Invisible (f : State → State) : Prop where
  inst (s) : (f s).inst = s.inst
  buf (s) : (f s).buf = s.buf
  curOff (s) : (f s).curOff = s.curOff
  curBit (s) : (f s).curBit = s.curBit
  endian (s) : (f s).cfg.endian = s.cfg.endian
  strict (s) : (f s).cfg.strict = s.cfg.strict
  chunk (s) : (f s).cfg.chunk = s.cfg.chunk
  setBuf (b) (s) : (f s).setBuf b = f (s.setBuf b)
  setCursor (off bit) (s) : (f s).setCursor off bit = f (s.setCursor off bit)
  setRes (v) (s) : (f s).setRes v = f (s.setRes v)
  complete (s) : (f s).complete = f s.complete
  raise (k needed) (s) : (f s).raise k needed = f (s.raise k needed)
  advance (bytes bit) (s) : (f s).advance bytes bit = f (s.advance bytes bit)

section Rules

variable {f : State → State}

theorem Commutes.next {g : State → State} (h : ∀ s, g (f s) = f (g s)) : Commutes f (fun s => .next (g s)) :=
  fun s => congrArg Host.Outcome.next (h s)

theorem Commutes.ite {c : State → Prop} {_ : DecidablePred c} {x y : State → Result} (hc : ∀ s, c (f s) ↔ c s)
    (hx : Commutes f x) (hy : Commutes f y) : Commutes f (fun s => if c s then x s else y s) := by
  intro s
  by_cases h : c s
  · simpa only [if_pos h, if_pos ((hc s).mpr h)] using hx s
  · simpa only [if_neg h, if_neg (mt (hc s).mp h)] using hy s

namespace Invisible

variable (hf : Invisible f)
include hf

/-! ### What an invisible change keeps -/

theorem position (s : State) : (f s).position = s.position := by
  simp only [State.position, hf.curOff, hf.curBit]

theorem fieldBytes (n : Nat) (s : State) : (f s).fieldBytes n = s.fieldBytes n := by
  simp only [State.fieldBytes, hf.curBit]

theorem fieldNeeded (n : Nat) (s : State) : (f s).fieldNeeded n = s.fieldNeeded n := by
  simp only [State.fieldNeeded_eq, hf.curOff, hf.fieldBytes]

theorem floatNeeded (w : Nat) (s : State) : (f s).floatNeeded w = s.floatNeeded w := by
  simp only [State.floatNeeded_eq, hf.curOff]

theorem effOrder (e : OrderSel) (s : State) : effOrder e (f s) = Machine.effOrder e s := by
  cases e
  case configured => exact hf.endian s
  all_goals rfl

theorem ensureCapacity (needed : Nat) (s : State) :
    ensureCapacity needed (f s) = Machine.ensureCapacity needed s := by
  simp only [Machine.ensureCapacity, hf.buf, hf.strict, hf.chunk, hf.inst]

theorem setCells (m : Memory) (s : State) : (f s).setCells m = f (s.setCells m) := by
  simpa only [State.setCells, State.setBuf, hf.buf] using hf.setBuf ⟨m, s.buf.size⟩ s

theorem advanceBits (n : Nat) (s : State) : (f s).advanceBits n = f (s.advanceBits n) := by
  simp only [State.advanceBits, hf.curBit, hf.advance]

/-! ### The shared operations commute -/

theorem fail (k : ErrorKind) : Commutes f (fail k) := .next (hf.raise k 0)

theorem moveCursor {a : State → Int} (ha : ∀ s, a (f s) = a s) : Commutes f (fun s => moveCursor (a s) s) :=
  .ite (fun s => by rw [ha]) (hf.fail _) (.next fun s => by rw [ha, hf.setCursor, hf.complete])

/-- The capacity check makes the same choice, so it is enough that what follows it commutes. -/
theorem withCapacity {needed : State → Nat} {go : State → Result} (hn : ∀ s, needed (f s) = needed s)
    (hgo : Commutes f go) : Commutes f (fun s => withCapacity (needed s) s go) := by
  intro s
  simp only [Machine.withCapacity, hn, hf.ensureCapacity]
  cases Machine.ensureCapacity (needed s) s with
  | none => exact congrArg Host.Outcome.next (hf.raise _ _ s)
  | some b => simpa only [hf.setBuf] using hgo (s.setBuf b)

theorem within {count : State → Nat} {go : State → Result} (hn : ∀ s, count (f s) = count s) (hgo : Commutes f go) :
    Commutes f (fun s => within s.curOff.toNat (count s) s (go s)) :=
  .ite (fun s => by rw [hf.curOff, hf.buf, hn]) hgo (fun s => by rw [hf.curOff, hn]; rfl)

theorem floatWrite {p : State → Nat} (w : Nat) (e : OrderSel) (hp : ∀ s, p (f s) = p s) :
    Commutes f (fun s => floatWrite w (p s) e s) := by
  intro s
  have hwrite : Commutes f (Machine.floatWrite w (p s) e) :=
    hf.withCapacity (hf.floatNeeded w) <| hf.within (fun _ => rfl) <| .next fun t => by
      rw [hf.buf, hf.curOff, hf.effOrder, hf.setCells, hf.advance, hf.complete]
  simpa only [hp] using hwrite s

theorem floatRead {dec : State → Nat → Word64} (w : Nat) (e : OrderSel) (hdec : ∀ s, dec (f s) = dec s) :
    Commutes f (fun s => floatRead w (dec s) e s) := by
  intro s
  have hread : Commutes f (Machine.floatRead w (dec s) e) :=
    hf.withCapacity (hf.floatNeeded w) <| hf.within (fun _ => rfl) <| .next fun t => by
      rw [hf.buf, hf.curOff, hf.effOrder, hf.setRes, hf.advance, hf.complete]
  simpa only [hdec] using hread s

/-! ### The commands that read no operand register -/

theorem execRdbits (n : Nat) (u : Signedness) (e : OrderSel) : Commutes f (execRdbits n u e) :=
  .ite (c := fun _ => n = 0) (fun _ => .rfl) (.next fun s => by rw [hf.setRes, hf.complete]) <|
  .ite (c := fun _ => 32 < n) (fun _ => .rfl) (hf.fail _) <|
  hf.withCapacity (hf.fieldNeeded n) <| hf.within (hf.fieldBytes n) <| .next fun s => by
    rw [hf.buf, hf.position, hf.effOrder, hf.setRes, hf.advanceBits, hf.complete]

theorem execRdf16 (e : OrderSel) : Commutes f (execRdf16 e) := hf.floatRead 2 e fun s => by rw [hf.inst]

theorem execRdf32 (e : OrderSel) : Commutes f (execRdf32 e) := hf.floatRead 4 e fun s => by rw [hf.inst]

theorem execRdf64 (e : OrderSel) : Commutes f (execRdf64 e) := hf.floatRead 8 e fun s => by rw [hf.inst]

/-! ### The commands that read `OPA` -/

variable (hopa : ∀ s, (f s).opa = s.opa)
include hopa

theorem execAlign : Commutes f execAlign :=
  .ite (c := fun s => s.opaNat = 0) (fun s => by rw [State.opaNat, State.opaNat, hopa]) (hf.fail _) <|
  hf.moveCursor fun s => by simp only [State.opaNat, hopa, hf.position, hf.curOff]

theorem execAlignrev : Commutes f execAlignrev :=
  .ite (c := fun s => s.opaNat = 0) (fun s => by rw [State.opaNat, State.opaNat, hopa]) (hf.fail _) <|
  hf.moveCursor fun s => by simp only [State.opaNat, hopa, hf.position, hf.curOff]

theorem execWrbits (n : Nat) (u : Signedness) (e : OrderSel) : Commutes f (execWrbits n u e) := by
  have hint (s : State) : (f s).opaInt = s.opaInt := by rw [State.opaInt, State.opaInt, hopa]
  exact .ite (c := fun _ => n < 1 ∨ 32 < n) (fun _ => .rfl) (hf.fail _) <|
    .ite (c := fun s => inRange s.opaInt n u = false) (fun s => by rw [hint]) (hf.fail _) <|
    hf.withCapacity (hf.fieldNeeded n) <| hf.within (hf.fieldBytes n) <| .next fun s => by
      rw [hint, hf.buf, hf.position, hf.effOrder, hf.setCells, hf.advanceBits, hf.complete]

theorem execWrf16 (e : OrderSel) : Commutes f (execWrf16 e) :=
  .ite (c := fun s => halfRangeOk s.inst.halfMax s.opa = false) (fun s => by rw [hf.inst, hopa]) (hf.fail _) <|
  hf.floatWrite 2 e fun s => by rw [hf.inst, hopa]

theorem execWrf32 (e : OrderSel) : Commutes f (execWrf32 e) := hf.floatWrite 4 e fun s => by rw [hf.inst, hopa]

theorem execWrf64 (e : OrderSel) : Commutes f (execWrf64 e) := hf.floatWrite 8 e fun s => by rw [hopa]

/-! ### The commands that read `OPA` and `OPB` -/

variable (hopb : ∀ s, (f s).opb = s.opb)
include hopb

theorem execSkip : Commutes f execSkip :=
  hf.moveCursor fun s => by simp only [State.opaInt, State.opbInt, hopa, hopb, hf.position]

theorem execGoto : Commutes f execGoto :=
  hf.moveCursor fun s => by simp only [State.opaNat, State.opbInt, hopa, hopb]

/-- An invisible change that keeps both operand registers goes through every command. -/
theorem exec (i : Instr) : Commutes f (exec i) :=
  match i with
  | .skip => hf.execSkip hopa hopb
  | .goto => hf.execGoto hopa hopb
  | .align => hf.execAlign hopa
  | .alignrev => hf.execAlignrev hopa
  | .wrbits n u e => hf.execWrbits hopa n u e
  | .rdbits n u e => hf.execRdbits n u e
  | .wrf16 e => hf.execWrf16 hopa e
  | .rdf16 e => hf.execRdf16 e
  | .wrf32 e => hf.execWrf32 hopa e
  | .rdf32 e => hf.execRdf32 e
  | .wrf64 e => hf.execWrf64 hopa e
  | .rdf64 e => hf.execRdf64 e

end Invisible

end Rules

/-! ### The held flags -/

/-- Set the two flags that are held only (10_state.md R17). -/
def State.setHeldFlags (a b : Bool) (s : State) : State :=
  { s with cfg := { s.cfg with enforceWide := a, errorDump := b } }

theorem invisible_setHeldFlags (a b : Bool) : Invisible (State.setHeldFlags a b) := by
  constructor <;> intros <;> rfl

/-- Settles O52: setting the held flags is an invisible change that keeps both operand registers. -/
theorem heldFlagsHaveNoEffect : Obligations.HeldFlagsHaveNoEffect := by
  intro i s t a b h
  have hcomm : exec i (s.setHeldFlags a b) = mapNext (State.setHeldFlags a b) (exec i s) :=
    (invisible_setHeldFlags a b).exec (fun _ => rfl) (fun _ => rfl) i s
  rw [h] at hcomm
  exact hcomm

end Sys2Proof.Machine
end

section
/-!
PROOFS. 20_memory.md R40 (O22): a buffer command is its argument checks and then its capacity check. A failed argument
check raises with no figure, a failed capacity check raises `OutOfBounds`; either way `raise` is all that happens.
-/

namespace Sys2Proof.Machine

open Sys2Proof

/-! ### A capacity check that fails -/

theorem withCapacity_of_none {needed : Nat} {s : State} (h : ensureCapacity needed s = none) (go : State → Result) :
    withCapacity needed s go = .next (s.raise .outOfBounds needed) := by
  rw [withCapacity, h]

/-- Strict mode never grows the buffer (20_memory.md R36). -/
theorem ensureCapacity_eq_none_of_strict {needed : Nat} {s : State} (hstrict : s.cfg.strict = true)
    (hshort : s.buf.size < needed) : ensureCapacity needed s = none := by
  rcases ensureCapacity_cases needed s with ⟨hle, -⟩ | ⟨-, hlax, -, -⟩ | ⟨-, -, hnone⟩
  · omega
  · exact absurd hstrict (by simp [hlax])
  · exact hnone

/-! ### The order of a buffer command's checks (60_exceptions.md R99) -/

theorem floatWrite_eq_withCapacity (w p : Nat) (e : OrderSel) (s : State) :
    ∃ go, floatWrite w p e s = withCapacity (s.curOff.toNat + w) s go :=
  ⟨_, by rw [floatWrite, State.floatNeeded_eq]⟩

theorem floatRead_eq_withCapacity (w : Nat) (dec : Nat → Word64) (e : OrderSel) (s : State) :
    ∃ go, floatRead w dec e s = withCapacity (s.curOff.toNat + w) s go :=
  ⟨_, by rw [floatRead, State.floatNeeded_eq]⟩

/-- Past its argument checks, a buffer command begins with the capacity check of its figure. -/
theorem exec_eq_withCapacity {i : Instr} {s : State} {needed : Nat} (hargs : argumentsOk i s = true)
    (hfig : capacityFigure i s = some needed) : ∃ go, exec i s = withCapacity needed s go := by
  cases i with
  | skip | goto | align | alignrev => cases hfig
  | wrbits n u e =>
    obtain rfl := Option.some.inj hfig
    obtain ⟨⟨hpos, hmax⟩, hrange⟩ : (1 ≤ n ∧ n ≤ 32) ∧ inRange s.opaInt n u = true := by
      simpa [argumentsOk] using hargs
    rw [← State.fieldNeeded_formula]
    exact ⟨_, by rw [exec, execWrbits, if_neg (by omega), if_neg (by simp [hrange])]⟩
  | rdbits n u e =>
    have hmax : n ≤ 32 := by simpa [argumentsOk] using hargs
    obtain ⟨hpos, rfl⟩ : n ≠ 0 ∧ s.curOff.toNat + (s.curBit.toNat + n + 7) / 8 = needed := by
      simpa [capacityFigure] using hfig
    rw [← State.fieldNeeded_formula]
    exact ⟨_, by rw [exec, execRdbits, if_neg hpos, if_neg (by omega)]⟩
  | wrf16 e =>
    obtain rfl := Option.some.inj hfig
    have hhalf : halfRangeOk s.inst.halfMax s.opa = true := hargs
    rw [exec, execWrf16, if_neg (by simp [hhalf])]
    exact floatWrite_eq_withCapacity 2 _ e s
  | wrf32 e => rw [exec, execWrf32, ← Option.some.inj hfig]; exact floatWrite_eq_withCapacity 4 _ e s
  | wrf64 e => rw [exec, execWrf64, ← Option.some.inj hfig]; exact floatWrite_eq_withCapacity 8 _ e s
  | rdf16 e => rw [exec, execRdf16, ← Option.some.inj hfig]; exact floatRead_eq_withCapacity 2 _ e s
  | rdf32 e => rw [exec, execRdf32, ← Option.some.inj hfig]; exact floatRead_eq_withCapacity 4 _ e s
  | rdf64 e => rw [exec, execRdf64, ← Option.some.inj hfig]; exact floatRead_eq_withCapacity 8 _ e s

/-- A command whose argument checks fail does nothing but raise. -/
theorem exec_of_argumentsOk_false {i : Instr} {s : State} (hargs : argumentsOk i s = false) :
    ∃ k, exec i s = .next (s.raise k 0) := by
  cases i with
  | skip | goto | align | alignrev | rdf16 | wrf32 | rdf32 | wrf64 | rdf64 => cases hargs
  | wrbits n u e =>
    rw [exec, execWrbits]
    by_cases hcount : n < 1 ∨ 32 < n
    · exact ⟨.invalidArgument, if_pos hcount⟩
    · have hrange : inRange s.opaInt n u = false := by
        have hok : 1 ≤ n ∧ n ≤ 32 := by omega
        simpa [argumentsOk, hok] using hargs
      exact ⟨.rangeError, by rw [if_neg hcount, if_pos hrange, fail]⟩
  | rdbits n u e =>
    have hlong : 32 < n := by simpa [argumentsOk] using hargs
    exact ⟨.invalidArgument, by rw [exec, execRdbits, if_neg (by omega), if_pos hlong, fail]⟩
  | wrf16 e => exact ⟨.rangeError, if_pos hargs⟩

/-! ### Past the size in strict mode -/

/-- A buffer command that passes its argument checks and not its capacity check does nothing but raise. -/
theorem exec_of_ensureCapacity_none {i : Instr} {s : State} {needed : Nat} (hargs : argumentsOk i s = true)
    (hfig : capacityFigure i s = some needed) (hnone : ensureCapacity needed s = none) :
    exec i s = .next (s.raise .outOfBounds needed) := by
  obtain ⟨go, hexec⟩ := exec_eq_withCapacity hargs hfig
  rw [hexec, withCapacity_of_none hnone]

/-- Settles O22: strict mode fails the capacity check, so the command only raises, whether or not its argument checks
pass, and `raise` keeps the buffer and the cursor. -/
theorem strictShortfallRaisesOutOfBounds : Obligations.StrictShortfallRaisesOutOfBounds := by
  intro i s needed hfig hshort hstrict
  have hraise (hargs : argumentsOk i s = true) : exec i s = .next (s.raise .outOfBounds needed) :=
    exec_of_ensureCapacity_none hargs hfig (ensureCapacity_eq_none_of_strict hstrict hshort)
  refine ⟨fun hargs => ⟨_, hraise hargs, raisedFrom_raise _ _ s⟩, ?_⟩
  cases hargs : argumentsOk i s with
  | true => exact ⟨_, hraise hargs, rfl, rfl, rfl⟩
  | false =>
    obtain ⟨k, hexec⟩ := exec_of_argumentsOk_false hargs
    exact ⟨_, hexec, rfl, rfl, rfl⟩

end Sys2Proof.Machine
end

section
/-!
PROOFS. 40_cursor.md R62 to R64 (O7, O8): `SKIP` and `GOTO` are cursor moves, each to its own target. A move to a
position of `[0, 2^67)` leaves the cursor on it, normalized; a move to any other only raises.
-/

namespace Sys2Proof.Machine

open Sys2Proof

/-! ### The cursor fields of a position -/

/-- The byte offset of a position below `2^67` fits its 64 bits (10_state.md R12). -/
theorem toNat_byteOffset {a : Int} (h0 : 0 ≤ a) (h67 : a < 2 ^ 67) :
    ((BitVec.ofNat 64 (a.toNat / 8)).toNat : Int) = a / 8 := by
  rw [BitVec.toNat_ofNat, Nat.mod_eq_of_lt (by omega), Int.natCast_div, Int.toNat_of_nonneg h0, Nat.cast_ofNat]

theorem toNat_bitOffset {a : Int} (h0 : 0 ≤ a) : ((BitVec.ofNat 3 (a.toNat % 8)).toNat : Int) = a % 8 := by
  rw [BitVec.toNat_ofNat, Nat.mod_eq_of_lt (by omega), Int.natCast_mod, Int.toNat_of_nonneg h0, Nat.cast_ofNat]

/-! ### A cursor move, inside the range and outside it -/

/-- `r` is what a command that moves the cursor of `s` to the position `a` answers (40_cursor.md R62): within
`[0, 2^67)` the cursor is `a`, normalized, and outside it `InvalidArgument` is raised; all else stays. -/
def MovesCursorTo (a : Int) (s : State) (r : Result) : Prop :=
  (0 ≤ a → a < 2 ^ 67 →
    ∃ t, r = .next t ∧ (t.curOff.toNat : Int) = a / 8 ∧ (t.curBit.toNat : Int) = a % 8 ∧
      t = { s with curOff := t.curOff, curBit := t.curBit, statusCode := 0 }) ∧
  (a < 0 ∨ 2 ^ 67 ≤ a → ∃ t, r = .next t ∧ RaisedFrom .invalidArgument 0 s t)

theorem movesCursorTo_moveCursor (a : Int) (s : State) : MovesCursorTo a s (moveCursor a s) := by
  rcases moveCursor_cases a s with ⟨hout, hraise⟩ | ⟨h0, h67, hset⟩
  · exact ⟨fun _ _ => by omega, fun _ => ⟨_, hraise, raisedFrom_raise _ _ s⟩⟩
  · exact ⟨fun _ _ => ⟨_, hset, toNat_byteOffset h0 h67, toNat_bitOffset h0, rfl⟩, fun hout => by omega⟩

/-! ### The targets of `SKIP` and `GOTO` -/

theorem exec_skip_eq_moveCursor (s : State) :
    exec .skip s = moveCursor ((s.curOff.toNat : Int) * 8 + s.curBit.toNat + s.opa.toInt * 8 + s.opb.toInt) s := by
  rw [exec, execSkip, State.position, State.opaInt, State.opbInt]
  push_cast
  rfl

theorem exec_goto_eq_moveCursor (s : State) :
    exec .goto s = moveCursor ((s.opa.toNat : Int) * 8 + s.opb.toInt) s := rfl

/-- Settles O7: `SKIP` is a cursor move to the sum of the position and the two signed operands. -/
theorem skipMovesCursor : Obligations.SkipMovesCursor := by
  rintro s a rfl
  rw [exec_skip_eq_moveCursor]
  exact movesCursorTo_moveCursor _ s

/-- Settles O8: `GOTO` is a cursor move to the sum of the unsigned and the signed operand. -/
theorem gotoSetsCursor : Obligations.GotoSetsCursor := by
  rintro s a rfl
  rw [exec_goto_eq_moveCursor]
  exact movesCursorTo_moveCursor _ s

end Sys2Proof.Machine
end

section
/-!
PROOFS. 41_bitcodec.md R67, R75 (O16): `WRBITS` checks its count, then its value against R67's range; each check that
fails only raises. Past both, it raises nothing but `OutOfBounds`.
-/

namespace Sys2Proof.Machine

open Sys2Proof

/-! ### The n-bit range (41_bitcodec.md R67) -/

theorem inRange_eq_true_iff (v : Int) (n : Nat) (u : Signedness) :
    inRange v n u = true ↔
      (u = .unsigned ∧ 0 ≤ v ∧ v ≤ 2 ^ n - 1) ∨ (u = .signed ∧ -2 ^ (n - 1) ≤ v ∧ v ≤ 2 ^ (n - 1) - 1) := by
  cases u with
  | unsigned => simp [inRange]
  | signed => simp [inRange]

theorem inRange_unsigned_eq_false_iff (v : Int) (n : Nat) :
    inRange v n .unsigned = false ↔ v < 0 ∨ 2 ^ n - 1 < v := by
  rw [inRange, decide_eq_false_iff_not, not_and_or, not_le, not_le]

theorem inRange_signed_eq_false_iff (v : Int) (n : Nat) :
    inRange v n .signed = false ↔ v < -2 ^ (n - 1) ∨ 2 ^ (n - 1) - 1 < v := by
  rw [inRange, decide_eq_false_iff_not, not_and_or, not_le, not_le]

/-! ### The checks of `WRBITS`, in their order (41_bitcodec.md R75) -/

theorem exec_wrbits_of_badCount {n : Nat} (u : Signedness) (e : OrderSel) (s : State) (hcount : n < 1 ∨ 32 < n) :
    exec (.wrbits n u e) s = .next (s.raise .invalidArgument 0) := by
  rw [exec, execWrbits, if_pos hcount, fail]

/-- The range check comes before the capacity check, so no premise speaks of the buffer. -/
theorem exec_wrbits_of_not_inRange {n : Nat} {u : Signedness} (e : OrderSel) {s : State} (h1 : 1 ≤ n) (h32 : n ≤ 32)
    (hrange : inRange s.opa.toInt n u = false) :
    exec (.wrbits n u e) s = .next (s.raise .rangeError 0) := by
  rw [exec, execWrbits, if_neg (by omega), State.opaInt, if_pos hrange, fail]

/-- Past both checks, `WRBITS` ends with `OutOfBounds` or completes. -/
theorem statusCode_of_exec_wrbits {n : Nat} {u : Signedness} {e : OrderSel} {s t : State} (h1 : 1 ≤ n) (h32 : n ≤ 32)
    (hrange : inRange s.opa.toInt n u = true) (ht : exec (.wrbits n u e) s = .next t) :
    t.statusCode = errorCode .outOfBounds ∨ t.statusCode = successCode := by
  rw [exec] at ht
  rcases execWrbits_cases e h1 h32 hrange with ⟨-, hraise⟩ | ⟨b, -, hdone⟩
  · obtain rfl := Host.Outcome.next.inj (hraise.symm.trans ht)
    exact .inl rfl
  · obtain rfl := Host.Outcome.next.inj (hdone.symm.trans ht)
    exact .inr rfl

/-- Settles O16: one clause per check that fails, and one for a command past both. -/
theorem wrbitsChecksCountThenRange : Obligations.WrbitsChecksCountThenRange := by
  intro s n u e
  refine ⟨fun hcount => ?badCount, fun h1 h32 hu hout => ?unsigned, fun h1 h32 hu hout => ?signed,
    fun h1 h32 hin t ht => ?inRange⟩
  case badCount => exact ⟨_, exec_wrbits_of_badCount u e s hcount, raisedFrom_raise _ _ s⟩
  case unsigned =>
    subst hu
    have hrange := (inRange_unsigned_eq_false_iff _ n).mpr hout
    exact ⟨_, exec_wrbits_of_not_inRange e h1 h32 hrange, raisedFrom_raise _ _ s⟩
  case signed =>
    subst hu
    have hrange := (inRange_signed_eq_false_iff _ n).mpr hout
    exact ⟨_, exec_wrbits_of_not_inRange e h1 h32 hrange, raisedFrom_raise _ _ s⟩
  case inRange =>
    have hrange := (inRange_eq_true_iff _ n u).mpr hin
    rcases statusCode_of_exec_wrbits h1 h32 hrange ht with hcode | hcode <;> rw [hcode] <;> decide

end Sys2Proof.Machine
end

section
/-!
PROOFS. 42_float.md R80 (O28): `Dec32` packs the magnitude of a finite single, a significand below `2^24` scaled by a
power of two. Binary64 holds every such product exactly.
-/

namespace Sys2Proof.Machine

open Sys2Proof

/-! ### Magnitudes that binary64 holds exactly (42_float.md R81) -/

theorem mul_two_pow_lt {m : Nat} (k : Nat) (hm : m < 2 ^ 53) : m * 2 ^ k < 2 ^ (53 + k) := by
  rw [Nat.pow_add]
  exact Nat.mul_lt_mul_of_pos_right hm (Nat.two_pow_pos k)

/-- A significand of at most 53 bits loses nothing when its product is cut to 53 bits. -/
theorem two_pow_log2_sub_dvd {m : Nat} (k : Nat) (hm : m < 2 ^ 53) : 2 ^ ((m * 2 ^ k).log2 - 52) ∣ m * 2 ^ k := by
  by_cases h0 : m = 0
  · simp [h0]
  · have hprod : m * 2 ^ k ≠ 0 := Nat.mul_ne_zero h0 (Nat.two_pow_pos k).ne'
    have hlog : (m * 2 ^ k).log2 < 53 + k := by
      rw [Nat.log2_lt hprod]
      exact mul_two_pow_lt k hm
    exact (Nat.pow_dvd_pow 2 (show _ ≤ k by omega)).trans (Nat.dvd_mul_left _ _)

/-- The significand has at most 53 bits, and 2045 = 1024 + 1074 - 53 keeps the product below `2^1024`. -/
theorem pack64_significand (sign : Bool) {m k : Nat} (hm : m < 2 ^ 53) (hk : k ≤ 2045) :
    sign64 (pack64 sign (m * 2 ^ k)) = sign ∧ exp64 (pack64 sign (m * 2 ^ k)) ≠ 2047 ∧
      magnitude64 (pack64 sign (m * 2 ^ k)) = m * 2 ^ k := by
  have hexp : 53 + k ≤ 1024 + 1074 := by omega
  have hlt : m * 2 ^ k < 2 ^ (1024 + 1074) :=
    (mul_two_pow_lt k hm).trans_le (pow_le_pow_right₀ one_le_two hexp)
  exact pack64_exact sign hlt (two_pow_log2_sub_dvd k hm)

theorem infinity64_eq (sign : Bool) :
    infinity64 sign = if sign then 0xFFF0000000000000#64 else 0x7FF0000000000000#64 := by
  cases sign <;> decide

/-! ### The three kinds of binary32 pattern (42_float.md R80) -/

theorem finite32_iff (w : BitVec 32) : finite32 w = true ↔ (w.extractLsb' 23 8).toNat ≠ 255 := by
  simp [finite32, ← BitVec.toNat_inj]

theorem isNaN32_iff (w : BitVec 32) :
    isNaN32 w = true ↔ (w.extractLsb' 23 8).toNat = 255 ∧ (w.extractLsb' 0 23).toNat ≠ 0 := by
  simp [isNaN32, ← BitVec.toNat_inj]

theorem dec32_of_finite (nan64d : Word64) {w : BitVec 32} (hfin : finite32 w = true) :
    dec32 nan64d w = pack64 (w.getLsbD 31) (magnitude32 w) := by
  simp only [dec32, if_neg ((finite32_iff w).mp hfin), magnitude32]
  split <;> rfl

theorem dec32_of_infinite (nan64d : Word64) {w : BitVec 32} (hexp : (w.extractLsb' 23 8).toNat = 255)
    (hfrac : (w.extractLsb' 0 23).toNat = 0) : dec32 nan64d w = infinity64 (w.getLsbD 31) := by
  simp only [dec32, if_pos hexp, if_pos hfrac]

theorem dec32_of_isNaN (nan64d : Word64) {w : BitVec 32} (hnan : isNaN32 w = true) : dec32 nan64d w = nan64d := by
  obtain ⟨hexp, hfrac⟩ := (isNaN32_iff w).mp hnan
  simp only [dec32, if_pos hexp, if_neg hfrac]

/-- A single's magnitude is a 24-bit significand scaled by a power of two, far inside the range of binary64. -/
theorem magnitude32_eq_significand (w : BitVec 32) :
    ∃ m k, m < 2 ^ 53 ∧ k ≤ 2045 ∧ magnitude32 w = m * 2 ^ k := by
  have hexp := (w.extractLsb' 23 8).isLt
  have hfrac := (w.extractLsb' 0 23).isLt
  rw [magnitude32]
  split
  · exact ⟨_, _, by omega, by omega, rfl⟩
  · exact ⟨_, _, by omega, by omega, rfl⟩

/-- Settles O28: one clause per kind of pattern; a finite one is packed without loss. -/
theorem singleDecodeIsExact : Obligations.SingleDecodeIsExact := by
  intro nan64d w
  refine ⟨fun hfin => ?finite, fun hinf hnan => ?infinite, dec32_of_isNaN nan64d⟩
  case finite =>
    obtain ⟨m, k, hm, hk, hmag⟩ := magnitude32_eq_significand w
    rw [dec32_of_finite nan64d hfin, hmag]
    exact pack64_significand _ hm hk
  case infinite =>
    have hexp : (w.extractLsb' 23 8).toNat = 255 := by simpa [hinf] using finite32_iff w
    have hfrac : (w.extractLsb' 0 23).toNat = 0 := by simpa [hnan, hexp] using isNaN32_iff w
    rw [dec32_of_infinite nan64d hexp hfrac, infinity64_eq]

end Sys2Proof.Machine
end

section
/-!
PROOFS. 42_float.md R86, R88 to R94 (O35, O36): a float write with capacity stores its pattern at `cur.off`, and raises
nothing but `OutOfBounds`. `WRF64` is such a write of `OPA` itself; `WRF16` first checks the operand against `HALF_MAX`.
-/

namespace Sys2Proof.Machine

open Sys2Proof

/-! ### Float writes (42_float.md R89) -/

/-- Below the top of the offset range an advance draws no free value. -/
theorem State.advance_eq_setCursor {bytes : Nat} (bit : Nat) {s : State} (h : s.curOff.toNat + bytes < 2 ^ 64) :
    s.advance bytes bit = s.setCursor (BitVec.ofNat 64 (s.curOff.toNat + bytes)) (BitVec.ofNat 3 bit) := by
  simp only [State.advance, State.setCursor, figure64_of_lt _ h, figureDraws_of_lt h, Nat.add_zero]

/-- With capacity, below the top of the offset range, a float write of any width and any pattern stores that pattern and
nothing else. -/
theorem storesPattern_floatWrite {w : Nat} (p : Nat) (e : OrderSel) {s : State}
    (hcap : hasCapacity (s.curOff.toNat + w) s = true) (htop : s.curOff.toNat + w < 2 ^ 64) :
    StoresPattern w p e s (floatWrite w p e s) := by
  have hbuf : ensureCapacity (s.floatNeeded w) s = some ⟨s.buf.cells, sizeAfter (s.curOff.toNat + w) s⟩ := by
    rw [State.floatNeeded_eq, ensureCapacity_of_hasCapacity hcap]
  rcases floatWrite_cases w p e s with ⟨hnone, -⟩ | ⟨b, hsome, hdone⟩
  · exact absurd (hnone.symm.trans hbuf) (by simp)
  · obtain rfl := Option.some.inj (hsome.symm.trans hbuf)
    refine ⟨_, hdone, figure64_toNat _ htop, rfl, rfl, fun i hi => ?stored, fun a ha => ?kept, ?frame⟩
    case stored =>
      have hlen : i < (layoutBytes (effOrder e s) p w).length := by simpa using hi
      simpa [Buffer.byte, getElem_layoutBytes] using
        Memory.read_writeBytes_inside s.buf.cells _ s.curOff.toNat i hlen
    case kept => exact Memory.read_writeBytes_outside _ _ _ (by simpa using ha)
    case frame =>
      rw [State.advance_eq_setCursor]
      · rfl
      · exact htop

theorem statusCode_of_floatWrite {w p : Nat} {e : OrderSel} {s t : State} (ht : floatWrite w p e s = .next t) :
    t.statusCode = errorCode .outOfBounds ∨ t.statusCode = successCode := by
  rcases floatWrite_cases w p e s with ⟨-, hraise⟩ | ⟨b, -, hdone⟩
  · obtain rfl := Host.Outcome.next.inj (hraise.symm.trans ht)
    exact .inl rfl
  · obtain rfl := Host.Outcome.next.inj (hdone.symm.trans ht)
    exact .inr rfl

/-! ### `WRF64` (42_float.md R94) -/

/-- `Enc64` is the identity (42_float.md R88), on NaN patterns too. -/
theorem exec_wrf64_eq_floatWrite (e : OrderSel) (s : State) : exec (.wrf64 e) s = floatWrite 8 s.opa.toNat e s := rfl

/-- Settles O35: `WRF64` is a float write of the operand's own pattern. -/
theorem wrf64StoresDouble : Obligations.Wrf64StoresDouble := by
  intro s e hcap htop
  rw [exec_wrf64_eq_floatWrite]
  exact storesPattern_floatWrite s.opa.toNat e hcap htop

/-! ### The range check of `WRF16` (42_float.md R86, R90) -/

/-- NaN and the infinities are the two kinds of pattern with exponent field 2047. -/
theorem isNaN64_or_isInf64 (d : Word64) : (isNaN64 d || isInf64 d) = decide (exp64 d = 2047) := by
  by_cases hfrac : frac64 d = 0 <;> simp [isNaN64, isInf64, hfrac]

theorem halfRangeOk_iff (halfMax : Nat) (d : Word64) :
    halfRangeOk halfMax d = true ↔ exp64 d = 2047 ∨ magnitude64 d ≤ halfMax * 2 ^ 1074 := by
  rw [halfRangeOk, isNaN64_or_isInf64, Bool.or_eq_true, decide_eq_true_eq, decide_eq_true_eq]

theorem exec_wrf16_of_out_of_range (e : OrderSel) {s : State} (hout : halfRangeOk s.inst.halfMax s.opa = false) :
    exec (.wrf16 e) s = .next (s.raise .rangeError 0) := by
  rw [exec, execWrf16, if_pos hout, fail]

theorem exec_wrf16_of_in_range (e : OrderSel) {s : State} (hok : halfRangeOk s.inst.halfMax s.opa = true) :
    exec (.wrf16 e) s = floatWrite 2 (enc16 s.inst.nan16 s.opa).toNat e s := by
  rw [exec, execWrf16, if_neg (by simp [hok])]

/-- Settles O36: a refused operand only raises `RangeError`; past the check `WRF16` is a float write, which never
does. -/
theorem wrf16RejectsBeyondHalfMax : Obligations.Wrf16RejectsBeyondHalfMax := by
  intro s e
  refine ⟨fun hfin hbig => ?refused, fun hpass t ht => ?passed⟩
  case refused =>
    have hout : halfRangeOk s.inst.halfMax s.opa = false := by
      rw [← Bool.not_eq_true, halfRangeOk_iff, not_or, Nat.not_le]
      exact ⟨hfin, hbig⟩
    exact ⟨_, exec_wrf16_of_out_of_range e hout, raisedFrom_raise _ _ s⟩
  case passed =>
    rw [exec_wrf16_of_in_range e ((halfRangeOk_iff _ _).mpr hpass)] at ht
    rcases statusCode_of_floatWrite ht with hcode | hcode <;> rw [hcode] <;> decide

end Sys2Proof.Machine
end

section
/-!
PROOFS. 60_exceptions.md R97, R100, R101 (O42, O44): every command ends in one of two ways, in every state. It does
nothing but raise, with a kind other than `UnsupportedOperation`, or it completes, with the success code. What a raising
command keeps and which codes there are then follow from `raise` and `complete` alone.
-/

namespace Sys2Proof.Machine

open Sys2Proof

/-- The two ends of a command that begins in `s`. -/
inductive RaisesOrCompletes (s : State) : Result → Prop where
  /-- It has done nothing but `raise K(needed)`, K one of the three kinds of 60_exceptions.md R100. -/
  | raised {k : ErrorKind} (needed : Nat) (hkind : k ≠ .unsupportedOperation) :
      RaisesOrCompletes s (.next (s.raise k needed))
  /-- Its last effect was `STATUS.CODE <- 0`. -/
  | completed (t : State) : RaisesOrCompletes s (.next t.complete)

namespace RaisesOrCompletes

/-! ### The shared operations -/

theorem fail {k : ErrorKind} (s : State) (hkind : k ≠ .unsupportedOperation) : RaisesOrCompletes s (fail k s) :=
  .raised 0 hkind

theorem moveCursor (a : Int) (s : State) : RaisesOrCompletes s (moveCursor a s) := by
  rcases moveCursor_cases a s with ⟨-, hraise⟩ | ⟨-, -, hset⟩
  · exact hraise ▸ .raised 0 (by decide)
  · exact hset ▸ .completed _

/-- What the laws say of a buffer command past its argument checks: `OutOfBounds`, or completion with the buffer `b`. -/
theorem of_capacity {s : State} {r : Result} {needed : Nat} {done : Buffer → State}
    (h : (ensureCapacity needed s = none ∧ r = .next (s.raise .outOfBounds needed)) ∨
      ∃ b, ensureCapacity needed s = some b ∧ r = .next (done b).complete) : RaisesOrCompletes s r := by
  rcases h with ⟨-, rfl⟩ | ⟨b, -, rfl⟩
  · exact .raised needed (by decide)
  · exact .completed (done b)

theorem floatWrite (w p : Nat) (e : OrderSel) (s : State) : RaisesOrCompletes s (floatWrite w p e s) :=
  .of_capacity (floatWrite_cases w p e s)

theorem floatRead (w : Nat) (dec : Nat → Word64) (e : OrderSel) (s : State) :
    RaisesOrCompletes s (floatRead w dec e s) :=
  .of_capacity (floatRead_cases w dec e s)

/-! ### The commands with argument checks -/

theorem execAlign (s : State) : RaisesOrCompletes s (execAlign s) := by
  by_cases hzero : s.opa.toNat = 0
  · exact execAlign_zero hzero ▸ .raised 0 (by decide)
  · exact execAlign_ne_zero hzero ▸ .moveCursor _ s

theorem execAlignrev (s : State) : RaisesOrCompletes s (execAlignrev s) := by
  by_cases hzero : s.opa.toNat = 0
  · exact execAlignrev_zero hzero ▸ .raised 0 (by decide)
  · exact execAlignrev_ne_zero hzero ▸ .moveCursor _ s

theorem execWrbits (n : Nat) (u : Signedness) (e : OrderSel) (s : State) :
    RaisesOrCompletes s (execWrbits n u e s) := by
  by_cases hcount : n < 1 ∨ 32 < n
  · rw [Machine.execWrbits, if_pos hcount]
    exact .fail s (by decide)
  cases hrange : inRange s.opaInt n u with
  | false =>
    rw [Machine.execWrbits, if_neg hcount, if_pos hrange]
    exact .fail s (by decide)
  | true => exact .of_capacity (execWrbits_cases e (by omega) (by omega) hrange)

theorem execRdbits (n : Nat) (u : Signedness) (e : OrderSel) (s : State) :
    RaisesOrCompletes s (execRdbits n u e s) := by
  by_cases hzero : n = 0
  · rw [Machine.execRdbits, if_pos hzero]
    exact .completed _
  by_cases hlong : 32 < n
  · rw [Machine.execRdbits, if_neg hzero, if_pos hlong]
    exact .fail s (by decide)
  · exact .of_capacity (execRdbits_cases u e (by omega) (by omega))

theorem execWrf16 (e : OrderSel) (s : State) : RaisesOrCompletes s (execWrf16 e s) := by
  rw [Machine.execWrf16]
  split
  case isTrue => exact .fail s (by decide)
  case isFalse => exact .floatWrite 2 _ e s

/-! ### Every command -/

theorem exec (i : Instr) (s : State) : RaisesOrCompletes s (exec i s) :=
  match i with
  | .skip => .moveCursor _ s
  | .goto => .moveCursor _ s
  | .align => .execAlign s
  | .alignrev => .execAlignrev s
  | .wrbits n u e => .execWrbits n u e s
  | .rdbits n u e => .execRdbits n u e s
  | .wrf16 e => .execWrf16 e s
  | .rdf16 e => .floatRead 2 (fun p => dec16 s.inst.nan64d (BitVec.ofNat 16 p)) e s
  | .wrf32 e => .floatWrite 4 _ e s
  | .rdf32 e => .floatRead 4 (fun p => dec32 s.inst.nan64d (BitVec.ofNat 32 p)) e s
  | .wrf64 e => .floatWrite 8 _ e s
  | .rdf64 e => .floatRead 8 (fun p => dec64 s.inst.nan64d (BitVec.ofNat 64 p)) e s

end RaisesOrCompletes

theorem raisesOrCompletes_of_exec {i : Instr} {s t : State} (ht : exec i s = .next t) :
    RaisesOrCompletes s (.next t) :=
  ht ▸ RaisesOrCompletes.exec i s

/-! ### What follows from the two ends -/

theorem errorCode_toNat_le_three {k : ErrorKind} (hkind : k ≠ .unsupportedOperation) : (errorCode k).toNat ≤ 3 := by
  cases k with
  | outOfBounds | rangeError | invalidArgument => decide
  | unsupportedOperation => exact absurd rfl hkind

/-- Settles O42: a command whose code is not 0 has not completed, so it has done nothing but `raise`. -/
theorem raisedErrorsArePrecise : Obligations.RaisedErrorsArePrecise := by
  intro i s t ht hcode
  cases raisesOrCompletes_of_exec ht with
  | raised needed hkind => rfl
  | completed t => exact absurd rfl hcode

/-- Settles O44: `raise` leaves the code of its kind, and completion leaves 0. -/
theorem commandsWriteCodesZeroToThree : Obligations.CommandsWriteCodesZeroToThree := by
  intro i s t ht
  cases raisesOrCompletes_of_exec ht with
  | raised needed hkind => exact errorCode_toNat_le_three hkind
  | completed t => exact Nat.zero_le 3

end Sys2Proof.Machine
end

section
/-!
PROOFS. 30_encoding.md R50 to R57 (O1 to O5): the opcode map said once. The opcode puts a word in one of four shapes
(cursor, bit or float command, unassigned), and each shape says which fields the command uses and what its word is. The
round trips, and which words are illegal, follow from the shape of a word and from its fields as numbers.
-/

namespace Sys2Proof

/-! ### The fields of a word -/

@[simp] theorem fieldOp_assembleWord (op : BitVec 8) (n : Nat) (u : BitVec 1) (e : BitVec 2) :
    fieldOp (assembleWord op n u e) = op := by
  obtain ⟨hop, -⟩ := fields_assembleWord op n u e
  exact hop

@[simp] theorem fieldN_assembleWord (op : BitVec 8) (n : Nat) (u : BitVec 1) (e : BitVec 2) :
    fieldN (assembleWord op n u e) = BitVec.ofNat 6 n := by
  obtain ⟨-, hn, -⟩ := fields_assembleWord op n u e
  exact BitVec.eq_of_toNat_eq hn

@[simp] theorem fieldU_assembleWord (op : BitVec 8) (n : Nat) (u : BitVec 1) (e : BitVec 2) :
    fieldU (assembleWord op n u e) = u := by
  obtain ⟨-, -, hu, -⟩ := fields_assembleWord op n u e
  exact hu

@[simp] theorem fieldE_assembleWord (op : BitVec 8) (n : Nat) (u : BitVec 1) (e : BitVec 2) :
    fieldE (assembleWord op n u e) = e := by
  obtain ⟨-, -, -, he, -⟩ := fields_assembleWord op n u e
  exact he

@[simp] theorem fieldRsv_assembleWord (op : BitVec 8) (n : Nat) (u : BitVec 1) (e : BitVec 2) :
    fieldRsv (assembleWord op n u e) = 0 := by
  obtain ⟨-, -, -, -, hr⟩ := fields_assembleWord op n u e
  exact hr

/-- A word with `RSV = 0` is put together from its other fields. -/
theorem assembleWord_fields {w : Word32} (hrsv : fieldRsv w = 0) :
    assembleWord (fieldOp w) (fieldN w).toNat (fieldU w) (fieldE w) = w :=
  word_ext_fields (by simp) (by simp) (by simp) (by simp) (by simp [hrsv])

/-! ### What a word's opcode makes of it (30_encoding.md R51, R56) -/

/-- What the opcode map answers for a word with `RSV = 0`, by the kind of its opcode. `hword` is the word of the command
it names. -/
inductive OpcodeShape (w : Word32) : Decoded → Prop where
  | cursor {i : Instr} (hop : (fieldOp w).toNat ∈ [0x01, 0x02, 0x03, 0x04]) (hwf : i.WellFormed)
      (hword : encode i = assembleWord (fieldOp w) 0 0 0) : OpcodeShape w (decodeCursor w i)
  | bits {mk : Nat → Signedness → OrderSel → Instr} (hop : (fieldOp w).toNat ∈ [0x10, 0x11])
      (hwf : ∀ n u e, n < 64 → (mk n u e).WellFormed)
      (hword : ∀ n u e, encode (mk n u e) = assembleWord (fieldOp w) n (signednessBits u) (orderBits e)) :
      OpcodeShape w (decodeBits w mk)
  | float {mk : OrderSel → Instr} (hop : (fieldOp w).toNat ∈ [0x20, 0x21, 0x22, 0x23, 0x24, 0x25])
      (hwf : ∀ e, (mk e).WellFormed) (hword : ∀ e, encode (mk e) = assembleWord (fieldOp w) 0 0 (orderBits e)) :
      OpcodeShape w (decodeFloat w mk)
  | unassigned
      (hop : (fieldOp w).toNat ∉ [0x01, 0x02, 0x03, 0x04, 0x10, 0x11, 0x20, 0x21, 0x22, 0x23, 0x24, 0x25]) :
      OpcodeShape w (.illegal .unassignedOpcode)

theorem wellFormed_wrbits (n : Nat) (u : Signedness) (e : OrderSel) (hn : n < 64) : (Instr.wrbits n u e).WellFormed :=
  decide_eq_true hn

theorem wellFormed_rdbits (n : Nat) (u : Signedness) (e : OrderSel) (hn : n < 64) : (Instr.rdbits n u e).WellFormed :=
  decide_eq_true hn

theorem OpcodeShape.ite {w : Word32} {op : BitVec 8} {x y : Decoded} (hx : fieldOp w = op → OpcodeShape w x)
    (hy : fieldOp w ≠ op → OpcodeShape w y) : OpcodeShape w (if fieldOp w = op then x else y) := by
  by_cases h : fieldOp w = op
  · exact if_pos h ▸ hx h
  · exact if_neg h ▸ hy h

theorem opcodeShape_decodeOp (w : Word32) : OpcodeShape w (decodeOp w) := by
  rw [decodeOp]
  refine .ite (fun h => .cursor (by rw [h]; decide) rfl (by rw [h, encode])) fun h1 => ?_
  refine .ite (fun h => .cursor (by rw [h]; decide) rfl (by rw [h, encode])) fun h2 => ?_
  refine .ite (fun h => .cursor (by rw [h]; decide) rfl (by rw [h, encode])) fun h3 => ?_
  refine .ite (fun h => .cursor (by rw [h]; decide) rfl (by rw [h, encode])) fun h4 => ?_
  refine .ite (fun h => .bits (by rw [h]; decide) wellFormed_wrbits fun _ _ _ => by rw [h, encode]) fun h5 => ?_
  refine .ite (fun h => .bits (by rw [h]; decide) wellFormed_rdbits fun _ _ _ => by rw [h, encode]) fun h6 => ?_
  refine .ite (fun h => .float (by rw [h]; decide) (fun _ => rfl) fun _ => by rw [h, encode]) fun h7 => ?_
  refine .ite (fun h => .float (by rw [h]; decide) (fun _ => rfl) fun _ => by rw [h, encode]) fun h8 => ?_
  refine .ite (fun h => .float (by rw [h]; decide) (fun _ => rfl) fun _ => by rw [h, encode]) fun h9 => ?_
  refine .ite (fun h => .float (by rw [h]; decide) (fun _ => rfl) fun _ => by rw [h, encode]) fun h10 => ?_
  refine .ite (fun h => .float (by rw [h]; decide) (fun _ => rfl) fun _ => by rw [h, encode]) fun h11 => ?_
  refine .ite (fun h => .float (by rw [h]; decide) (fun _ => rfl) fun _ => by rw [h, encode]) fun h12 => ?_
  refine .unassigned fun hop => ?_
  simp [← BitVec.toNat_inj] at h1 h2 h3 h4 h5 h6 h7 h8 h9 h10 h11 h12 hop
  omega

/-- With `RSV = 0` and a legal `E`, decoding is the opcode map. -/
theorem decode_eq_decodeOp {w : Word32} (hrsv : fieldRsv w = 0) (horder : fieldE w ≠ 3) : decode w = decodeOp w := by
  rw [decode, if_neg (by simp [hrsv]), if_neg horder]

/-- A word that decodes has passed the two checks before the opcode map. -/
theorem decode_eq_command {w : Word32} {i : Instr} (h : decode w = .command i) :
    fieldRsv w = 0 ∧ fieldE w ≠ 3 ∧ decodeOp w = .command i := by
  rw [decode] at h
  split_ifs at h with hrsv horder
  exact ⟨not_not.mp hrsv, horder, h⟩

/-! ### The round trips -/

/-- The checks before the opcode map pass for the word of every command. -/
theorem decode_encode_eq_decodeOp (i : Instr) : decode (encode i) = decodeOp (encode i) := by
  have hclear : Laws.ReservedClear.Statement i :=
    match i with
    | .skip => Laws.ReservedClear.skip
    | .goto => Laws.ReservedClear.goto
    | .align => Laws.ReservedClear.align
    | .alignrev => Laws.ReservedClear.alignrev
    | .wrbits n u e => Laws.ReservedClear.wrbits n u e
    | .rdbits n u e => Laws.ReservedClear.rdbits n u e
    | .wrf16 e => Laws.ReservedClear.wrf16 e
    | .rdf16 e => Laws.ReservedClear.rdf16 e
    | .wrf32 e => Laws.ReservedClear.wrf32 e
    | .rdf32 e => Laws.ReservedClear.rdf32 e
    | .wrf64 e => Laws.ReservedClear.wrf64 e
    | .rdf64 e => Laws.ReservedClear.rdf64 e
  exact decode_eq_decodeOp hclear.1 hclear.2

theorem decodeCursor_assembleWord (op : BitVec 8) (i : Instr) :
    decodeCursor (assembleWord op 0 0 0) i = .command i := by
  simp [decodeCursor]

theorem decodeBits_assembleWord (op : BitVec 8) {n : Nat} (u : Signedness) (e : OrderSel)
    (mk : Nat → Signedness → OrderSel → Instr) (hn : n < 64) :
    decodeBits (assembleWord op n (signednessBits u) (orderBits e)) mk = .command (mk n u e) := by
  simp [decodeBits, Nat.mod_eq_of_lt hn]

theorem decodeFloat_assembleWord (op : BitVec 8) (e : OrderSel) (mk : OrderSel → Instr) :
    decodeFloat (assembleWord op 0 0 (orderBits e)) mk = .command (mk e) := by
  simp [decodeFloat]

/-- Settles O1: the word of a command has the command's opcode and the fields its decoder reads. -/
theorem decodeEncodeRoundTrip : Obligations.DecodeEncodeRoundTrip := by
  intro i hwf
  rw [decode_encode_eq_decodeOp]
  cases i with
  | skip | goto | align | alignrev =>
    simp [encode, decodeOp]
    exact decodeCursor_assembleWord _ _
  | wrbits n u e | rdbits n u e =>
    simp [encode, decodeOp]
    exact decodeBits_assembleWord _ u e _ (of_decide_eq_true hwf)
  | wrf16 e | rdf16 e | wrf32 e | rdf32 e | wrf64 e | rdf64 e =>
    simp [encode, decodeOp]
    exact decodeFloat_assembleWord _ e _

theorem decodeCursor_eq_command_iff {w : Word32} {i j : Instr} :
    decodeCursor w j = .command i ↔ (fieldN w = 0 ∧ fieldU w = 0 ∧ fieldE w = 0) ∧ j = i := by
  rw [decodeCursor]
  split
  case isTrue h => simp [h]
  case isFalse h => exact ⟨nofun, fun hr => absurd hr.1 h⟩

theorem decodeFloat_eq_command_iff {w : Word32} {i : Instr} {mk : OrderSel → Instr} :
    decodeFloat w mk = .command i ↔ (fieldN w = 0 ∧ fieldU w = 0) ∧ mk (orderSelOf (fieldE w)) = i := by
  rw [decodeFloat]
  split
  case isTrue h => simp [h]
  case isFalse h => exact ⟨nofun, fun hr => absurd hr.1 h⟩

/-- Settles O2: in each shape the command's word has the fields of the word decoded: those it uses are read from it, and
the others are 0 in both. -/
theorem encodeDecodeRoundTrip : Obligations.EncodeDecodeRoundTrip := by
  intro w i h
  obtain ⟨hrsv, horder, hop⟩ := decode_eq_command h
  have hfields := assembleWord_fields hrsv
  generalize hd : decodeOp w = d at hop
  cases hd ▸ opcodeShape_decodeOp w with
  | cursor _ hwf hword =>
    obtain ⟨⟨hN, hU, hE⟩, rfl⟩ := decodeCursor_eq_command_iff.mp hop
    rw [hN, hU, hE] at hfields
    exact ⟨hwf, hword.trans hfields⟩
  | bits _ hwf hword =>
    obtain rfl := Decoded.command.inj hop
    refine ⟨hwf _ _ _ (fieldN w).isLt, ?_⟩
    rw [hword, signednessBits_of, orderBits_of horder, hfields]
  | float _ hwf hword =>
    obtain ⟨⟨hN, hU⟩, rfl⟩ := decodeFloat_eq_command_iff.mp hop
    rw [hN, hU] at hfields
    refine ⟨hwf _, ?_⟩
    rw [hword, orderBits_of horder]
    exact hfields
  | unassigned _ => cases hop

/-! ### Words as numbers (30_encoding.md R50) -/

/-- Settles O3: every command's word is put together from its fields, which are the terms of the sum. -/
theorem commandWordsAreFieldSums : Obligations.CommandWordsAreFieldSums := by
  refine ⟨fun n u e hn => ?bits, fun e => ?float, by decide, by decide, by decide, by decide⟩
  case bits => simp [encode, assembleWord_toNat, Nat.mod_eq_of_lt hn]
  case float => simp [encode, assembleWord_toNat]

theorem fieldOp_toNat (w : Word32) : (fieldOp w).toNat = w.toNat % 2 ^ 8 := by
  simp [fieldOp]

theorem fieldN_eq_zero_iff (w : Word32) : fieldN w = 0 ↔ w.toNat / 2 ^ 8 % 2 ^ 6 = 0 := by
  simp [fieldN, ← BitVec.toNat_inj, Nat.shiftRight_eq_div_pow]

theorem fieldU_eq_zero_iff (w : Word32) : fieldU w = 0 ↔ w.toNat / 2 ^ 14 % 2 = 0 := by
  simp [fieldU, ← BitVec.toNat_inj, Nat.shiftRight_eq_div_pow]

theorem fieldE_eq_iff (w : Word32) (e : BitVec 2) : fieldE w = e ↔ w.toNat / 2 ^ 15 % 4 = e.toNat := by
  simp [fieldE, ← BitVec.toNat_inj, Nat.shiftRight_eq_div_pow]

theorem fieldRsv_eq_zero_iff (w : Word32) : fieldRsv w = 0 ↔ w.toNat / 2 ^ 17 = 0 := by
  have hlt : w.toNat / 2 ^ 17 < 2 ^ 15 := by omega
  rw [← BitVec.toNat_inj, fieldRsv, BitVec.extractLsb'_toNat, Nat.shiftRight_eq_div_pow, Nat.mod_eq_of_lt hlt]
  rfl

/-! ### Illegal words (30_encoding.md R57) -/

theorem decodeCursor_eq_illegal_iff (w : Word32) (i : Instr) :
    (∃ why, decodeCursor w i = .illegal why) ↔ ¬ (fieldN w = 0 ∧ fieldU w = 0 ∧ fieldE w = 0) := by
  rw [decodeCursor]
  split
  case isTrue h => simp [h]
  case isFalse h => exact iff_of_true ⟨_, rfl⟩ h

theorem decodeFloat_eq_illegal_iff (w : Word32) (mk : OrderSel → Instr) :
    (∃ why, decodeFloat w mk = .illegal why) ↔ ¬ (fieldN w = 0 ∧ fieldU w = 0) := by
  rw [decodeFloat]
  split
  case isTrue h => simp [h]
  case isFalse h => exact iff_of_true ⟨_, rfl⟩ h

/-- The grounds of 30_encoding.md R57 but the first, for a word of opcode `op` and field `E = x`, whose bits above the
opcode are `y` and of which fields `N` and `U` are `z`. -/
def IllegalGrounds (op x y z : Nat) : Prop :=
  op ∉ [0x01, 0x02, 0x03, 0x04, 0x10, 0x11, 0x20, 0x21, 0x22, 0x23, 0x24, 0x25] ∨
  x = 3 ∨
  (op ∈ [0x01, 0x02, 0x03, 0x04] ∧ y ≠ 0) ∨
  (op ∈ [0x20, 0x21, 0x22, 0x23, 0x24, 0x25] ∧ z ≠ 0)

theorem illegalGrounds_cursor {op x : Nat} (y z : Nat) (hop : op ∈ [0x01, 0x02, 0x03, 0x04]) (hx : x ≠ 3) :
    IllegalGrounds op x y z ↔ y ≠ 0 := by
  fin_cases hop <;> simp [IllegalGrounds, hx]

theorem illegalGrounds_bits {op x : Nat} (y z : Nat) (hop : op ∈ [0x10, 0x11]) (hx : x ≠ 3) :
    ¬ IllegalGrounds op x y z := by
  fin_cases hop <;> simp [IllegalGrounds, hx]

theorem illegalGrounds_float {op x : Nat} (y z : Nat) (hop : op ∈ [0x20, 0x21, 0x22, 0x23, 0x24, 0x25]) (hx : x ≠ 3) :
    IllegalGrounds op x y z ↔ z ≠ 0 := by
  fin_cases hop <;> simp [IllegalGrounds, hx]

/-- The grounds of 30_encoding.md R57, in terms of the word as a number. -/
theorem decode_eq_illegal_iff (w : Word32) :
    (∃ why, decode w = .illegal why) ↔
      w.toNat / 2 ^ 17 ≠ 0 ∨
        IllegalGrounds (w.toNat % 2 ^ 8) (w.toNat / 2 ^ 15 % 4) (w.toNat / 2 ^ 8) (w.toNat / 2 ^ 8 % 2 ^ 7) := by
  by_cases hrsv : fieldRsv w = 0
  case neg => exact iff_of_true ⟨_, if_pos hrsv⟩ (.inl (mt (fieldRsv_eq_zero_iff w).mpr hrsv))
  by_cases horder : fieldE w = 3
  case pos =>
    exact iff_of_true ⟨_, by rw [decode, if_neg (not_not.mpr hrsv), if_pos horder]⟩
      (.inr (.inr (.inl ((fieldE_eq_iff w 3).mp horder))))
  rw [decode_eq_decodeOp hrsv horder]
  rw [fieldRsv_eq_zero_iff] at hrsv
  have hcursor : fieldN w = 0 ∧ fieldU w = 0 ∧ fieldE w = 0 ↔ w.toNat / 2 ^ 8 = 0 := by
    rw [fieldN_eq_zero_iff, fieldU_eq_zero_iff, fieldE_eq_iff, show (0 : BitVec 2).toNat = 0 from rfl]
    omega
  have hfloat : fieldN w = 0 ∧ fieldU w = 0 ↔ w.toNat / 2 ^ 8 % 2 ^ 7 = 0 := by
    rw [fieldN_eq_zero_iff, fieldU_eq_zero_iff]
    omega
  have horder : w.toNat / 2 ^ 15 % 4 ≠ 3 := mt (fieldE_eq_iff w 3).mpr horder
  rw [hrsv, ne_self_iff_false, false_or]
  generalize hd : decodeOp w = d
  cases hd ▸ opcodeShape_decodeOp w with
  | cursor hop =>
    rw [decodeCursor_eq_illegal_iff, hcursor]
    rw [fieldOp_toNat] at hop
    exact (illegalGrounds_cursor _ _ hop horder).symm
  | bits hop =>
    rw [fieldOp_toNat] at hop
    exact iff_of_false nofun (illegalGrounds_bits _ _ hop horder)
  | float hop =>
    rw [decodeFloat_eq_illegal_iff, hfloat]
    rw [fieldOp_toNat] at hop
    exact (illegalGrounds_float _ _ hop horder).symm
  | unassigned hop =>
    rw [fieldOp_toNat] at hop
    exact iff_of_true ⟨_, rfl⟩ (.inl hop)

/-- Settles O5: each word is evaluated. -/
theorem wordsDecodeAsTabled : Obligations.WordsDecodeAsTabled := by
  refine ⟨?_, ?_, ?_, ?_, ?_, ?_, ?_⟩ <;> decide

end Sys2Proof

namespace Sys2Proof.Machine

open Sys2Proof

/-! ### The step of an illegal word -/

theorem step_of_pending {s : State} {a : HostAccess} {rest : List HostAccess} (h : s.pending = a :: rest) :
    step s = hostAccess a (s.setPending rest) := by
  rw [step, stepHost, h]

/-- The step of a host write to `CMD` (10_state.md R19), which takes the low 32 bits. -/
theorem step_of_cmd_write {s t : State} {v : Word64} {rest : List HostAccess} (h : s.pending = .write 0x0 v :: rest)
    (ht : execDecoded (decode (v.setWidth 32)) ((s.setPending rest).setCmd (v.setWidth 32)) = .next t) :
    step s = .next (t.logEvent (commandEvent (decode (v.setWidth 32)) t) 0) :=
  (step_of_pending h).trans (hostCommand_next ht)

/-- Settles O4: the grounds are those of the word as a number, and an illegal word does nothing but raise. -/
theorem illegalWordsRaiseInvalidArgument : Obligations.IllegalWordsRaiseInvalidArgument := by
  intro w
  refine ⟨decode_eq_illegal_iff w, fun ⟨why, hwhy⟩ s rest hpending => ?_⟩
  have hw : (w.setWidth 64).setWidth 32 = w := by simp
  have hstep := step_of_cmd_write (t := ((s.setPending rest).setCmd w).raise .invalidArgument 0) hpending
    (by rw [hw, hwhy]; rfl)
  rw [hw, hwhy] at hstep
  exact ⟨_, hstep, raisedFrom_raise _ _ _⟩

end Sys2Proof.Machine
end

section
/-!
PROOFS. 60_exceptions.md R99 to R103 (O43, O45, O50, O51): one inversion lemma for all commands. A command refuses its
arguments, or raises `OutOfBounds`, or ends in one of four effects; each end carries what is known of the capacity
figure there. What a command keeps, what it may write and what the error registers say are read off its end.
-/

namespace Sys2Proof.Machine

open Sys2Proof

/-! ### Memory that changes in one range only -/

/-- `m'` is `m` but for the bytes `lo .. hi-1`, and is as canonical as `m`. -/
structure ConfinedTo (lo hi : Nat) (m m' : Memory) : Prop where
  wf : m.wf = true → m'.wf = true
  below : ∀ size, hi ≤ size → (∀ c ∈ m, c.1 < size) → ∀ c ∈ m', c.1 < size
  outside : ∀ a, a < lo ∨ hi ≤ a → m'.read a = m.read a

theorem confinedTo_writeBytes (m : Memory) (addr : Nat) (bytes : List Byte) :
    ConfinedTo addr (addr + bytes.length) m (m.writeBytes addr bytes) where
  wf h := Memory.wf_writeBytes h addr bytes
  below _ hhi h := Memory.below_writeBytes bytes h hhi
  outside _ h := Memory.read_writeBytes_outside m bytes addr h

theorem confinedTo_writeField (e : Endian) (p n q : Nat) (m : Memory) :
    ConfinedTo (q / 8) ((q + n + 7) / 8) m (writeField e p n q m) where
  wf h := writeLoop_wf e p n n q 0 h
  below _ hhi h := writeLoop_below e p n n q 0 _ h (by omega)
  outside _ h := writeLoop_outside e p n n q 0 m (by omega)

/-! ### The ends of a command -/

/-- The states in which the command `i` that begins in `s` can end. -/
inductive CommandEnd (i : Instr) (s : State) : State → Prop where
  /-- It refused its arguments, as far as a buffer command is concerned. -/
  | refused {k : ErrorKind} (hkind : k = .rangeError ∨ k = .invalidArgument)
      (hargs : argumentsOk i s = true → capacityFigure i s = none) : CommandEnd i s (s.raise k 0)
  /-- Its capacity check failed. -/
  | outOfBounds {needed : Nat} (hfig : capacityFigure i s = some needed) (hnone : ensureCapacity needed s = none) :
      CommandEnd i s (s.raise .outOfBounds needed)
  /-- A cursor command moved the cursor. -/
  | moved (off : Word64) (bit : BitVec 3) (hfig : capacityFigure i s = none) (hres : writesRes i = false) :
      CommandEnd i s (s.setCursor off bit).complete
  /-- `RDBITS` read no bit (41_bitcodec.md R76). -/
  | readNothing (hfig : capacityFigure i s = none) (hres : writesRes i = true) : CommandEnd i s (s.setRes 0).complete
  /-- A write command stored below its figure. -/
  | stored {needed : Nat} {b : Buffer} {m : Memory} (bytes bit : Nat) (hfig : capacityFigure i s = some needed)
      (hsome : ensureCapacity needed s = some b) (hres : writesRes i = false)
      (hm : ConfinedTo s.curOff.toNat needed b.cells m) :
      CommandEnd i s (((s.setBuf b).setCells m).advance bytes bit).complete
  /-- A read command loaded `RES`. -/
  | loaded {needed : Nat} {b : Buffer} (v : Word64) (bytes bit : Nat) (hfig : capacityFigure i s = some needed)
      (hsome : ensureCapacity needed s = some b) (hres : writesRes i = true) :
      CommandEnd i s (((s.setBuf b).setRes v).advance bytes bit).complete

/-- The command `i` in `s` has an end, which is what `r` answers. -/
def Ends (i : Instr) (s : State) (r : Result) : Prop := ∃ t, r = .next t ∧ CommandEnd i s t

theorem ends_raise {i : Instr} {s : State} {k : ErrorKind} (hkind : k = .rangeError ∨ k = .invalidArgument)
    (hargs : argumentsOk i s = true → capacityFigure i s = none) : Ends i s (.next (s.raise k 0)) :=
  ⟨_, rfl, .refused hkind hargs⟩

theorem ends_moveCursor {i : Instr} {s : State} (hfig : capacityFigure i s = none) (hres : writesRes i = false)
    (a : Int) : Ends i s (moveCursor a s) := by
  rcases moveCursor_cases a s with ⟨-, hraise⟩ | ⟨-, -, hset⟩
  · exact hraise ▸ ends_raise (.inr rfl) fun _ => hfig
  · exact ⟨_, hset, .moved _ _ hfig hres⟩

theorem ends_floatWrite {i : Instr} {s : State} {w : Nat} (p : Nat) (e : OrderSel)
    (hfig : capacityFigure i s = some (s.curOff.toNat + w)) (hres : writesRes i = false) :
    Ends i s (floatWrite w p e s) := by
  rw [← State.floatNeeded_eq] at hfig
  rcases floatWrite_cases w p e s with ⟨hnone, hraise⟩ | ⟨b, hsome, hdone⟩
  · exact ⟨_, hraise, .outOfBounds hfig hnone⟩
  · have hm := confinedTo_writeBytes b.cells s.curOff.toNat (layoutBytes (effOrder e s) p w)
    rw [length_layoutBytes, ← State.floatNeeded_eq] at hm
    exact ⟨_, hdone, .stored w 0 hfig hsome hres hm⟩

theorem ends_floatRead {i : Instr} {s : State} {w : Nat} (dec : Nat → Word64) (e : OrderSel)
    (hfig : capacityFigure i s = some (s.curOff.toNat + w)) (hres : writesRes i = true) :
    Ends i s (floatRead w dec e s) := by
  rw [← State.floatNeeded_eq] at hfig
  rcases floatRead_cases w dec e s with ⟨hnone, hraise⟩ | ⟨b, hsome, hdone⟩
  · exact ⟨_, hraise, .outOfBounds hfig hnone⟩
  · exact ⟨_, hdone, .loaded _ w 0 hfig hsome hres⟩

theorem ends_execAlign (s : State) : Ends .align s (execAlign s) := by
  by_cases hzero : s.opa.toNat = 0
  · exact execAlign_zero hzero ▸ ends_raise (.inr rfl) fun _ => rfl
  · exact execAlign_ne_zero hzero ▸ ends_moveCursor rfl rfl _

theorem ends_execAlignrev (s : State) : Ends .alignrev s (execAlignrev s) := by
  by_cases hzero : s.opa.toNat = 0
  · exact execAlignrev_zero hzero ▸ ends_raise (.inr rfl) fun _ => rfl
  · exact execAlignrev_ne_zero hzero ▸ ends_moveCursor rfl rfl _

/-- The bytes a field touches are those from `cur.off` to below its figure. -/
theorem confinedTo_writeField_fieldNeeded (e : Endian) (p n : Nat) (s : State) (m : Memory) :
    ConfinedTo s.curOff.toNat (s.fieldNeeded n) m (writeField e p n s.position m) := by
  have hm := confinedTo_writeField e p n s.position m
  have hbit := s.curBit.isLt
  have hlo : s.position / 8 = s.curOff.toNat := by
    rw [State.position]
    omega
  have hhi : (s.position + n + 7) / 8 = s.fieldNeeded n := by
    rw [State.position, State.fieldNeeded_formula]
    omega
  rwa [hlo, hhi] at hm

theorem ends_execWrbits (n : Nat) (u : Signedness) (e : OrderSel) (s : State) :
    Ends (.wrbits n u e) s (execWrbits n u e s) := by
  by_cases hcount : n < 1 ∨ 32 < n
  · have hargs : argumentsOk (.wrbits n u e) s = false := by
      simp [argumentsOk]
      omega
    rw [execWrbits, if_pos hcount]
    exact ends_raise (.inr rfl) (by simp [hargs])
  cases hrange : inRange s.opaInt n u with
  | false =>
    rw [execWrbits, if_neg hcount, if_pos hrange]
    exact ends_raise (.inl rfl) (by simp [argumentsOk, hrange])
  | true =>
    have hfig : capacityFigure (.wrbits n u e) s = some (s.fieldNeeded n) := by
      rw [State.fieldNeeded_formula, capacityFigure]
    rcases execWrbits_cases e (by omega) (by omega) hrange with ⟨hnone, hraise⟩ | ⟨b, hsome, hdone⟩
    · exact ⟨_, hraise, .outOfBounds hfig hnone⟩
    · exact ⟨_, hdone, .stored _ _ hfig hsome rfl (confinedTo_writeField_fieldNeeded _ _ _ _ _)⟩

theorem ends_execRdbits (n : Nat) (u : Signedness) (e : OrderSel) (s : State) :
    Ends (.rdbits n u e) s (execRdbits n u e s) := by
  by_cases hzero : n = 0
  · rw [execRdbits, if_pos hzero]
    exact ⟨_, rfl, .readNothing (if_pos hzero) rfl⟩
  by_cases hlong : 32 < n
  · rw [execRdbits, if_neg hzero, if_pos hlong]
    exact ends_raise (.inr rfl) fun hargs => absurd (of_decide_eq_true hargs) hlong.not_ge
  · have hfig : capacityFigure (.rdbits n u e) s = some (s.fieldNeeded n) := by
      rw [State.fieldNeeded_formula, capacityFigure, if_neg hzero]
    have hpos : 1 ≤ n := Nat.pos_of_ne_zero hzero
    rcases execRdbits_cases u e hpos (Nat.le_of_not_lt hlong) with ⟨hnone, hraise⟩ | ⟨b, hsome, hdone⟩
    · exact ⟨_, hraise, .outOfBounds hfig hnone⟩
    · exact ⟨_, hdone, .loaded _ _ _ hfig hsome rfl⟩

theorem ends_execWrf16 (e : OrderSel) (s : State) : Ends (.wrf16 e) s (execWrf16 e s) := by
  rw [execWrf16]
  split
  case isTrue hout => exact ends_raise (.inl rfl) (by simp [argumentsOk, hout])
  case isFalse => exact ends_floatWrite _ e rfl rfl

/-- Every command, in every state, ends in one of the ways of `CommandEnd`. -/
theorem ends_exec (i : Instr) (s : State) : Ends i s (exec i s) :=
  match i with
  | .skip => ends_moveCursor rfl rfl _
  | .goto => ends_moveCursor rfl rfl _
  | .align => ends_execAlign s
  | .alignrev => ends_execAlignrev s
  | .wrbits n u e => ends_execWrbits n u e s
  | .rdbits n u e => ends_execRdbits n u e s
  | .wrf16 e => ends_execWrf16 e s
  | .rdf16 e => ends_floatRead (fun p => dec16 s.inst.nan64d (BitVec.ofNat 16 p)) e rfl rfl
  | .wrf32 e => ends_floatWrite _ e rfl rfl
  | .rdf32 e => ends_floatRead (fun p => dec32 s.inst.nan64d (BitVec.ofNat 32 p)) e rfl rfl
  | .wrf64 e => ends_floatWrite _ e rfl rfl
  | .rdf64 e => ends_floatRead (fun p => dec64 s.inst.nan64d (BitVec.ofNat 64 p)) e rfl rfl

theorem commandEnd_of_exec {i : Instr} {s t : State} (ht : exec i s = .next t) : CommandEnd i s t := by
  obtain ⟨t', ht', hend⟩ := ends_exec i s
  obtain rfl := Host.Outcome.next.inj (ht'.symm.trans ht)
  exact hend

/-! ### What follows from the ends -/

/-- Settles O45: every end of a command is a next state. -/
theorem everyCommandAnswersNext : Obligations.EveryCommandAnswersNext := by
  intro i s
  obtain ⟨t, ht, -⟩ := ends_exec i s
  exact ⟨t, ht⟩

/-- Settles O50: no end touches a host register but `RES`, and that only at the end of a read command. -/
theorem commandsKeepHostRegisters : Obligations.CommandsKeepHostRegisters := by
  intro i s t ht
  cases commandEnd_of_exec ht with
  | refused | outOfBounds | moved | stored => exact ⟨rfl, rfl, rfl, rfl, rfl, rfl, fun _ => rfl⟩
  | readNothing _ hres | loaded _ _ _ _ _ hres =>
    exact ⟨rfl, rfl, rfl, rfl, rfl, rfl, fun h => h.elim (by simp [hres]) (absurd rfl)⟩

theorem capacityFigure_of_cursor {i : Instr} (hi : i = .skip ∨ i = .goto ∨ i = .align ∨ i = .alignrev) (s : State) :
    capacityFigure i s = none := by
  rcases hi with rfl | rfl | rfl | rfl <;> rfl

theorem ensureCapacity_cells {needed : Nat} {s : State} {b : Buffer} (h : ensureCapacity needed s = some b) :
    b.cells = s.buf.cells := by
  obtain ⟨-, -, hcells⟩ := ensureCapacity_some h
  exact hcells

/-- Settles O51: only a buffer command changes the buffer, and only a write command its bytes. -/
theorem onlyWritesChangeBytes : Obligations.OnlyWritesChangeBytes := by
  intro i s t ht
  cases commandEnd_of_exec ht with
  | refused | outOfBounds | moved | readNothing => exact ⟨fun _ => rfl, fun _ _ => rfl⟩
  | stored _ _ hfig _ hres =>
    exact ⟨fun hi => by simp [capacityFigure_of_cursor hi] at hfig, fun h => by simp [h] at hres⟩
  | loaded _ _ _ hfig hsome =>
    refine ⟨fun hi => by simp [capacityFigure_of_cursor hi] at hfig, fun _ a => ?_⟩
    exact congrArg (Memory.read · a) (ensureCapacity_cells hsome)

theorem lt_of_ensureCapacity_none {needed : Nat} {s : State} (h : ensureCapacity needed s = none) :
    s.buf.size < needed := by
  rcases ensureCapacity_cases needed s with ⟨-, hsome⟩ | ⟨hlt, -⟩ | ⟨hlt, -⟩
  · simp [hsome] at h
  · exact hlt
  · exact hlt

theorem raise_statusCode_ne_zero (k : ErrorKind) (needed : Nat) (s : State) : (s.raise k needed).statusCode ≠ 0 := by
  rw [State.raise_statusCode]
  cases k <;> decide

theorem errorCode_ne_outOfBounds {k : ErrorKind} (hkind : k = .rangeError ∨ k = .invalidArgument) :
    errorCode k ≠ errorCode .outOfBounds := by
  rcases hkind with rfl | rfl <;> decide

/-- Settles O43: the two ends that raise write the registers by `raise`, the others leave them. -/
theorem errorRegistersDescribeLastFailure : Obligations.ErrorRegistersDescribeLastFailure := by
  intro i s t ht
  cases commandEnd_of_exec ht with
  | refused hkind =>
    refine ⟨fun _ => ⟨rfl, figure64_toNat _, fun _ => ?_, fun hcode => ?_⟩, fun hcode => ?_⟩
    · exact figure64_of_lt (s.draws + figureDraws s.buf.size) (show 0 < 2 ^ 64 by decide)
    · exact absurd hcode (errorCode_ne_outOfBounds hkind)
    · exact absurd hcode (raise_statusCode_ne_zero _ _ s)
  | outOfBounds hfig hnone =>
    refine ⟨fun _ => ⟨rfl, figure64_toNat _, fun hcode => absurd rfl hcode, fun _ => ?_⟩, fun hcode => ?_⟩
    · exact ⟨_, hfig, lt_of_ensureCapacity_none hnone, figure64_toNat _⟩
    · exact absurd hcode (raise_statusCode_ne_zero _ _ s)
  | moved | readNothing | stored | loaded => exact ⟨absurd rfl, fun _ => ⟨rfl, rfl, rfl⟩⟩

/-! ### Operands that a command ignores (30_encoding.md R55) -/

theorem invisible_setOpb (y : Word64) : Invisible (State.setOpb y) := by
  constructor <;> intros <;> rfl

/-- Write both operand registers. -/
def State.setOperands (x y : Word64) (s : State) : State := (s.setOpa x).setOpb y

theorem invisible_setOperands (x y : Word64) : Invisible (State.setOperands x y) := by
  constructor <;> intros <;> rfl

/-- An invisible change that keeps `OPA` goes through every command but the two that read `OPB`. -/
theorem Invisible.exec_of_opa {f : State → State} (hf : Invisible f) (hopa : ∀ s, (f s).opa = s.opa) {i : Instr}
    (hskip : i ≠ .skip) (hgoto : i ≠ .goto) : Commutes f (Machine.exec i) :=
  match i with
  | .skip => absurd rfl hskip
  | .goto => absurd rfl hgoto
  | .align => hf.execAlign hopa
  | .alignrev => hf.execAlignrev hopa
  | .wrbits n u e => hf.execWrbits hopa n u e
  | .rdbits n u e => hf.execRdbits n u e
  | .wrf16 e => hf.execWrf16 hopa e
  | .rdf16 e => hf.execRdf16 e
  | .wrf32 e => hf.execWrf32 hopa e
  | .rdf32 e => hf.execRdf32 e
  | .wrf64 e => hf.execWrf64 hopa e
  | .rdf64 e => hf.execRdf64 e

/-- An invisible change goes through every read command, whatever it does to the operand registers. -/
theorem Invisible.exec_of_writesRes {f : State → State} (hf : Invisible f) {i : Instr} (hres : writesRes i = true) :
    Commutes f (Machine.exec i) := by
  cases i with
  | skip | goto | align | alignrev | wrbits | wrf16 | wrf32 | wrf64 => cases hres
  | rdbits n u e => exact hf.execRdbits n u e
  | rdf16 e => exact hf.execRdf16 e
  | rdf32 e => exact hf.execRdf32 e
  | rdf64 e => exact hf.execRdf64 e

theorem Commutes.exec_next {f : State → State} {i : Instr} {s t : State} (hf : Commutes f (exec i))
    (ht : exec i s = .next t) : exec i (f s) = .next (f t) := by
  rw [hf s, ht, mapNext]

/-- Settles O53: a change of the ignored operands is invisible to the command. -/
theorem ignoredOperandsHaveNoEffect : Obligations.IgnoredOperandsHaveNoEffect := by
  intro i s t x y ht
  refine ⟨fun hskip hgoto => ?_, fun hres => ?_⟩
  · exact ((invisible_setOpb y).exec_of_opa (fun _ => rfl) hskip hgoto).exec_next ht
  · exact ((invisible_setOperands x y).exec_of_writesRes hres).exec_next ht

end Sys2Proof.Machine
end

section
/-!
PROOFS. 20_memory.md R36 to R42 (O20, O21, O23 to O26): how far a capacity check grows the buffer, and, from the ends of
a command, what commands do to its size.
-/

namespace Sys2Proof.Machine

open Sys2Proof

/-! ### The growth (20_memory.md R36) -/

theorem mul_ceilDiv_lt (a : Nat) {b : Nat} (hb : 0 < b) : b * ceilDiv a b < a + b := by
  have := Nat.mul_div_le (a + (b - 1)) b
  rw [ceilDiv]
  omega

theorem growthOf_zero (deficit : Nat) : growthOf 0 deficit = deficit := rfl

/-- With a chunk, the growth is a multiple of it and less than one chunk above the deficit. -/
theorem growthOf_chunk {chunk : Nat} (h : chunk ≠ 0) (deficit : Nat) :
    chunk ∣ growthOf chunk deficit ∧ growthOf chunk deficit < deficit + chunk := by
  rw [growthOf, if_neg h]
  exact ⟨Nat.dvd_mul_right _ _, mul_ceilDiv_lt deficit (Nat.pos_of_ne_zero h)⟩

/-- A capacity check that grows the buffer is in non-strict mode, and grows it by `growthOf` the deficit. -/
theorem ensureCapacity_grows {needed : Nat} {s : State} {b : Buffer} (hlt : s.buf.size < needed)
    (h : ensureCapacity needed s = some b) :
    s.cfg.strict = false ∧ b.size = s.buf.size + growthOf s.cfg.chunk.toNat (needed - s.buf.size) := by
  rcases ensureCapacity_cases needed s with ⟨hle, -⟩ | ⟨-, hlax, -, hsome⟩ | ⟨-, -, hnone⟩
  · omega
  · obtain rfl := Option.some.inj (hsome.symm.trans h)
    exact ⟨hlax, rfl⟩
  · cases hnone.symm.trans h

/-- Settles O20: the growth is `growthOf` the deficit, which R36 makes the deficit or the least covering multiple. -/
theorem growthIsLeastMultipleOfChunk : Obligations.GrowthIsLeastMultipleOfChunk := by
  intro s needed b hlt hsome
  obtain ⟨hlax, hsize⟩ := ensureCapacity_grows hlt hsome
  refine ⟨hlax, (ensureCapacity_some hsome).1, fun hchunk => ?_, fun hchunk => ?_⟩
  · have hzero : s.cfg.chunk.toNat = 0 := by simp [hchunk]
    rw [hzero, growthOf_zero] at hsize
    omega
  · have hne : s.cfg.chunk.toNat ≠ 0 := fun h => hchunk (BitVec.eq_of_toNat_eq h)
    obtain ⟨hdvd, hgrow⟩ := growthOf_chunk hne (needed - s.buf.size)
    refine ⟨?_, by omega⟩
    rwa [hsize, Nat.add_sub_cancel_left]

/-- Settles O21: a capacity check keeps the cells, and a canonical buffer lists none at or above its size. -/
theorem growthAppendsZeroBytes : Obligations.GrowthAppendsZeroBytes := by
  intro s needed b hwf hsome
  have hcells : b.cells = s.buf.cells := ensureCapacity_cells hsome
  have hbelow : ∀ c ∈ s.buf.cells, c.1 < s.buf.size := ((Buffer.wf_iff _).mp hwf).2
  refine ⟨fun a _ => by rw [Buffer.byte, hcells, Buffer.byte], fun a ha _ => ?_⟩
  rw [Buffer.byte, hcells]
  exact Memory.read_above hbelow ha

/-- In strict mode a capacity check that passes keeps the buffer. -/
theorem ensureCapacity_strict {needed : Nat} {s : State} {b : Buffer} (hstrict : s.cfg.strict = true)
    (h : ensureCapacity needed s = some b) : b.size = s.buf.size := by
  rcases ensureCapacity_cases needed s with ⟨-, hsome⟩ | ⟨-, hlax, -⟩ | ⟨-, -, hnone⟩
  · rw [Option.some.inj (hsome.symm.trans h)]
  · simp [hstrict] at hlax
  · cases hnone.symm.trans h

/-! ### The size of the buffer under commands -/

/-- Settles O25: the commands that change the size have passed a capacity check. -/
theorem strictModeKeepsSize : Obligations.StrictModeKeepsSize := by
  intro i s t hstrict ht
  cases commandEnd_of_exec ht with
  | refused | outOfBounds | moved | readNothing => rfl
  | stored _ _ _ hsome | loaded _ _ _ _ hsome =>
    have hsize := ensureCapacity_strict hstrict hsome
    exact hsize

/-- Settles O26: the size changes only by a capacity check, and completion of a buffer command has passed one. -/
theorem sizeNeverShrinksAndCovers : Obligations.SizeNeverShrinksAndCovers := by
  intro i s t ht
  cases commandEnd_of_exec ht with
  | refused | outOfBounds => exact ⟨le_rfl, fun hcode => absurd hcode (raise_statusCode_ne_zero _ _ s)⟩
  | moved _ _ hfig | readNothing hfig => exact ⟨le_rfl, fun _ _ h => by simp [hfig] at h⟩
  | stored _ _ hfig hsome | loaded _ _ _ hfig hsome =>
    obtain ⟨hneeded, hgrow, -⟩ := ensureCapacity_some hsome
    refine ⟨hgrow, fun _ needed h => ?_⟩
    obtain rfl := Option.some.inj (hfig.symm.trans h)
    exact hneeded

/-! ### Buffer commands without and with capacity -/

theorem fits_eq_false_iff (p : Config.Params) (n : Nat) : p.fits n = false ↔ ∃ m, p.maxBytes = some m ∧ m < n := by
  rw [Config.Params.fits]
  cases p.maxBytes <;> simp

/-- Growth past `MAX_BYTES` fails the capacity check (20_memory.md R36). -/
theorem ensureCapacity_eq_none_of_not_fits {needed : Nat} {s : State} (hshort : s.buf.size < needed)
    (hbig : s.inst.fits (s.buf.size + growthOf s.cfg.chunk.toNat (needed - s.buf.size)) = false) :
    ensureCapacity needed s = none := by
  rcases ensureCapacity_cases needed s with ⟨hle, -⟩ | ⟨-, -, hfits, -⟩ | ⟨-, -, hnone⟩
  · omega
  · simp [hbig] at hfits
  · exact hnone

/-- Settles O23: the capacity check fails, so the command only raises. -/
theorem growthPastMaxBytesRaisesOutOfBounds : Obligations.GrowthPastMaxBytesRaisesOutOfBounds := by
  intro i s needed m hargs hfig hshort hmax hbig
  have hnone := ensureCapacity_eq_none_of_not_fits hshort ((fits_eq_false_iff _ _).mpr ⟨m, hmax, hbig⟩)
  exact ⟨_, exec_of_ensureCapacity_none hargs hfig hnone, raisedFrom_raise _ _ s⟩

/-- Settles O24: good arguments and capacity exclude the two ends that raise, and a figure excludes the ends of a
command that checks no capacity. -/
theorem bufferCommandsCompleteWithCapacity : Obligations.BufferCommandsCompleteWithCapacity := by
  intro i s needed hargs hfig hcap
  have hbuf := ensureCapacity_of_hasCapacity hcap
  obtain ⟨t, ht, hend⟩ := ends_exec i s
  refine ⟨t, ht, ?_⟩
  cases hend with
  | refused _ hnone => simp [hnone hargs] at hfig
  | outOfBounds hfig' hnone =>
    obtain rfl := Option.some.inj (hfig'.symm.trans hfig)
    simp [hnone] at hbuf
  | moved _ _ hnone | readNothing hnone => simp [hnone] at hfig
  | stored _ _ hfig' hsome _ hm =>
    obtain rfl := Option.some.inj (hfig'.symm.trans hfig)
    obtain rfl := Option.some.inj (hsome.symm.trans hbuf)
    exact ⟨rfl, hm.outside, rfl⟩
  | loaded _ _ _ hfig' hsome =>
    obtain rfl := Option.some.inj (hfig'.symm.trans hfig)
    obtain rfl := Option.some.inj (hsome.symm.trans hbuf)
    exact ⟨rfl, fun _ _ => rfl, rfl⟩

end Sys2Proof.Machine
end

section
/-!
PROOFS. 10_state.md R15 to R29, 70_reset_and_hazards.md R112 to R114 (O6, O46 to O49, O54 to O58): one inversion lemma
for the host's interactions. A step ends a command, raises for an illegal word, resets, or changes no more than the
operand registers and the model's own fields; the invariant and the frames of a step are read off its end.
-/

namespace Sys2Proof.Machine

open Sys2Proof

/-! ### The ends of a host interaction -/

/-- What the interaction `a` in `s` can answer. -/
inductive AccessEnd (s : State) : HostAccess → Result → Prop where
  /-- A register was read or written, other than `CMD`. -/
  | register {a : HostAccess} {t : State} (hinst : t.inst = s.inst) (hbuf : t.buf = s.buf) (hcfg : t.cfg = s.cfg)
      (hcode : t.statusCode = s.statusCode) : AccessEnd s a (.next t)
  /-- A command ran; what it yields is recorded. -/
  | command {v : Word64} {i : Instr} {w : Word32} {t : State} (ev : HostEvent) (hend : CommandEnd i (s.setCmd w) t) :
      AccessEnd s (.write 0x0 v) (.next (t.logEvent ev 0))
  /-- An illegal word raised. -/
  | illegal {v : Word64} {w : Word32} (ev : HostEvent) :
      AccessEnd s (.write 0x0 v) (.next (((s.setCmd w).raise .invalidArgument 0).logEvent ev 0))
  /-- A reset loaded its arguments. -/
  | constructed {a : ResetArgs} (hok : a.problem s.inst = none) : AccessEnd s (.reset a) (.next (s.construct a))
  /-- A reset was refused. -/
  | refused {a : ResetArgs} {why : ConstructionError} (hbad : a.problem s.inst = some why) :
      AccessEnd s (.reset a) (.refused (.construction why))

/-- A host write to any register but `CMD` (10_state.md R18, R29). -/
theorem hostWrite_of_ne_zero {reg : Nat} (hreg : reg ≠ 0) (v : Word64) (s : State) :
    hostWrite reg v s = .next
      (if reg = 1 then s.setOpa v else if reg = 2 then s.setOpb v else if reg = 13 then s.setBufAddr v else s) := by
  unfold hostWrite
  split
  case h_1 => exact absurd rfl hreg
  case h_2 | h_3 | h_4 => rfl
  case h_5 h1 h2 h3 => rw [if_neg h1, if_neg h2, if_neg h3]

theorem accessEnd_hostCommand (v : Word64) (w : Word32) (s : State) :
    AccessEnd s (.write 0x0 v) (hostCommand w s) := by
  cases hd : decode w with
  | command i =>
    obtain ⟨t, ht, hend⟩ := ends_exec i (s.setCmd w)
    rw [hostCommand_next (t := t) (by rw [hd, execDecoded, ht])]
    exact .command _ hend
  | illegal why =>
    rw [hostCommand_next (t := (s.setCmd w).raise .invalidArgument 0) (by rw [hd, execDecoded, fail])]
    exact .illegal _

theorem accessEnd_hostAccess (a : HostAccess) (s : State) : AccessEnd s a (hostAccess a s) := by
  cases a with
  | write reg v =>
    rw [hostAccess]
    by_cases hreg : reg = 0
    · subst hreg
      exact accessEnd_hostCommand v (v.setWidth 32) s
    · rw [hostWrite_of_ne_zero hreg]
      split_ifs <;> exact .register rfl rfl rfl rfl
  | read reg => exact .register rfl rfl rfl rfl
  | reset args =>
    rw [hostAccess]
    rcases hostReset_cases args s with ⟨why, hbad, hrefused⟩ | ⟨hok, hdone⟩
    · exact hrefused ▸ .refused hbad
    · exact hdone ▸ .constructed hok

/-! ### The invariant -/

theorem State.inv_iff (s : State) :
    s.inv = true ↔
      s.buf.wf = true ∧ s.inst.fits s.buf.size = true ∧ writtenCode s.statusCode = true ∧ paramsOk s.inst = true := by
  simp only [State.inv, Bool.and_eq_true, and_assoc]

/-- A capacity check that passes keeps the buffer canonical and within `MAX_BYTES`. -/
theorem ensureCapacity_keeps {needed : Nat} {s : State} {b : Buffer} (hwf : s.buf.wf = true)
    (hfits : s.inst.fits s.buf.size = true) (h : ensureCapacity needed s = some b) :
    b.wf = true ∧ s.inst.fits b.size = true := by
  rcases ensureCapacity_cases needed s with ⟨-, hsome⟩ | ⟨-, -, hgrown, hsome⟩ | ⟨-, -, hnone⟩
  · obtain rfl := Option.some.inj (hsome.symm.trans h)
    exact ⟨hwf, hfits⟩
  · obtain rfl := Option.some.inj (hsome.symm.trans h)
    exact ⟨Buffer.wf_grow hwf _, hgrown⟩
  · cases hnone.symm.trans h

/-- A change confined below the size keeps the buffer canonical. -/
theorem ConfinedTo.buffer_wf {lo hi : Nat} {b : Buffer} {m : Memory} (hm : ConfinedTo lo hi b.cells m)
    (hhi : hi ≤ b.size) (hwf : b.wf = true) : Buffer.wf ⟨m, b.size⟩ = true := by
  rw [Buffer.wf_iff] at hwf ⊢
  exact ⟨hm.wf hwf.1, hm.below b.size hhi hwf.2⟩

/-- Every end of a command keeps the invariant. -/
theorem CommandEnd.inv {i : Instr} {s t : State} (hend : CommandEnd i s t) (h : s.inv = true) : t.inv = true := by
  rw [State.inv_iff] at h ⊢
  obtain ⟨hwf, hfits, -, hparams⟩ := h
  cases hend with
  | refused hkind =>
    rcases hkind with rfl | rfl <;> exact ⟨hwf, hfits, rfl, hparams⟩
  | outOfBounds => exact ⟨hwf, hfits, rfl, hparams⟩
  | moved | readNothing => exact ⟨hwf, hfits, rfl, hparams⟩
  | stored _ _ _ hsome _ hm =>
    obtain ⟨hwf', hfits'⟩ := ensureCapacity_keeps hwf hfits hsome
    exact ⟨hm.buffer_wf (ensureCapacity_some hsome).1 hwf', hfits', rfl, hparams⟩
  | loaded _ _ _ _ hsome =>
    obtain ⟨hwf', hfits'⟩ := ensureCapacity_keeps hwf hfits hsome
    exact ⟨hwf', hfits', rfl, hparams⟩

/-- An accepted reset leaves the invariant, whatever the state was, but for its parameters. -/
theorem inv_construct {a : ResetArgs} {s : State} (hok : a.problem s.inst = none) (hparams : paramsOk s.inst = true) :
    (s.construct a).inv = true := by
  rw [State.inv_iff]
  exact ⟨Buffer.wf_ofBytes a.bytes, ((ResetArgs.problem_eq_none_iff a s.inst).mp hok).1, rfl, hparams⟩

theorem AccessEnd.inv {a : HostAccess} {s t : State} (hend : AccessEnd s a (.next t)) (h : s.inv = true) :
    t.inv = true := by
  cases hend with
  | register hinst hbuf _ hcode => rwa [State.inv_iff, hinst, hbuf, hcode, ← State.inv_iff]
  | command ev hend => exact hend.inv h
  | illegal ev =>
    rw [State.inv_iff] at h ⊢
    obtain ⟨hwf, hfits, -, hparams⟩ := h
    exact ⟨hwf, hfits, rfl, hparams⟩
  | constructed hok =>
    obtain ⟨-, -, -, hparams⟩ := (State.inv_iff s).mp h
    exact inv_construct hok hparams

/-- Settles O47: an idle step keeps the state, and every end of an interaction keeps the invariant. -/
theorem stepKeepsInvariant : Obligations.StepKeepsInvariant := by
  intro s t h ht
  rcases step_cases s with ⟨-, hidle⟩ | ⟨a, rest, -, hstep⟩
  · obtain rfl := Host.Outcome.next.inj (hidle.symm.trans ht)
    exact h
  · have hend := accessEnd_hostAccess a (s.setPending rest)
    rw [← hstep, ht] at hend
    exact hend.inv h

/-- Settles O48: the first by evaluation, the second because a construction with no problem has the invariant. -/
theorem resetEstablishesInvariant : Obligations.ResetEstablishesInvariant := by
  refine ⟨by decide, fun s t a hparams ht => ?_⟩
  rcases hostReset_cases a s with ⟨why, -, hrefused⟩ | ⟨hok, hdone⟩
  · cases hrefused.symm.trans ht
  · obtain rfl := Host.Outcome.next.inj (hdone.symm.trans ht)
    exact inv_construct hok hparams

/-! ### What a step keeps, and where it stops -/

theorem CommandEnd.inst_cfg {i : Instr} {s t : State} (hend : CommandEnd i s t) : t.inst = s.inst ∧ t.cfg = s.cfg := by
  cases hend <;> exact ⟨rfl, rfl⟩

/-- Settles O49: of the ends of an interaction, only a construction sets the configuration, and none the parameters. -/
theorem configurationChangesOnlyByReset : Obligations.ConfigurationChangesOnlyByReset := by
  intro s t ht
  rcases step_cases s with ⟨-, hidle⟩ | ⟨a, rest, hpending, hstep⟩
  · obtain rfl := Host.Outcome.next.inj (hidle.symm.trans ht)
    exact ⟨rfl, fun _ => rfl⟩
  · have hend := accessEnd_hostAccess a (s.setPending rest)
    rw [← hstep, ht] at hend
    cases hend with
    | register hinst _ hcfg => exact ⟨hinst, fun _ => hcfg⟩
    | command ev hend => exact ⟨hend.inst_cfg.1, fun _ => hend.inst_cfg.2⟩
    | illegal ev => exact ⟨rfl, fun _ => rfl⟩
    | constructed => exact ⟨rfl, fun hno => absurd hpending (hno _ _)⟩

/-- A reset has a problem exactly where it breaks a requirement of 70_reset_and_hazards.md R112. -/
theorem ResetArgs.problem_ne_none_iff (a : ResetArgs) (inst : Config.Params) :
    a.problem inst ≠ none ↔
      (∃ m, inst.maxBytes = some m ∧ m < a.bytes.length) ∨
       a.byteOffset * 8 + a.bitOffset < 0 ∨ 2 ^ 67 ≤ a.byteOffset * 8 + a.bitOffset ∨
       a.extendChunkSize < 0 ∨ 2 ^ 64 ≤ a.extendChunkSize := by
  rw [ne_eq, ResetArgs.problem_eq_none_iff, ← fits_eq_false_iff, ResetArgs.position]
  cases inst.fits a.bytes.length with
  | true => simp; omega
  | false => simp

/-- Settles O46: every end of an interaction goes on but a refused reset, and a reset is refused where it has a
problem. -/
theorem onlyRefusedResetsStop : Obligations.OnlyRefusedResetsStop := by
  intro s
  refine ⟨?_, fun a rest hpending hbad => ?_⟩
  · rcases step_cases s with ⟨-, hidle⟩ | ⟨a, rest, hpending, hstep⟩
    · exact .inl ⟨s, hidle⟩
    · have hend := accessEnd_hostAccess a (s.setPending rest)
      rw [← hstep] at hend
      generalize hr : step s = r at hend
      cases hend with
      | register | command | illegal | constructed => exact .inl ⟨_, rfl⟩
      | refused hbad =>
        exact .inr ⟨_, rest, _, hpending, rfl,
          (ResetArgs.problem_ne_none_iff _ s.inst).mp (Option.ne_none_iff_exists'.mpr ⟨_, hbad⟩)⟩
  · obtain ⟨why, hwhy⟩ := Option.ne_none_iff_exists'.mp ((ResetArgs.problem_ne_none_iff a s.inst).mpr hbad)
    rw [step_of_pending hpending]
    rcases hostReset_cases a (s.setPending rest) with ⟨why', -, hrefused⟩ | ⟨hok, -⟩
    · exact ⟨why', hrefused⟩
    · cases hok.symm.trans hwhy

/-! ### Single interactions -/

/-- Settles O58: an empty queue is the first case of the step. -/
theorem idleStepKeepsState : Obligations.IdleStepKeepsState := by
  intro s hidle
  rw [step, stepHost, hidle]

/-- Settles O6: the write stores the word, and the record of a decoded command is the one stated. -/
theorem stepRunsDecodedCommand : Obligations.StepRunsDecodedCommand := by
  intro s v rest i hpending _ hdecode
  obtain ⟨t, ht, -⟩ := ends_exec i ((s.setPending rest).setCmd (v.setWidth 32))
  rw [step_of_cmd_write hpending (by rw [hdecode]; exact ht), hdecode]
  exact ht ▸ rfl

/-- Settles O54: the step takes the interaction from the queue and writes the register. -/
theorem hostWritesStoreOrAreIgnored : Obligations.HostWritesStoreOrAreIgnored := by
  intro s reg v rest hpending hreg
  rw [step_of_pending hpending, hostAccess, hostWrite_of_ne_zero hreg]
  rfl

theorem readRegister_reserved {reg : Nat} (h : 0xF ≤ reg) (s : State) : readRegister reg s = 0 := by
  unfold readRegister
  split
  case h_16 => rfl
  all_goals omega

theorem flagWord_toNat : ∀ a b c d : Bool,
    (0#60 ++ BitVec.ofBool a ++ BitVec.ofBool b ++ BitVec.ofBool c ++ BitVec.ofBool d).toNat
      = (if d then 1 else 0) + (if c then 2 else 0) + (if b then 4 else 0) + (if a then 8 else 0) := by decide

/-- The bits of `CONFIG` (10_state.md R18). -/
theorem configWord_toNat (c : ModeConfig) :
    (configWord c).toNat = (if c.endian = .big then 1 else 0) + (if c.strict then 2 else 0)
      + (if c.enforceWide then 4 else 0) + (if c.errorDump then 8 else 0) := by
  simp only [configWord, flagWord_toNat, decide_eq_true_eq]

theorem bufData_toNat (s : State) :
    ((bufData s).setWidth 64).toNat =
      if s.bufAddr.toNat < s.buf.size then (s.buf.byte s.bufAddr.toNat).toNat else 0 := by
  rw [bufData]
  split <;> simp
  omega

/-- Settles O55: one clause per row of the register table. -/
theorem hostReadsReturnRegisters : Obligations.HostReadsReturnRegisters := by
  intro s reg rest hpending
  have hstep : step s = hostRead reg (s.setPending rest) := step_of_pending hpending
  refine ⟨readRegister reg s, s.draws + readDraws reg s, hstep, fun h => ?draws, ?cmd, ?opa, ?opb, ?res, ?status,
    ?errOffset, ?errSize, ?errNeeded, ?curOff, ?curBit, ?size, ?config, ?chunk, ?bufAddr, ?bufData,
    fun h => readRegister_reserved h s⟩
  case draws =>
    rcases h with h | h
    · rw [readDraws, if_neg h, Nat.add_zero]
    · rw [readDraws, figureDraws_of_lt h, ite_self, Nat.add_zero]
  case opa | opb | res | errOffset | errSize | errNeeded | curOff | chunk | bufAddr => all_goals exact fun h => h ▸ rfl
  case cmd | status | curBit => all_goals exact fun h => h ▸ BitVec.toNat_setWidth_of_le (by decide)
  case size => rintro rfl hsize; exact figure64_toNat _ hsize
  case config => rintro rfl; exact configWord_toNat s.cfg
  case bufData => rintro rfl; exact bufData_toNat s

/-! ### Reset -/

/-- Settles O57: `State.reset` is written out field by field. -/
theorem resetStateValues : Obligations.ResetStateValues := by
  refine ⟨rfl, fun _ => rfl, rfl, rfl, rfl, rfl, rfl, rfl, rfl, rfl, rfl, rfl, rfl, rfl⟩

theorem Buffer.byte_ofBytes (bytes : List Byte) (k : Nat) (h : k < bytes.length) :
    (Buffer.ofBytes bytes).byte k = bytes[k] := by
  have hread := Memory.read_writeBytes_inside [] bytes 0 k h
  rwa [Nat.zero_add] at hread

/-- Settles O56: arguments that hold the requirements have no problem, so the step constructs. -/
theorem resetLoadsConstruction : Obligations.ResetLoadsConstruction := by
  intro s a rest hpending hbytes hpos hpos' hchunk hchunk'
  have hfits : s.inst.fits a.bytes.length = true := by
    rw [← Bool.not_eq_false, fits_eq_false_iff]
    rintro ⟨m, hm, hlt⟩
    exact absurd (hbytes m hm) hlt.not_ge
  have hok : a.problem s.inst = none :=
    (ResetArgs.problem_eq_none_iff a s.inst).mpr ⟨hfits, ⟨hpos, hpos'⟩, hchunk, hchunk'⟩
  have hstep : step s = .next ((s.setPending rest).construct a) := by
    rw [step_of_pending hpending, hostAccess]
    rcases hostReset_cases a (s.setPending rest) with ⟨why, hbad, -⟩ | ⟨-, hdone⟩
    · cases hok.symm.trans hbad
    · exact hdone
  refine ⟨_, hstep, rfl, Buffer.byte_ofBytes a.bytes, toNat_byteOffset hpos hpos', toNat_bitOffset hpos, rfl, rfl,
    ?chunk, rfl, rfl, rfl⟩
  case chunk =>
    rw [State.construct_cfg, BitVec.toNat_ofInt, Nat.cast_pow, Nat.cast_ofNat, Int.emod_eq_of_lt hchunk hchunk',
      Int.toNat_of_nonneg hchunk]

end Sys2Proof.Machine
end

section
/-!
PROOFS. 40_cursor.md R65, R66 (O9 to O11): `ALIGN` and `ALIGNREV` are cursor moves by whole bytes, which keep the bit
offset; the distance of R65 leads to the least multiple at or above the offset.
-/

namespace Sys2Proof.Machine

open Sys2Proof

/-- A move to a byte offset that fits, with the bit offset as it is. -/
theorem moveCursor_byteOffset {s : State} {off : Nat} (hoff : off < 2 ^ 64) {a : Int}
    (ha : a = (off : Int) * 8 + s.curBit.toNat) :
    ∃ t, moveCursor a s = .next t ∧ t.curOff.toNat = off ∧ t = { s with curOff := t.curOff, statusCode := 0 } := by
  have hbit := s.curBit.isLt
  rcases moveCursor_cases a s with ⟨hout, -⟩ | ⟨-, -, hset⟩
  · omega
  · have hdiv : a.toNat / 8 = off := by omega
    have hmod : a.toNat % 8 = s.curBit.toNat := by omega
    rw [hdiv, hmod, BitVec.ofNat_toNat, BitVec.setWidth_eq] at hset
    exact ⟨_, hset, Nat.mod_eq_of_lt hoff, rfl⟩

/-- `ALIGN` by `n` as a move by whole bytes. -/
theorem exec_align_eq_moveCursor {s : State} {n d : Nat} (hn : n = s.opa.toNat) (hd : d = (n - s.curOff.toNat % n) % n)
    (hne : n ≠ 0) : exec .align s = moveCursor (((s.curOff.toNat + d : Nat) : Int) * 8 + s.curBit.toNat) s := by
  subst hn hd
  rw [exec, execAlign_ne_zero hne, State.position]
  congr 1
  push_cast
  ring

/-- Settles O9: with `n ≠ 0` the move's target is the new offset with the old bit offset. -/
theorem alignAddsDistanceToMultiple : Obligations.AlignAddsDistanceToMultiple := by
  intro s n d hn hd
  refine ⟨fun hne hfits => ?_, fun hbad => ?_⟩
  · exact exec_align_eq_moveCursor hn hd hne ▸ moveCursor_byteOffset hfits rfl
  · by_cases hzero : n = 0
    · exact ⟨_, execAlign_zero (hn ▸ hzero), raisedFrom_raise _ _ s⟩
    · have hmove := movesCursorTo_moveCursor (((s.curOff.toNat + d : Nat) : Int) * 8 + s.curBit.toNat) s
      rw [← exec_align_eq_moveCursor hn hd hzero] at hmove
      exact hmove.2 (.inr (by omega))

/-- The distance of 40_cursor.md R65 leads to a multiple, and not past any. -/
theorem alignDistance_least {n : Nat} (hn : n ≠ 0) (off : Nat) :
    n ∣ off + (n - off % n) % n ∧ ∀ m, n ∣ m → off ≤ m → off + (n - off % n) % n ≤ m := by
  have hsplit := Nat.div_add_mod off n
  have hlt := Nat.mod_lt off (Nat.pos_of_ne_zero hn)
  by_cases hmod : off % n = 0
  · rw [hmod, Nat.sub_zero, Nat.mod_self, Nat.add_zero]
    exact ⟨Nat.dvd_of_mod_eq_zero hmod, fun m _ h => h⟩
  · have hnext : off + (n - off % n) % n = n * (off / n + 1) := by
      rw [Nat.mod_eq_of_lt (show n - off % n < n by omega), Nat.mul_add]
      omega
    rw [hnext]
    refine ⟨Nat.dvd_mul_right _ _, ?_⟩
    rintro m ⟨k, rfl⟩ hle
    refine Nat.mul_le_mul_left n (Nat.lt_of_mul_lt_mul_left (a := n) ?_)
    omega

/-- Settles O10: the offset of R65 is at most any multiple at or above the old one, so it fits where one fits. -/
theorem alignReachesLeastMultiple : Obligations.AlignReachesLeastMultiple := by
  intro s m hne hdvd hle hlt
  obtain ⟨hmult, hleast⟩ := alignDistance_least hne s.curOff.toNat
  have hreach := hleast m hdvd hle
  obtain ⟨t, ht, hoff, hframe⟩ := (alignAddsDistanceToMultiple s _ _ rfl rfl).1 hne (hreach.trans_lt hlt)
  refine ⟨t, ht, hoff ▸ hmult, by omega, hoff ▸ hreach, hframe⟩

/-- Settles O11: the move's target is the offset less its remainder, with the old bit offset. -/
theorem alignrevReachesGreatestMultiple : Obligations.AlignrevReachesGreatestMultiple := by
  intro s
  refine ⟨fun hne => ?_, fun hzero => ⟨_, execAlignrev_zero hzero, raisedFrom_raise _ _ s⟩⟩
  have hmod : s.curOff.toNat % s.opa.toNat ≤ s.curOff.toNat := Nat.mod_le _ _
  have hfits : s.curOff.toNat - s.curOff.toNat % s.opa.toNat < 2 ^ 64 := by
    have := s.curOff.isLt
    omega
  have hmove : ∃ t, exec .alignrev s = .next t ∧ t.curOff.toNat = s.curOff.toNat - s.curOff.toNat % s.opa.toNat ∧
      t = { s with curOff := t.curOff, statusCode := 0 } := by
    rw [exec, execAlignrev_ne_zero hne, State.position]
    refine moveCursor_byteOffset hfits ?_
    push_cast [hmod]
    ring
  obtain ⟨t, ht, hoff, hframe⟩ := hmove
  refine ⟨t, ht, hoff, fun m hdvd hle => ?_, hframe⟩
  rw [hoff]
  obtain ⟨k, rfl⟩ := hdvd
  have hk : k ≤ s.curOff.toNat / s.opa.toNat :=
    (Nat.le_div_iff_mul_le (Nat.pos_of_ne_zero hne)).mpr (by rwa [Nat.mul_comm])
  calc s.opa.toNat * k ≤ s.opa.toNat * (s.curOff.toNat / s.opa.toNat) := Nat.mul_le_mul_left _ hk
    _ = s.curOff.toNat - s.curOff.toNat % s.opa.toNat := by
      have := Nat.div_add_mod s.curOff.toNat s.opa.toNat
      omega

end Sys2Proof.Machine
end

section
/-!
PROOFS. 41_bitcodec.md R69, R70, 20_memory.md R35 (O12 to O14): what one chunk of the loops writes and reads in terms of
stream positions, and the loops by induction on their fuel. A chunk lies inside one byte, where its positions are
consecutive bits in either order.
-/

namespace Sys2Proof.Machine

open Sys2Proof

/-! ### Stream positions and bit numbers -/

theorem bitOfByte_lt (e : Endian) (q : Nat) : bitOfByte e q < 8 := by
  cases e with
  | little => exact Nat.mod_lt q (by decide)
  | big => exact Nat.lt_succ_of_le (Nat.sub_le 7 _)

theorem bitOfField_lt (e : Endian) {n j : Nat} (h : j < n) : bitOfField e n j < n := by
  cases e with
  | little => exact h
  | big => rw [bitOfField]; omega

/-- The bit of a field and its place in the stream determine each other the same way. -/
theorem bitOfField_bitOfField (e : Endian) {n j : Nat} (h : j < n) : bitOfField e n (bitOfField e n j) = j := by
  cases e with
  | little => rfl
  | big => rw [bitOfField, bitOfField]; omega

/-! ### Writing one chunk -/

theorem chunkBits_lt (e : Endian) (p n i w : Nat) : chunkBits e p n i w < 2 ^ w := by
  cases e <;> exact Nat.mod_lt _ (Nat.two_pow_pos w)

/-- A chunk replaces the bits `sh .. sh+w-1` of its byte (41_bitcodec.md R69). -/
theorem getLsbD_mergeChunk (b : Byte) {c w sh k : Nat} (hc : c < 2 ^ w) (hsh : sh + w ≤ 8) (hk : k < 8) :
    (mergeChunk b c w sh).getLsbD k = if sh ≤ k ∧ k < sh + w then c.testBit (k - sh) else b.getLsbD k := by
  have hones : (0xFF#8).getLsbD k = true := by
    rw [show 0xFF#8 = BitVec.allOnes 8 from rfl, BitVec.getLsbD_allOnes, decide_eq_true hk]
  simp only [mergeChunk, chunkMask, BitVec.getLsbD_or, BitVec.getLsbD_and, BitVec.getLsbD_xor, BitVec.getLsbD_shiftLeft,
    BitVec.getLsbD_ofNat, Nat.testBit_two_pow_sub_one, hones, decide_eq_true hk]
  by_cases hlow : k < sh
  · simp [hlow]
  · have hmid : k < sh + w ↔ k - sh < w := by omega
    have hsub : k - sh < 8 := by omega
    by_cases hin : k - sh < w
    · simp [hlow, hmid, hin, hsub]
    · have hzero : c.testBit (k - sh) = false :=
        Nat.testBit_lt_two_pow (hc.trans_le (Nat.pow_le_pow_right two_pos (Nat.le_of_not_lt hin)))
      simp [hlow, hmid, hin, hzero]

/-- The bits of a chunk, at the places that the stream gives them in the byte. -/
theorem testBit_chunkBits (e : Endian) {p n i w q x : Nat} (hw : w ≤ n - i) (hfit : q % 8 + w ≤ 8) (hlo : q ≤ x)
    (hhi : x < q + w) :
    (chunkBits e p n i w).testBit (bitOfByte e x - chunkShift e (q % 8) w) =
      p.testBit (bitOfField e n (i + (x - q))) := by
  cases e with
  | little =>
    simp only [chunkBits, bitOfByte, chunkShift, bitOfField, Nat.testBit_mod_two_pow, Nat.testBit_div_two_pow]
    rw [decide_eq_true (by omega), Bool.true_and, show x % 8 - q % 8 + i = i + (x - q) by omega]
  | big =>
    simp only [chunkBits, bitOfByte, chunkShift, bitOfField, Nat.testBit_mod_two_pow, Nat.testBit_div_two_pow]
    rw [decide_eq_true (by omega), Bool.true_and,
      show 7 - x % 8 - (8 - q % 8 - w) + (n - i - w) = n - 1 - (i + (x - q)) by omega]

/-- The positions of a chunk, as bits of its byte. -/
theorem chunk_position_iff (e : Endian) {q w x : Nat} (hfit : q % 8 + w ≤ 8) (hbyte : x / 8 = q / 8) :
    (chunkShift e (q % 8) w ≤ bitOfByte e x ∧ bitOfByte e x < chunkShift e (q % 8) w + w) ↔ q ≤ x ∧ x < q + w := by
  cases e <;> simp only [chunkShift, bitOfByte] <;> omega

theorem chunkShift_add_le (e : Endian) {k w : Nat} (hfit : k + w ≤ 8) : chunkShift e k w + w ≤ 8 := by
  cases e <;> simp only [chunkShift] <;> omega

/-- Writing one chunk sets its stream positions and no other. -/
theorem streamBit_write_mergeChunk (e : Endian) {p n i w q : Nat} (m : Memory) (hw : w ≤ n - i)
    (hfit : q % 8 + w ≤ 8) (x : Nat) :
    streamBit e (m.write (q / 8) (mergeChunk (m.read (q / 8)) (chunkBits e p n i w) w (chunkShift e (q % 8) w))) x =
      if q ≤ x ∧ x < q + w then p.testBit (bitOfField e n (i + (x - q))) else streamBit e m x := by
  rw [streamBit, Memory.read_write]
  by_cases hbyte : x / 8 = q / 8
  · rw [if_pos hbyte,
      getLsbD_mergeChunk _ (chunkBits_lt e p n i w) (chunkShift_add_le e hfit) (bitOfByte_lt e x),
      if_congr (chunk_position_iff e hfit hbyte) rfl rfl]
    split
    case isTrue hx => exact testBit_chunkBits e hw hfit hx.1 hx.2
    case isFalse => rw [streamBit, hbyte]
  · rw [if_neg hbyte, if_neg (by omega), streamBit]

theorem chunkWidth_le_left (n i q : Nat) : chunkWidth n i q ≤ n - i := Nat.min_le_left _ _

theorem chunkWidth_fits (n i q : Nat) : q % 8 + chunkWidth n i q ≤ 8 := by
  unfold chunkWidth
  omega

/-! ### `WriteField` -/

/-- The loop with `i` bits done sets the stream positions of the `n - i` bits to come and no other. -/
theorem streamBit_writeLoop (e : Endian) (p n : Nat) {fuel : Nat} (q i : Nat) (m : Memory) (hfuel : n - i ≤ fuel)
    (x : Nat) :
    streamBit e (writeLoop e p n fuel q i m) x =
      if q ≤ x ∧ x < q + (n - i) then p.testBit (bitOfField e n (i + (x - q))) else streamBit e m x := by
  induction fuel generalizing q i m with
  | zero => rw [writeLoop, if_neg (by omega)]
  | succ fuel ih =>
    rw [writeLoop]
    split
    case isFalse hdone => rw [if_neg (by omega)]
    case isTrue hi =>
      have hpos := chunkWidth_pos (q := q) hi
      have hle := chunkWidth_le_left n i q
      rw [ih _ _ _ (by omega), streamBit_write_mergeChunk e m hle (chunkWidth_fits n i q)]
      generalize chunkWidth n i q = w at hpos hle
      by_cases hlater : q + w ≤ x ∧ x < q + w + (n - (i + w))
      · rw [if_pos hlater, if_pos (by omega), show i + w + (x - (q + w)) = i + (x - q) by omega]
      · rw [if_neg hlater]
        exact if_congr (by omega) rfl rfl

theorem streamBit_writeField (e : Endian) (p n q : Nat) (m : Memory) (x : Nat) :
    streamBit e (writeField e p n q m) x =
      if q ≤ x ∧ x < q + n then p.testBit (bitOfField e n (x - q)) else streamBit e m x := by
  rw [writeField, streamBit_writeLoop e p n q 0 m (by omega), Nat.sub_zero, Nat.zero_add]

/-- Settles O12: the two clauses are the two sides of the loop's equation. -/
theorem writeFieldFollowsBitLayout : Obligations.WriteFieldFollowsBitLayout := by
  intro e p n q m
  refine ⟨fun j hj => ?_, fun x hx => ?_⟩
  · rw [streamBit_writeField, if_pos (by omega), Nat.add_sub_cancel_left]
  · rw [streamBit_writeField, if_neg (by omega)]

/-! ### `ReadField` -/

/-- `p` is the pattern of the `i` stream bits from position `q` on (41_bitcodec.md R70). -/
structure Gathered (e : Endian) (m : Memory) (q i p : Nat) : Prop where
  lt : p < 2 ^ i
  bits : ∀ j, j < i → p.testBit (bitOfField e i j) = streamBit e m (q + j)

theorem extractChunk_lt (b : Byte) (w sh : Nat) : extractChunk b w sh < 2 ^ w := Nat.mod_lt _ (Nat.two_pow_pos w)

theorem testBit_extractChunk (b : Byte) {w sh k : Nat} (hk : k < w) :
    (extractChunk b w sh).testBit k = b.getLsbD (k + sh) := by
  rw [extractChunk, Nat.testBit_mod_two_pow, Nat.testBit_div_two_pow, decide_eq_true hk, Bool.true_and, BitVec.getLsbD]

/-- One more chunk extends the bits gathered by its own. -/
theorem Gathered.joinChunk {e : Endian} {m : Memory} {q i p w : Nat} (h : Gathered e m q i p)
    (hfit : (q + i) % 8 + w ≤ 8) :
    Gathered e m q (i + w)
      (joinChunk e p (extractChunk (m.read ((q + i) / 8)) w (chunkShift e ((q + i) % 8) w)) w i) := by
  generalize hc : extractChunk (m.read ((q + i) / 8)) w (chunkShift e ((q + i) % 8) w) = c
  have hclt : c < 2 ^ w := hc ▸ extractChunk_lt _ _ _
  have hchunk (k : Nat) (hk : k < w) :
      c.testBit k = (m.read ((q + i) / 8)).getLsbD (k + chunkShift e ((q + i) % 8) w) := hc ▸ testBit_extractChunk _ hk
  cases e with
  | little =>
    have hjoin (k : Nat) : (p + c * 2 ^ i).testBit k = if k < i then p.testBit k else c.testBit (k - i) := by
      rw [Nat.add_comm, Nat.mul_comm, Nat.testBit_two_pow_mul_add c h.lt]
    refine ⟨?_, fun j hj => ?_⟩
    · rw [Machine.joinChunk, Nat.pow_add]
      nlinarith [h.lt]
    · simp only [Machine.joinChunk, bitOfField, hjoin]
      split
      case isTrue hold => exact h.bits j hold
      case isFalse hnew =>
        rw [hchunk _ (by omega), streamBit, chunkShift, bitOfByte, show (q + j) / 8 = (q + i) / 8 by omega,
          show j - i + (q + i) % 8 = (q + j) % 8 by omega]
  | big =>
    have hjoin (k : Nat) : (p * 2 ^ w + c).testBit k = if k < w then c.testBit k else p.testBit (k - w) := by
      rw [Nat.mul_comm, Nat.testBit_two_pow_mul_add p hclt]
    refine ⟨?_, fun j hj => ?_⟩
    · rw [Machine.joinChunk, Nat.pow_add]
      nlinarith [h.lt]
    · simp only [Machine.joinChunk, bitOfField, hjoin]
      split
      case isTrue hnew =>
        rw [hchunk _ (by omega), streamBit, chunkShift, bitOfByte, show (q + j) / 8 = (q + i) / 8 by omega,
          show i + w - 1 - j + (8 - (q + i) % 8 - w) = 7 - (q + j) % 8 by omega]
      case isFalse hold =>
        rw [show i + w - 1 - j - w = i - 1 - j by omega]
        exact h.bits j (by omega)

/-- The loop gathers the bits to come onto the bits gathered. -/
theorem Gathered.readLoop {e : Endian} {m : Memory} {n q : Nat} {fuel i p : Nat} (h : Gathered e m q i p) (hi : i ≤ n)
    (hfuel : n - i ≤ fuel) : Gathered e m q n (readLoop e n m fuel (q + i) i p) := by
  induction fuel generalizing i p with
  | zero =>
    obtain rfl : i = n := by omega
    exact h
  | succ fuel ih =>
    rw [Machine.readLoop]
    split
    case isFalse hdone =>
      obtain rfl : i = n := by omega
      exact h
    case isTrue hlt =>
      have hpos := chunkWidth_pos (q := q + i) hlt
      have hle := chunkWidth_le_left n i (q + i)
      have hnext := h.joinChunk (chunkWidth_fits n i (q + i))
      have hloop := ih hnext (by omega) (by omega)
      rw [← Nat.add_assoc] at hloop
      exact hloop

theorem gathered_readField (e : Endian) (n q : Nat) (m : Memory) : Gathered e m q n (readField e n q m) := by
  have hnone : Gathered e m q 0 0 := ⟨by simp, by simp⟩
  exact hnone.readLoop (Nat.zero_le n) (Nat.sub_le n 0)

/-- Settles O13: the loop gathers all bits of the field from none. -/
theorem readFieldFollowsBitLayout : Obligations.ReadFieldFollowsBitLayout := by
  intro e n q m
  exact ⟨(gathered_readField e n q m).lt, (gathered_readField e n q m).bits⟩

/-- The bits of a stretch of the stream have one pattern. -/
theorem Gathered.unique {e : Endian} {m : Memory} {q n p p' : Nat} (h : Gathered e m q n p)
    (h' : Gathered e m q n p') : p = p' := by
  refine Nat.eq_of_testBit_eq fun k => ?_
  by_cases hk : k < n
  · rw [← bitOfField_bitOfField e hk, h.bits _ (bitOfField_lt e hk), h'.bits _ (bitOfField_lt e hk)]
  · have hpow : 2 ^ n ≤ 2 ^ k := Nat.pow_le_pow_right two_pos (Nat.le_of_not_lt hk)
    rw [Nat.testBit_lt_two_pow (h.lt.trans_le hpow), Nat.testBit_lt_two_pow (h'.lt.trans_le hpow)]

/-- Settles O14: the pattern written and the pattern read are both that of the field's stream bits. -/
theorem readFieldReturnsWrittenField : Obligations.ReadFieldReturnsWrittenField := by
  intro e p n q m hp
  have hwritten : Gathered e (writeField e p n q m) q n p :=
    ⟨hp, fun j hj => ((writeFieldFollowsBitLayout e p n q m).1 j hj).symm⟩
  exact (gathered_readField e n q _).unique hwritten

end Sys2Proof.Machine
end

section
/-!
PROOFS. 41_bitcodec.md R67 to R76 (O15, O17 to O19): the n-bit pattern of a value and its extension back, and the bit
commands with capacity. What they store and return is the loops' stream layout; the clauses that hold at the top of the
offset range too are kept apart from the cursor (log 4).
-/

namespace Sys2Proof.Machine

open Sys2Proof

/-! ### The pattern of a value (41_bitcodec.md R68) -/

theorem fieldPattern_lt (v : Int) (n : Nat) : fieldPattern v n < 2 ^ n := by
  have hpos : (0 : Int) < 2 ^ n := by positivity
  rw [fieldPattern, Int.toNat_lt (Int.emod_nonneg v hpos.ne')]
  exact_mod_cast Int.emod_lt_of_pos v hpos

/-- The pattern of a register's value is its low bits. -/
theorem fieldPattern_toInt (x : Word64) {n : Nat} (hn : n ≤ 64) : fieldPattern x.toInt n = x.toNat % 2 ^ n := by
  have hfull : x.toInt % (2 : Int) ^ 64 = x.toNat := by
    have h := congrArg BitVec.toNat (BitVec.ofInt_toInt (x := x))
    rw [BitVec.toNat_ofInt] at h
    push_cast at h
    omega
  have hdvd : (2 : Int) ^ n ∣ 2 ^ 64 := pow_dvd_pow 2 hn
  rw [fieldPattern, ← Int.emod_emod_of_dvd x.toInt hdvd, hfull]
  exact_mod_cast Int.toNat_natCast _

theorem testBit_fieldPattern_toInt (x : Word64) {n k : Nat} (hn : n ≤ 64) (hk : k < n) :
    (fieldPattern x.toInt n).testBit k = x.getLsbD k := by
  rw [fieldPattern_toInt x hn, Nat.testBit_mod_two_pow, decide_eq_true hk, Bool.true_and, BitVec.getLsbD]

/-! ### The extension of a pattern (41_bitcodec.md R74) -/

/-- Below `2^n`, subtracting `2^n` mod `2^64` sets all bits from `n` on. -/
theorem toNat_ofInt_sub_two_pow {p n : Nat} (hp : p < 2 ^ n) (hn : n ≤ 64) :
    (BitVec.ofInt 64 ((p : Int) - 2 ^ n)).toNat = 2 ^ n * (2 ^ (64 - n) - 1) + p := by
  have hsplit : 2 ^ n * 2 ^ (64 - n) = 2 ^ 64 := by rw [← Nat.pow_add, Nat.add_sub_cancel' hn]
  have hle : 2 ^ n ≤ 2 ^ 64 := Nat.pow_le_pow_right two_pos hn
  rw [BitVec.toNat_ofInt, Nat.mul_sub, hsplit, Nat.mul_one]
  have hcast : ((2 : Int) ^ n) = ((2 ^ n : Nat) : Int) := by push_cast; rfl
  rw [hcast]
  generalize 2 ^ n = t at *
  omega

/-- The bits of an extension: those of the pattern, and above them 0 or copies of its top bit. -/
theorem getLsbD_extendField {p n k : Nat} (u : Signedness) (hp : p < 2 ^ n) (hn : n ≤ 64) (hk : k < 64) :
    (extendField p n u).getLsbD k =
      if k < n then p.testBit k else match u with | .unsigned => false | .signed => p.testBit (n - 1) := by
  have hplain : (BitVec.ofNat 64 p).getLsbD k = if k < n then p.testBit k else false := by
    rw [BitVec.getLsbD_ofNat, decide_eq_true hk, Bool.true_and]
    split
    case isTrue => rfl
    case isFalse hhigh =>
      exact Nat.testBit_lt_two_pow (hp.trans_le (Nat.pow_le_pow_right two_pos (Nat.le_of_not_lt hhigh)))
  cases u with
  | unsigned => exact hplain
  | signed =>
    cases htop : p.testBit (n - 1) with
    | false => rw [extendField, if_neg (by simp [htop])]; exact hplain
    | true =>
      rw [extendField, if_pos htop, BitVec.getLsbD, toNat_ofInt_sub_two_pow hp hn, Nat.testBit_two_pow_mul_add _ hp,
        Nat.testBit_two_pow_sub_one]
      split
      case isTrue => rfl
      case isFalse hhigh => exact decide_eq_true (by omega)

/-- Extending the pattern of a value in range gives the value. -/
theorem extendField_fieldPattern {v : Int} {n : Nat} {u : Signedness} (hn : 1 ≤ n) (h : inRange v n u = true) :
    extendField (fieldPattern v n) n u = BitVec.ofInt 64 v := by
  have hhalf : (2 : Int) ^ n = 2 * 2 ^ (n - 1) := by rw [← pow_succ', Nat.sub_add_cancel hn]
  have hpos : (0 : Int) < 2 ^ (n - 1) := by positivity
  have hplain (h0 : 0 ≤ v) (hlt : v < 2 ^ n) : (fieldPattern v n : Int) = v := by
    rw [fieldPattern, Int.emod_eq_of_lt h0 hlt, Int.toNat_of_nonneg h0]
  rcases (inRange_eq_true_iff v n u).mp h with ⟨rfl, h0, hmax⟩ | ⟨rfl, hmin, hmax⟩
  · rw [extendField, ← BitVec.ofInt_natCast, hplain h0 (by omega)]
  · by_cases h0 : 0 ≤ v
    · have hp := hplain h0 (by omega)
      have htop : (fieldPattern v n).testBit (n - 1) = false := by
        apply Nat.testBit_lt_two_pow
        zify
        omega
      rw [extendField, if_neg (by simp [htop]), ← BitVec.ofInt_natCast, hp]
    · have hp : (fieldPattern v n : Int) = v + 2 ^ n := by
        rw [fieldPattern, ← Int.add_emod_right, Int.emod_eq_of_lt (by omega) (by omega),
          Int.toNat_of_nonneg (by omega)]
      have htop : (fieldPattern v n).testBit (n - 1) = true := by
        apply Nat.testBit_of_two_pow_le_and_two_pow_add_one_gt
        · zify
          omega
        · rw [Nat.sub_add_cancel hn]
          exact fieldPattern_lt v n
      rw [extendField, if_pos htop, hp, add_sub_cancel_right]

/-! ### Bit commands with capacity -/

theorem ensureCapacity_fieldNeeded {n : Nat} {s : State}
    (hcap : hasCapacity (s.curOff.toNat + (s.curBit.toNat + n + 7) / 8) s = true) :
    ensureCapacity (s.fieldNeeded n) s =
      some ⟨s.buf.cells, sizeAfter (s.curOff.toNat + (s.curBit.toNat + n + 7) / 8) s⟩ := by
  rw [State.fieldNeeded_formula, ensureCapacity_of_hasCapacity hcap]

theorem inRange_of_bounds {v : Int} {n : Nat} {u : Signedness} (hunsigned : u = .unsigned → 0 ≤ v ∧ v ≤ 2 ^ n - 1)
    (hsigned : u = .signed → -2 ^ (n - 1) ≤ v ∧ v ≤ 2 ^ (n - 1) - 1) : inRange v n u = true := by
  rw [inRange_eq_true_iff]
  cases u with
  | unsigned => exact .inl ⟨rfl, hunsigned rfl⟩
  | signed => exact .inr ⟨rfl, hsigned rfl⟩

/-- The bit offset after an advance, which fits wherever the cursor is. -/
theorem toNat_curBit_advanceBits (n : Nat) (s : State) :
    (s.advanceBits n).curBit.toNat = (s.curBit.toNat + n) % 8 := by
  rw [State.advanceBits, State.advance_curBit, BitVec.toNat_ofNat, Nat.add_comm]
  exact Nat.mod_mod _ _

/-- What `WRBITS` of `n` bits leaves of the buffer of `s`, wherever the cursor ends. -/
structure FieldStored (n : Nat) (e : OrderSel) (s t : State) : Prop where
  size : t.buf.size = sizeAfter (s.curOff.toNat + (s.curBit.toNat + n + 7) / 8) s
  field : ∀ j, j < n → streamBit (effOrder e s) t.buf.cells (s.position + j)
    = s.opa.getLsbD (bitOfField (effOrder e s) n j)
  stream : ∀ x, x < s.position ∨ s.position + n ≤ x →
    streamBit (effOrder e s) t.buf.cells x = streamBit (effOrder e s) s.buf.cells x
  bytes : ∀ a, a < s.curOff.toNat ∨ s.curOff.toNat + (s.curBit.toNat + n + 7) / 8 ≤ a →
    t.buf.byte a = s.buf.byte a

/-- `WRBITS` with good arguments and capacity stores the field and advances the cursor. -/
theorem exec_wrbits_of_hasCapacity {s : State} {n : Nat} {u : Signedness} (e : OrderSel) (h1 : 1 ≤ n) (h32 : n ≤ 32)
    (hrange : inRange s.opa.toInt n u = true)
    (hcap : hasCapacity (s.curOff.toNat + (s.curBit.toNat + n + 7) / 8) s = true) :
    ∃ b, exec (.wrbits n u e) s = .next ((s.setBuf b).advanceBits n).complete ∧
      FieldStored n e s ((s.setBuf b).advanceBits n).complete := by
  have hbuf := ensureCapacity_fieldNeeded hcap
  rcases execWrbits_cases e h1 h32 hrange with ⟨hnone, -⟩ | ⟨b, hsome, hdone⟩
  · cases hnone.symm.trans hbuf
  · obtain rfl := Option.some.inj (hsome.symm.trans hbuf)
    obtain ⟨hfield, hstream⟩ :=
      writeFieldFollowsBitLayout (effOrder e s) (fieldPattern s.opa.toInt n) n s.position s.buf.cells
    have hconfined := confinedTo_writeField_fieldNeeded (effOrder e s) (fieldPattern s.opa.toInt n) n s s.buf.cells
    rw [State.fieldNeeded_formula] at hconfined
    refine ⟨⟨_, _⟩, hdone, rfl, fun j hj => ?_, hstream, hconfined.outside⟩
    exact (hfield j hj).trans (testBit_fieldPattern_toInt s.opa (by omega) (bitOfField_lt _ hj))

/-- What `RDBITS` of `n` bits returns, wherever the cursor ends. -/
structure FieldReturned (n : Nat) (u : Signedness) (e : OrderSel) (s : State) (v : Word64) : Prop where
  field : ∀ j, j < n → v.getLsbD (bitOfField (effOrder e s) n j)
    = streamBit (effOrder e s) s.buf.cells (s.position + j)
  above : ∀ k, n ≤ k → k < 64 →
    v.getLsbD k = match u with | .unsigned => false | .signed => v.getLsbD (n - 1)

theorem fieldReturned_readField {n : Nat} (u : Signedness) (e : OrderSel) (s : State) (h1 : 1 ≤ n) (h32 : n ≤ 32) :
    FieldReturned n u e s (extendField (readField (effOrder e s) n s.position s.buf.cells) n u) := by
  obtain ⟨hlt, hbits⟩ := readFieldFollowsBitLayout (effOrder e s) n s.position s.buf.cells
  have hlow (k : Nat) (hk : k < n) := getLsbD_extendField u hlt (show n ≤ 64 by omega) (show k < 64 by omega)
  refine ⟨fun j hj => ?_, fun k hn hk => ?_⟩
  · rw [hlow _ (bitOfField_lt _ hj), if_pos (bitOfField_lt _ hj), hbits j hj]
  · rw [getLsbD_extendField u hlt (by omega) hk, if_neg (by omega), hlow _ (by omega), if_pos (by omega)]

/-- `RDBITS` of 1 to 32 bits with capacity returns the field and advances the cursor. -/
theorem exec_rdbits_of_hasCapacity {s : State} {n : Nat} (u : Signedness) (e : OrderSel) (h1 : 1 ≤ n) (h32 : n ≤ 32)
    (hcap : hasCapacity (s.curOff.toNat + (s.curBit.toNat + n + 7) / 8) s = true) :
    ∃ v, exec (.rdbits n u e) s =
        .next (((s.setBuf ⟨s.buf.cells, sizeAfter (s.curOff.toNat + (s.curBit.toNat + n + 7) / 8) s⟩).setRes
          v).advanceBits n).complete ∧
      FieldReturned n u e s v := by
  have hbuf := ensureCapacity_fieldNeeded hcap
  rcases execRdbits_cases u e h1 h32 with ⟨hnone, -⟩ | ⟨b, hsome, hdone⟩
  · cases hnone.symm.trans hbuf
  · obtain rfl := Option.some.inj (hsome.symm.trans hbuf)
    exact ⟨_, hdone, fieldReturned_readField u e s h1 h32⟩

/-! ### Below the top of the offset range -/

/-- The advance by `n` bits, where the new offset fits. -/
theorem position_advanceBits {s : State} {n : Nat} (h : s.position + n < 2 ^ 67) :
    s.advanceBits n = s.setCursor (s.advanceBits n).curOff (s.advanceBits n).curBit ∧
      (s.advanceBits n).position = s.position + n := by
  have hbit := s.curBit.isLt
  rw [State.position] at h
  have hfits : s.curOff.toNat + (n + s.curBit.toNat) / 8 < 2 ^ 64 := by omega
  rw [State.advanceBits, State.advance_eq_setCursor _ hfits]
  refine ⟨rfl, ?_⟩
  simp only [State.position, State.setCursor_curOff, State.setCursor_curBit, BitVec.toNat_ofNat]
  omega

/-- Settles O15: the value's pattern is stored by the loop, and the cursor advances by `n` bits. -/
theorem wrbitsStoresField : Obligations.WrbitsStoresField := by
  intro s n u e h1 h32 hunsigned hsigned hcap htop
  obtain ⟨b, hexec, hstored⟩ := exec_wrbits_of_hasCapacity e h1 h32 (inRange_of_bounds hunsigned hsigned) hcap
  obtain ⟨hcursor, hposition⟩ := position_advanceBits (s := s.setBuf b) htop
  refine ⟨_, hexec, hposition, hstored.size, hstored.field, hstored.stream, hstored.bytes, ?_⟩
  rw [hcursor]
  rfl

/-- Settles O17: the loop's pattern is extended into `RES`, and the cursor advances by `n` bits. -/
theorem rdbitsReturnsField : Obligations.RdbitsReturnsField := by
  intro s n u e h1 h32 hcap htop
  obtain ⟨v, hexec, hreturned⟩ := exec_rdbits_of_hasCapacity u e h1 h32 hcap
  obtain ⟨hcursor, hposition⟩ := position_advanceBits (n := n) (s := (s.setBuf
    ⟨s.buf.cells, sizeAfter (s.curOff.toNat + (s.curBit.toNat + n + 7) / 8) s⟩).setRes v) htop
  refine ⟨_, hexec, hposition, hreturned.field, hreturned.above, ?_⟩
  rw [hcursor]
  rfl

/-! ### Reading back -/

/-- Settles O18: both counts are dealt with before the capacity check. -/
theorem rdbitsZeroAndOverlong : Obligations.RdbitsZeroAndOverlong := by
  intro s n u e
  refine ⟨rfl, fun hlong => ⟨_, ?_, raisedFrom_raise .invalidArgument 0 s⟩⟩
  rw [exec, execRdbits, if_neg (by omega), if_pos hlong, fail]

theorem ensureCapacity_of_le {needed : Nat} {s : State} (h : needed ≤ s.buf.size) :
    ensureCapacity needed s = some s.buf := if_pos h

/-- `RDBITS` at a field that holds the pattern of a value in range returns the value, with no further growth. -/
theorem exec_rdbits_of_written {s : State} {n : Nat} {u : Signedness} {e : OrderSel} {x : Word64} {m : Memory}
    (h1 : 1 ≤ n) (h32 : n ≤ 32) (hrange : inRange x.toInt n u = true) (hsize : s.fieldNeeded n ≤ s.buf.size)
    (hcells : s.buf.cells = writeField (effOrder e s) (fieldPattern x.toInt n) n s.position m) :
    ∃ t, exec (.rdbits n u e) s = .next t ∧ t.statusCode = 0 ∧ t.res = x ∧ t.buf = s.buf := by
  rcases execRdbits_cases u e (s := s) h1 h32 with ⟨hnone, -⟩ | ⟨b, hsome, hdone⟩
  · cases hnone.symm.trans (ensureCapacity_of_le hsize)
  · obtain rfl := Option.some.inj (hsome.symm.trans (ensureCapacity_of_le hsize))
    refine ⟨_, hdone, rfl, ?_, rfl⟩
    calc extendField (readField (effOrder e s) n s.position s.buf.cells) n u
      _ = extendField (fieldPattern x.toInt n) n u := by
        rw [hcells, readFieldReturnsWrittenField _ _ _ _ _ (fieldPattern_lt x.toInt n)]
      _ = x := by rw [extendField_fieldPattern h1 hrange, BitVec.ofInt_toInt]

/-- A `WRBITS` that completes had good arguments and has stored the value's pattern in the buffer of its capacity
check. -/
theorem exec_wrbits_completed {s t : State} {n : Nat} {u : Signedness} {e : OrderSel}
    (ht : exec (.wrbits n u e) s = .next t) (hcode : t.statusCode = 0) :
    1 ≤ n ∧ n ≤ 32 ∧ inRange s.opa.toInt n u = true ∧ ∃ b, ensureCapacity (s.fieldNeeded n) s = some b ∧
      t = (((s.setBuf b).setCells
        (writeField (effOrder e s) (fieldPattern s.opa.toInt n) n s.position b.cells)).advanceBits n).complete := by
  have hnot {k : ErrorKind} {needed : Nat} (hraise : exec (.wrbits n u e) s = .next (s.raise k needed)) : False := by
    obtain rfl := Host.Outcome.next.inj (hraise.symm.trans ht)
    exact raise_statusCode_ne_zero _ _ s hcode
  by_cases hcount : n < 1 ∨ 32 < n
  · exact (hnot (exec_wrbits_of_badCount u e s hcount)).elim
  have h1 : 1 ≤ n := by omega
  have h32 : n ≤ 32 := by omega
  cases hrange : inRange s.opa.toInt n u with
  | false => exact (hnot (exec_wrbits_of_not_inRange e h1 h32 hrange)).elim
  | true =>
    rcases execWrbits_cases e h1 h32 hrange with ⟨-, hraise⟩ | ⟨b, hsome, hdone⟩
    · exact (hnot hraise).elim
    · exact ⟨h1, h32, rfl, b, hsome, (Host.Outcome.next.inj (hdone.symm.trans ht)).symm⟩

/-- Settles O19: the write leaves the value's pattern in a buffer that is large enough to read it back. -/
theorem bitFieldRoundTrip : Obligations.BitFieldRoundTrip := by
  intro s t n u e ht hcode
  obtain ⟨h1, h32, hrange, b, hsome, rfl⟩ := exec_wrbits_completed ht hcode
  refine exec_rdbits_of_written (x := s.opa) (m := b.cells) h1 h32 hrange (ensureCapacity_some hsome).1 ?_
  cases e <;> rfl

end Sys2Proof.Machine
end

section
/-!
PROOFS. 42_float.md R77 to R88: one theory of rounding for the three formats. A format has `p` fraction bits and its
least positive value is `2^c` (in units of `2^-1074`); its patterns below the sign are numbers. A fraction `a / d` is
rounded on the grid `2^k` that its leading bit selects; what results is the pattern of a nearest value of the format,
and an even pattern at a tie.
-/

namespace Sys2Proof.Machine

open Sys2Proof

/-! ### `RNE` (00_scope.md R6) -/

/-- No multiple of `b` is nearer to `a` than the rounded one, and where another is as near the rounded one is even. -/
theorem roundNearestEven_nearest (a : Nat) {b : Nat} (hb : 0 < b) (n : Nat) :
    gap (roundNearestEven a b * b) a ≤ gap (n * b) a ∧
      (gap (roundNearestEven a b * b) a = gap (n * b) a → n ≠ roundNearestEven a b → roundNearestEven a b % 2 = 0) := by
  have hsplit : a / b * b + a % b = a := Nat.div_add_mod' a b
  have hmod := Nat.mod_lt a hb
  have hnext : (a / b + 1) * b = a / b * b + b := Nat.succ_mul _ _
  have hside : n = a / b ∨ n * b + b ≤ a / b * b ∨ n = a / b + 1 ∨ a / b * b + b + b ≤ n * b := by
    rcases Nat.lt_trichotomy n (a / b) with hlt | heq | hgt
    · exact .inr (.inl (by simpa only [Nat.succ_mul] using Nat.mul_le_mul_right b hlt))
    · exact .inl heq
    · rcases Nat.eq_or_lt_of_le hgt with heq | hlt
      · exact .inr (.inr (.inl heq.symm))
      · exact .inr (.inr (.inr (by simpa only [Nat.succ_mul] using Nat.mul_le_mul_right b hlt)))
  rcases roundNearestEven_cases a b with ⟨hlow, hr⟩ | ⟨hhigh, hr⟩ | ⟨htie, hr⟩
  · rw [hr]
    rcases hside with rfl | hside | rfl | hside <;> simp only [gap, hnext] <;> omega
  · rw [hr]
    rcases hside with rfl | hside | rfl | hside <;> simp only [gap, hnext] <;> omega
  · have heven : (a / b + a / b % 2) % 2 = 0 := by omega
    rw [hr]
    refine ⟨?_, fun _ _ => heven⟩
    have hdist : gap ((a / b + a / b % 2) * b) a = a % b := by
      rcases Nat.mod_two_eq_zero_or_one (a / b) with h | h <;> simp only [h, gap, hnext, Nat.add_zero] <;> omega
    rw [hdist]
    rcases hside with rfl | hside | rfl | hside <;> simp only [gap, hnext] <;> omega

theorem le_roundNearestEven {a b n : Nat} (hb : 0 < b) (h : n * b ≤ a) : n ≤ roundNearestEven a b := by
  have hdiv : n ≤ a / b := (Nat.le_div_iff_mul_le hb).mpr h
  rcases roundNearestEven_cases a b with ⟨-, hr⟩ | ⟨-, hr⟩ | ⟨-, hr⟩ <;> omega

theorem roundNearestEven_le {a b n : Nat} (hb : 0 < b) (h : a ≤ n * b) : roundNearestEven a b ≤ n := by
  have hle : roundNearestEven a b ≤ a / b + 1 := by
    rcases roundNearestEven_cases a b with ⟨-, hr⟩ | ⟨-, hr⟩ | ⟨-, hr⟩ <;> omega
  by_cases hlt : a / b < n
  · omega
  · have hexact : a = n * b := Nat.le_antisymm h ((Nat.le_div_iff_mul_le hb).mp (Nat.le_of_not_lt hlt))
    rw [hexact, roundNearestEven, Nat.mul_mod_left, if_pos (by omega), Nat.mul_div_cancel n hb]

theorem roundNearestEven_mul {b : Nat} (hb : 0 < b) (n : Nat) : roundNearestEven (n * b) b = n :=
  Nat.le_antisymm (roundNearestEven_le hb le_rfl) (le_roundNearestEven hb le_rfl)

/-- What is rounded stays below an even bound exactly where it is below the midpoint under that bound. -/
theorem roundNearestEven_lt_iff {a b n : Nat} (hb : 0 < b) :
    roundNearestEven a b < 2 * (n + 1) ↔ 2 * a < (4 * n + 3) * b := by
  have hsplit : a / b * b + a % b = a := Nat.div_add_mod' a b
  have hmod := Nat.mod_lt a hb
  have hodd : (4 * n + 3) * b = 2 * ((2 * n + 1) * b) + b := by ring
  rcases Nat.lt_trichotomy (a / b) (2 * n + 1) with hlt | heq | hgt
  · have hside : a / b * b + b ≤ (2 * n + 1) * b := by simpa only [Nat.succ_mul] using Nat.mul_le_mul_right b hlt
    rcases roundNearestEven_cases a b with ⟨h, hr⟩ | ⟨h, hr⟩ | ⟨h, hr⟩ <;> omega
  · rw [heq] at hsplit
    rcases roundNearestEven_cases a b with ⟨h, hr⟩ | ⟨h, hr⟩ | ⟨h, hr⟩ <;> omega
  · have hside : (2 * n + 1) * b + b ≤ a / b * b := by simpa only [Nat.succ_mul] using Nat.mul_le_mul_right b hgt
    rcases roundNearestEven_cases a b with ⟨h, hr⟩ | ⟨h, hr⟩ | ⟨h, hr⟩ <;> omega

/-! ### Patterns and their values -/

/-- The value of the pattern `w` in the format `p`, `c`: exponent field `w / 2^p`, fraction `w % 2^p`. -/
def formatValue (p c w : Nat) : Nat :=
  if w / 2 ^ p = 0 then w % 2 ^ p * 2 ^ c else (2 ^ p + w % 2 ^ p) * 2 ^ (c + w / 2 ^ p - 1)

/-- The exponent of the grid on which the format rounds `a / d`. -/
def gridExponent (p c a d : Nat) : Nat := max c ((a / d).log2 - p)

/-- The pattern of `a / d` rounded to the format, with no bound on the exponent field. -/
def formatRound (p c a d : Nat) : Nat :=
  (gridExponent p c a d - c) * 2 ^ p + roundNearestEven a (d * 2 ^ gridExponent p c a d)

/-- Every value of the format is a significand of `p + 1` bits scaled by at least `2^c`. -/
theorem formatValue_eq_significand (p c w : Nat) :
    ∃ m k, m < 2 ^ (p + 1) ∧ c ≤ k ∧ formatValue p c w = m * 2 ^ k := by
  have hfrac := Nat.mod_lt w (Nat.two_pow_pos p)
  rw [formatValue]
  generalize w / 2 ^ p = x
  split
  case isTrue => exact ⟨_, _, by rw [Nat.pow_succ]; omega, le_rfl, rfl⟩
  case isFalse h => exact ⟨_, _, by rw [Nat.pow_succ]; omega, by omega, rfl⟩

/-- A value's bound is a bound on its exponent field. -/
theorem formatValue_lt_iff (p c w : Nat) {x : Nat} (hx : 1 ≤ x) :
    formatValue p c w < 2 ^ (p + c + (x - 1)) ↔ w < x * 2 ^ p := by
  have hfrac := Nat.mod_lt w (Nat.two_pow_pos p)
  rw [← Nat.div_lt_iff_lt_mul (Nat.two_pow_pos p), formatValue]
  generalize w / 2 ^ p = e
  split
  case isTrue h0 =>
    refine iff_of_true ?_ (by omega)
    calc w % 2 ^ p * 2 ^ c < 2 ^ p * 2 ^ c := Nat.mul_lt_mul_of_pos_right hfrac (Nat.two_pow_pos c)
      _ = 2 ^ (p + c) := (Nat.pow_add 2 p c).symm
      _ ≤ _ := Nat.pow_le_pow_right two_pos (by omega)
  case isFalse h0 =>
    by_cases hlt : e < x
    · refine iff_of_true ?_ hlt
      calc (2 ^ p + w % 2 ^ p) * 2 ^ (c + e - 1)
        _ < 2 ^ (p + 1) * 2 ^ (c + e - 1) :=
          Nat.mul_lt_mul_of_pos_right (by rw [Nat.pow_succ]; omega) (Nat.two_pow_pos _)
        _ = 2 ^ (p + 1 + (c + e - 1)) := (Nat.pow_add 2 _ _).symm
        _ ≤ _ := Nat.pow_le_pow_right two_pos (by omega)
    · refine iff_of_false (Nat.not_lt.mpr ?_) hlt
      calc 2 ^ (p + c + (x - 1)) ≤ 2 ^ (p + (c + e - 1)) := Nat.pow_le_pow_right two_pos (by omega)
        _ = 2 ^ p * 2 ^ (c + e - 1) := Nat.pow_add 2 _ _
        _ ≤ _ := Nat.mul_le_mul_right _ (Nat.le_add_right _ _)

/-- A significand that is full, or on the lowest grid, has the pattern that counts its grid. A carry out of the
significand counts into the exponent field. -/
theorem formatValue_of_significand {p c k r : Nat} (hck : c ≤ k) (hr : r ≤ 2 ^ (p + 1)) (hfull : k = c ∨ 2 ^ p ≤ r) :
    formatValue p c ((k - c) * 2 ^ p + r) = r * 2 ^ k := by
  have hpos := Nat.two_pow_pos p
  have hparts (x f : Nat) (hf : f < 2 ^ p) (hw : (k - c) * 2 ^ p + r = x * 2 ^ p + f) :
      ((k - c) * 2 ^ p + r) / 2 ^ p = x ∧ ((k - c) * 2 ^ p + r) % 2 ^ p = f := by
    rw [hw, Nat.add_comm]
    exact ⟨by rw [Nat.add_mul_div_right _ _ hpos, Nat.div_eq_of_lt hf, Nat.zero_add],
      by rw [Nat.add_mul_mod_self_right, Nat.mod_eq_of_lt hf]⟩
  rw [Nat.pow_succ] at hr
  rcases Nat.lt_trichotomy r (2 ^ p) with hlow | heq | hhigh
  · obtain rfl : k = c := hfull.resolve_right hlow.not_ge
    obtain ⟨hx, hf⟩ := hparts 0 r hlow (by simp)
    rw [formatValue, if_pos hx, hf]
  · obtain ⟨hx, hf⟩ := hparts (k - c + 1) 0 hpos (by rw [heq, Nat.add_mul]; omega)
    rw [formatValue, hx, if_neg (by omega), hf, heq, show c + (k - c + 1) - 1 = k by omega, Nat.add_zero]
  · by_cases hcarry : r = 2 ^ p * 2
    · obtain ⟨hx, hf⟩ := hparts (k - c + 2) 0 hpos (by rw [hcarry, Nat.add_mul]; omega)
      rw [formatValue, hx, if_neg (by omega), hf, hcarry, show c + (k - c + 2) - 1 = k + 1 by omega, Nat.add_zero,
        Nat.pow_succ]
      ring
    · obtain ⟨hx, hf⟩ := hparts (k - c + 1) (r - 2 ^ p) (by omega) (by rw [Nat.add_mul]; omega)
      rw [formatValue, hx, if_neg (by omega), hf, show c + (k - c + 1) - 1 = k by omega,
        Nat.add_sub_cancel' hhigh.le]

/-! ### The grid of a fraction -/

theorem le_gridExponent (p c a d : Nat) : c ≤ gridExponent p c a d := Nat.le_max_left _ _

theorem lt_gridExponent (p c a : Nat) {d : Nat} (hd : 0 < d) : a < 2 ^ (p + 1) * (d * 2 ^ gridExponent p c a d) := by
  have hlog : (a / d).log2 + 1 ≤ p + 1 + gridExponent p c a d := by
    rw [gridExponent]
    omega
  have hlt : a / d < 2 ^ (p + 1 + gridExponent p c a d) :=
    Nat.lt_log2_self.trans_le (Nat.pow_le_pow_right two_pos hlog)
  rw [Nat.div_lt_iff_lt_mul hd, Nat.pow_add] at hlt
  linarith

/-- The grid is the lowest one, or the fraction's leading bit is the significand's. -/
theorem gridExponent_cases (p c a : Nat) {d : Nat} (hd : 0 < d) :
    gridExponent p c a d = c ∨ 2 ^ p * (d * 2 ^ gridExponent p c a d) ≤ a := by
  by_cases hlow : (a / d).log2 - p ≤ c
  · exact .inl (Nat.max_eq_left hlow)
  · have hgrid : gridExponent p c a d = (a / d).log2 - p := Nat.max_eq_right (Nat.le_of_not_le hlow)
    have hne : a / d ≠ 0 := fun h => hlow (by simp [h])
    have hle : 2 ^ (p + gridExponent p c a d) ≤ a / d := by
      rw [show p + gridExponent p c a d = (a / d).log2 by omega]
      exact Nat.log2_self_le hne
    rw [Nat.le_div_iff_mul_le hd, Nat.pow_add] at hle
    exact .inr (by linarith)

theorem gridUnit_pos (p c a : Nat) {d : Nat} (hd : 0 < d) : 0 < d * 2 ^ gridExponent p c a d :=
  Nat.mul_pos hd (Nat.two_pow_pos _)

/-- The pattern of the rounded fraction stands for the rounded significand on the grid. -/
theorem formatValue_formatRound (p c a : Nat) {d : Nat} (hd : 0 < d) :
    formatValue p c (formatRound p c a d) =
      roundNearestEven a (d * 2 ^ gridExponent p c a d) * 2 ^ gridExponent p c a d := by
  have hunit := gridUnit_pos p c a hd
  refine formatValue_of_significand (le_gridExponent p c a d) ?_ ?_
  · exact roundNearestEven_le hunit (lt_gridExponent p c a hd).le
  · exact (gridExponent_cases p c a hd).imp id (le_roundNearestEven hunit)

theorem formatRound_mod_two {p : Nat} (hp : 1 ≤ p) (c a d : Nat) :
    formatRound p c a d % 2 = roundNearestEven a (d * 2 ^ gridExponent p c a d) % 2 := by
  obtain ⟨k, rfl⟩ := Nat.exists_eq_add_of_le' hp
  rw [formatRound, Nat.pow_succ, ← Nat.mul_assoc, Nat.mul_add_mod_self_right]

/-! ### Rounding to nearest even (42_float.md R84) -/

/-- The values of the format on a lower grid are below the significands that the grid of `a / d` gives, so none of them
is nearer; those on the same or a higher grid are multiples of its unit. -/
theorem formatRound_nearest {p : Nat} (hp : 1 ≤ p) (c a : Nat) {d : Nat} (hd : 0 < d) (w : Nat) :
    gap (formatValue p c (formatRound p c a d) * d) a ≤ gap (formatValue p c w * d) a ∧
      (gap (formatValue p c (formatRound p c a d) * d) a = gap (formatValue p c w * d) a →
        formatValue p c w ≠ formatValue p c (formatRound p c a d) → formatRound p c a d % 2 = 0) := by
  obtain ⟨m, j, hm, hcj, hvalue⟩ := formatValue_eq_significand p c w
  have hunit := gridUnit_pos p c a hd
  have hcases := gridExponent_cases p c a hd
  rw [formatRound_mod_two hp, formatValue_formatRound p c a hd, hvalue]
  generalize gridExponent p c a d = k at *
  have hnear := roundNearestEven_nearest a hunit
  generalize roundNearestEven a (d * 2 ^ k) = r at *
  have hr : r * 2 ^ k * d = r * (d * 2 ^ k) := by ring
  rw [hr]
  by_cases hkj : k ≤ j
  · have hmul : m * 2 ^ j = m * 2 ^ (j - k) * 2 ^ k := by rw [Nat.mul_assoc, ← Nat.pow_add, Nat.sub_add_cancel hkj]
    have hn : m * 2 ^ j * d = m * 2 ^ (j - k) * (d * 2 ^ k) := by rw [hmul]; ring
    rw [hn, hmul]
    obtain ⟨hle, heven⟩ := hnear (m * 2 ^ (j - k))
    exact ⟨hle, fun heq hne => heven heq fun h => hne (by rw [h])⟩
  · have hlow : m * 2 ^ j * d < 2 ^ p * (d * 2 ^ k) := by
      calc m * 2 ^ j * d < 2 ^ (p + 1) * 2 ^ j * d := by gcongr
        _ = 2 ^ p * (d * 2 ^ (j + 1)) := by ring
        _ ≤ 2 ^ p * (d * 2 ^ k) := by gcongr <;> omega
    have hle : 2 ^ p * (d * 2 ^ k) ≤ a := hcases.resolve_left (by omega)
    have hbest := (hnear (2 ^ p)).1
    have hstrict : gap (r * (d * 2 ^ k)) a < gap (m * 2 ^ j * d) a := by
      refine hbest.trans_lt ?_
      simp only [gap]
      omega
    exact ⟨hstrict.le, fun heq => absurd heq hstrict.ne⟩

/-- The exponent field stays below `x` exactly below the midpoint above the largest value that has it so. -/
theorem formatRound_lt_iff (p c a : Nat) {d x : Nat} (hd : 0 < d) (hx : 2 ≤ x) :
    formatRound p c a d < x * 2 ^ p ↔ 2 * a < (2 ^ (p + 2) - 1) * (d * 2 ^ (c + (x - 2))) := by
  have hunit := gridUnit_pos p c a hd
  have hck := le_gridExponent p c a d
  have hlt := lt_gridExponent p c a hd
  have hcases := gridExponent_cases p c a hd
  have hpos := Nat.two_pow_pos p
  have hsplit : (2 ^ (p + 2) - 1) = 4 * (2 ^ p - 1) + 3 := by rw [Nat.pow_add]; omega
  rw [formatRound]
  generalize gridExponent p c a d = k at *
  rcases Nat.lt_trichotomy k (c + (x - 2)) with hlow | heq | hhigh
  · have hround := roundNearestEven_le hunit hlt.le
    have hdouble : 2 * (d * 2 ^ k) ≤ d * 2 ^ (c + (x - 2)) := by
      calc 2 * (d * 2 ^ k) = d * 2 ^ (k + 1) := by ring
        _ ≤ _ := Nat.mul_le_mul_left d (Nat.pow_le_pow_right two_pos hlow)
    refine iff_of_true ?_ ?_
    · calc (k - c) * 2 ^ p + roundNearestEven a (d * 2 ^ k)
        _ ≤ (k - c) * 2 ^ p + 2 ^ (p + 1) := by gcongr
        _ = (k - c + 2) * 2 ^ p := by ring
        _ < x * 2 ^ p := Nat.mul_lt_mul_of_pos_right (by omega) hpos
    · calc 2 * a < 2 * (2 ^ (p + 1) * (d * 2 ^ k)) := by gcongr
        _ = 2 ^ (p + 1) * (2 * (d * 2 ^ k)) := by ring
        _ ≤ (2 ^ (p + 2) - 1) * (d * 2 ^ (c + (x - 2))) := Nat.mul_le_mul (by rw [Nat.pow_succ]; omega) hdouble
  · subst heq
    have hx' : x * 2 ^ p = (c + (x - 2) - c) * 2 ^ p + 2 * (2 ^ p - 1 + 1) := by
      obtain ⟨y, rfl⟩ := Nat.exists_eq_add_of_le' hx
      rw [Nat.add_sub_cancel, Nat.add_sub_cancel_left, Nat.add_mul, Nat.sub_add_cancel hpos]
    rw [hx', Nat.add_lt_add_iff_left, roundNearestEven_lt_iff hunit, hsplit]
  · have hle : 2 ^ p * (d * 2 ^ k) ≤ a := hcases.resolve_left (by omega)
    have hround := le_roundNearestEven hunit hle
    have hdouble : 2 * (d * 2 ^ (c + (x - 2))) ≤ d * 2 ^ k := by
      calc 2 * (d * 2 ^ (c + (x - 2))) = d * 2 ^ (c + (x - 2) + 1) := by ring
        _ ≤ _ := Nat.mul_le_mul_left d (Nat.pow_le_pow_right two_pos hhigh)
    refine iff_of_false (Nat.not_lt.mpr ?_) (Nat.not_lt.mpr ?_)
    · calc x * 2 ^ p ≤ (k - c + 1) * 2 ^ p := Nat.mul_le_mul_right _ (by omega)
        _ = (k - c) * 2 ^ p + 2 ^ p := Nat.succ_mul _ _
        _ ≤ _ := by gcongr
    · calc (2 ^ (p + 2) - 1) * (d * 2 ^ (c + (x - 2)))
        _ ≤ 2 ^ (p + 2) * (d * 2 ^ (c + (x - 2))) := Nat.mul_le_mul_right _ (Nat.sub_le _ _)
        _ = 2 * 2 ^ p * (2 * (d * 2 ^ (c + (x - 2)))) := by ring
        _ ≤ 2 * 2 ^ p * (d * 2 ^ k) := by gcongr
        _ ≤ 2 * a := by rw [Nat.mul_assoc]; gcongr

/-! ### Values of the format are kept -/

/-- A value of the format lies on its own grid, so rounding gives its pattern back. -/
theorem formatRound_formatValue (p c w : Nat) : formatRound p c (formatValue p c w) 1 = w := by
  have hpos := Nat.two_pow_pos p
  have hfrac := Nat.mod_lt w hpos
  have hsplit := Nat.div_add_mod' w (2 ^ p)
  rw [formatRound, gridExponent, Nat.div_one, Nat.one_mul, formatValue]
  generalize w / 2 ^ p = x at *
  generalize w % 2 ^ p = f at *
  split
  case isTrue hzero =>
    have hlog : (f * 2 ^ c).log2 - p ≤ c := by
      by_cases hf : f = 0
      · simp [hf]
      · have hlt : f * 2 ^ c < 2 ^ (p + c) := by
          rw [Nat.pow_add]
          gcongr
        rw [← Nat.log2_lt (Nat.mul_ne_zero hf (Nat.two_pow_pos c).ne')] at hlt
        omega
    rw [Nat.max_eq_left hlog, Nat.sub_self, roundNearestEven_mul (Nat.two_pow_pos c)]
    simpa [hzero] using hsplit
  case isFalse hne =>
    have hvalue : (2 ^ p + f) * 2 ^ (c + x - 1) ≠ 0 := Nat.mul_ne_zero (by omega) (Nat.two_pow_pos _).ne'
    have hlog : ((2 ^ p + f) * 2 ^ (c + x - 1)).log2 = p + (c + x - 1) := by
      rw [Nat.log2_eq_iff hvalue]
      refine ⟨?_, ?_⟩
      · rw [Nat.pow_add]
        gcongr
        omega
      · rw [Nat.add_right_comm, Nat.pow_add]
        gcongr
        rw [Nat.pow_succ]
        omega
    rw [hlog, Nat.add_sub_cancel_left, Nat.max_eq_right (by omega), roundNearestEven_mul (Nat.two_pow_pos _)]
    obtain ⟨y, rfl⟩ := Nat.exists_eq_succ_of_ne_zero hne
    rw [← hsplit, show c + y.succ - 1 - c = y by omega, Nat.succ_mul]
    omega

/-- A format has one pattern for each of its values. -/
theorem formatValue_injective {p c w w' : Nat} (h : formatValue p c w = formatValue p c w') : w = w' := by
  rw [← formatRound_formatValue p c w, h, formatRound_formatValue]

end Sys2Proof.Machine
end

section
/-!
PROOFS. 42_float.md R79 to R88 (O27, O29 to O32): binary16 and binary32 as formats of the rounding theory, with 10 and
23 fraction bits. Their encodings are `formatRound`, their magnitudes `formatValue`, and the finite patterns are those with
an exponent field below the last one.
-/

namespace Sys2Proof.Machine

open Sys2Proof

/-! ### A sign bit above a pattern -/

theorem toNat_sign_append_mod (sign : Bool) {n w : Nat} (hw : w < 2 ^ n) :
    (BitVec.ofBool sign ++ BitVec.ofNat n w).toNat % 2 ^ n = w := by
  rw [BitVec.toNat_append, BitVec.toNat_ofNat, Nat.mod_eq_of_lt hw, ← Nat.shiftLeft_add_eq_or_of_lt hw,
    Nat.shiftLeft_eq, Nat.mul_comm, Nat.mul_add_mod, Nat.mod_eq_of_lt hw]

theorem getLsbD_sign_append (sign : Bool) (n w : Nat) :
    (BitVec.ofBool sign ++ BitVec.ofNat n w).getLsbD n = sign := by
  rw [BitVec.getLsbD_append]
  simp

theorem getLsbD_zero_sign_append (sign : Bool) {n : Nat} (hn : 0 < n) (w : Nat) :
    (BitVec.ofBool sign ++ BitVec.ofNat n w).getLsbD 0 = decide (w % 2 = 1) := by
  rw [BitVec.getLsbD_append, if_pos hn, BitVec.getLsbD_ofNat, decide_eq_true hn, Bool.true_and, Nat.testBit_zero]

/-- A pattern is its sign above its other bits. -/
theorem sign_append_eq {n : Nat} (x : BitVec (1 + n)) :
    BitVec.ofBool (x.getLsbD n) ++ BitVec.ofNat n (x.toNat % 2 ^ n) = x := by
  refine BitVec.eq_of_getLsbD_eq fun i hi => ?_
  rw [BitVec.getLsbD_append, BitVec.getLsbD_ofNat, Nat.testBit_mod_two_pow]
  by_cases hlow : i < n
  · simp [hlow, BitVec.getLsbD]
  · obtain rfl : i = n := by omega
    simp

/-! ### Encoding as rounding to a format -/

/-- Rounding a magnitude: below the least normal value on the lowest grid, else on that of the leading bit. -/
theorem formatRound_one (p c mag : Nat) :
    formatRound p c mag 1 =
      if mag < 2 ^ (c + p) then roundNearestEven mag (2 ^ c)
      else (mag.log2 - (c + p)) * 2 ^ p + roundNearestEven mag (2 ^ (mag.log2 - p)) := by
  rw [formatRound, gridExponent, Nat.div_one, Nat.one_mul]
  split
  case isTrue hlow =>
    have hlog : mag.log2 - p ≤ c := by
      by_cases h0 : mag = 0
      · simp [h0]
      · have := (Nat.log2_lt h0).mpr hlow
        omega
    rw [Nat.max_eq_left hlog, Nat.sub_self, Nat.zero_mul, Nat.zero_add]
  case isFalse hhigh =>
    have hne : mag ≠ 0 := fun h => hhigh (h ▸ Nat.two_pow_pos _)
    have hlog := (Nat.le_log2 hne).mpr (Nat.le_of_not_lt hhigh)
    rw [Nat.max_eq_right (by omega), Nat.sub_sub, Nat.add_comm p c]

theorem formatValue_zero (p c : Nat) : formatValue p c 0 = 0 := by
  simp [formatValue]

theorem formatRound_zero (p c : Nat) : formatRound p c 0 1 = 0 :=
  (congrArg (formatRound p c · 1) (formatValue_zero p c)).symm.trans (formatRound_formatValue p c 0)

theorem encHalfMagnitude_eq (mag : Nat) : encHalfMagnitude mag = formatRound 10 1050 mag 1 := by
  rw [encHalfMagnitude]
  split
  case isTrue h0 => rw [h0, formatRound_zero]
  case isFalse =>
    rw [formatRound_one, show 1074 - 14 = 1050 + 10 from rfl, show 1074 - 24 = 1050 from rfl,
      show mag.log2 + 14 - 1074 = mag.log2 - (1050 + 10) by omega]

theorem encSingleMagnitude_eq (mag : Nat) : encSingleMagnitude mag = min (255 * 2 ^ 23) (formatRound 23 925 mag 1) := by
  rw [encSingleMagnitude]
  split
  case isTrue h0 => rw [h0, formatRound_zero, Nat.min_zero]
  case isFalse h0 =>
    rw [formatRound_one, show 1074 - 126 = 925 + 23 from rfl, show 1074 - 149 = 925 from rfl,
      show mag.log2 + 126 - 1074 = mag.log2 - (925 + 23) by omega]
    by_cases hlow : mag < 2 ^ (925 + 23)
    · rw [if_pos hlow, if_pos hlow, Nat.min_eq_right]
      have hround : roundNearestEven mag (2 ^ 925) ≤ 2 ^ 23 :=
        roundNearestEven_le (by positivity) (by rw [mul_comm, ← pow_add]; exact hlow.le)
      exact hround.trans (by decide)
    · rw [if_neg hlow, if_neg hlow]
      split
      case isFalse => rfl
      case isTrue hhigh =>
        have hround : 2 ^ 23 ≤ roundNearestEven mag (2 ^ (mag.log2 - 23)) := by
          refine le_roundNearestEven (Nat.two_pow_pos _) ?_
          rw [← Nat.pow_add, Nat.add_sub_cancel' (by omega)]
          exact Nat.log2_self_le h0
        exact (Nat.min_eq_left (by omega)).symm

theorem enc16_of_finite (nan16 : BitVec 16) {d : Word64} (hfin : exp64 d ≠ 2047) :
    enc16 nan16 d = BitVec.ofBool (sign64 d) ++ BitVec.ofNat 15 (formatRound 10 1050 (magnitude64 d) 1) := by
  rw [enc16, if_neg (by simp [isNaN64, hfin]), if_neg (by simp [isInf64, hfin]), encHalfMagnitude_eq]

theorem enc32_of_finite (nan32 : BitVec 32) {d : Word64} (hfin : exp64 d ≠ 2047) :
    enc32 nan32 d = BitVec.ofBool (sign64 d)
      ++ BitVec.ofNat 31 (min (255 * 2 ^ 23) (formatRound 23 925 (magnitude64 d) 1)) := by
  rw [enc32, if_neg (by simp [isNaN64, hfin]), if_neg (by simp [isInf64, hfin]), encSingleMagnitude_eq]

/-! ### The patterns of the two formats -/

theorem fields16 (h : BitVec 16) :
    (h.extractLsb' 10 5).toNat = h.toNat % 2 ^ 15 / 2 ^ 10 ∧
      (h.extractLsb' 0 10).toNat = h.toNat % 2 ^ 15 % 2 ^ 10 := by
  simp only [BitVec.extractLsb'_toNat, Nat.shiftRight_eq_div_pow]
  omega

theorem fields32 (w : BitVec 32) :
    (w.extractLsb' 23 8).toNat = w.toNat % 2 ^ 31 / 2 ^ 23 ∧
      (w.extractLsb' 0 23).toNat = w.toNat % 2 ^ 31 % 2 ^ 23 := by
  simp only [BitVec.extractLsb'_toNat, Nat.shiftRight_eq_div_pow]
  omega

theorem magnitude16_eq (h : BitVec 16) : magnitude16 h = formatValue 10 1050 (h.toNat % 2 ^ 15) := by
  rw [magnitude16, (fields16 h).1, (fields16 h).2, formatValue]
  generalize h.toNat % 2 ^ 15 / 2 ^ 10 = x
  rw [show 1074 - 24 = 1050 from rfl, show 1024 = 2 ^ 10 from rfl]
  split
  case isTrue => rfl
  case isFalse hx => rw [show 1074 + x - 25 = 1050 + x - 1 by omega]

theorem magnitude32_eq (w : BitVec 32) : magnitude32 w = formatValue 23 925 (w.toNat % 2 ^ 31) := by
  rw [magnitude32, (fields32 w).1, (fields32 w).2, formatValue]
  generalize w.toNat % 2 ^ 31 / 2 ^ 23 = x
  rw [show 1074 - 149 = 925 from rfl]
  split
  case isTrue => rfl
  case isFalse hx => rw [show 1074 + x - 150 = 925 + x - 1 by omega]

theorem finite16_iff_lt (h : BitVec 16) : finite16 h = true ↔ h.toNat % 2 ^ 15 < 31 * 2 ^ 10 := by
  have hx : finite16 h = true ↔ (h.extractLsb' 10 5).toNat ≠ 31 := by simp [finite16, ← BitVec.toNat_inj]
  rw [hx, (fields16 h).1]
  omega

theorem isNaN16_iff_lt (h : BitVec 16) : isNaN16 h = true ↔ 31 * 2 ^ 10 < h.toNat % 2 ^ 15 := by
  have hx : isNaN16 h = true ↔ (h.extractLsb' 10 5).toNat = 31 ∧ (h.extractLsb' 0 10).toNat ≠ 0 := by
    simp [isNaN16, ← BitVec.toNat_inj]
  rw [hx, (fields16 h).1, (fields16 h).2]
  omega

theorem finite32_iff_lt (w : BitVec 32) : finite32 w = true ↔ w.toNat % 2 ^ 31 < 255 * 2 ^ 23 := by
  rw [finite32_iff, (fields32 w).1]
  omega

theorem isNaN32_iff_lt (w : BitVec 32) : isNaN32 w = true ↔ 255 * 2 ^ 23 < w.toNat % 2 ^ 31 := by
  rw [isNaN32_iff, (fields32 w).1, (fields32 w).2]
  omega

/-! ### Decoding (42_float.md R79) -/

theorem dec16_of_finite (nan64d : Word64) {h : BitVec 16} (hfin : finite16 h = true) :
    dec16 nan64d h = pack64 (h.getLsbD 15) (magnitude16 h) := by
  have hexp : (h.extractLsb' 10 5).toNat ≠ 31 := by simpa [finite16, ← BitVec.toNat_inj] using hfin
  simp only [dec16, if_neg hexp, magnitude16]
  split <;> rfl

/-- A half that is neither finite nor NaN has the exponent field 31 and no fraction. -/
theorem toNat_of_infinite16 {h : BitVec 16} (hinf : finite16 h = false) (hnan : isNaN16 h = false) :
    h.toNat % 2 ^ 15 = 31 * 2 ^ 10 := by
  have hfin := (finite16_iff_lt h).not.mp (by simp [hinf])
  have hnum := (isNaN16_iff_lt h).not.mp (by simp [hnan])
  omega

theorem toNat_of_infinite32 {w : BitVec 32} (hinf : finite32 w = false) (hnan : isNaN32 w = false) :
    w.toNat % 2 ^ 31 = 255 * 2 ^ 23 := by
  have hfin := (finite32_iff_lt w).not.mp (by simp [hinf])
  have hnum := (isNaN32_iff_lt w).not.mp (by simp [hnan])
  omega

theorem dec16_of_infinite (nan64d : Word64) {h : BitVec 16} (hinf : finite16 h = false) (hnan : isNaN16 h = false) :
    dec16 nan64d h = infinity64 (h.getLsbD 15) := by
  have hlow := toNat_of_infinite16 hinf hnan
  have hexp : (h.extractLsb' 10 5).toNat = 31 := by rw [(fields16 h).1, hlow]; rfl
  have hfrac : (h.extractLsb' 0 10).toNat = 0 := by rw [(fields16 h).2, hlow]; rfl
  simp only [dec16, if_pos hexp, if_pos hfrac]

theorem dec16_of_isNaN (nan64d : Word64) {h : BitVec 16} (hnan : isNaN16 h = true) : dec16 nan64d h = nan64d := by
  have hlow := (isNaN16_iff_lt h).mp hnan
  have hexp : (h.extractLsb' 10 5).toNat = 31 := by rw [(fields16 h).1]; omega
  have hfrac : (h.extractLsb' 0 10).toNat ≠ 0 := by rw [(fields16 h).2]; omega
  simp only [dec16, if_pos hexp, if_neg hfrac]

/-- A half's magnitude is an 11-bit significand scaled far inside the range of binary64. -/
theorem pack64_magnitude16 (sign : Bool) (h : BitVec 16) :
    sign64 (pack64 sign (magnitude16 h)) = sign ∧ exp64 (pack64 sign (magnitude16 h)) ≠ 2047 ∧
      magnitude64 (pack64 sign (magnitude16 h)) = magnitude16 h := by
  have hexp := (h.extractLsb' 10 5).isLt
  have hfrac := (h.extractLsb' 0 10).isLt
  rw [magnitude16]
  split <;> exact pack64_significand sign (by omega) (by omega)

/-- Settles O27: one clause per kind of pattern; a finite one is packed without loss. -/
theorem halfDecodeIsExact : Obligations.HalfDecodeIsExact := by
  intro nan64d h
  refine ⟨fun hfin => ?finite, fun hinf hnan => ?infinite, dec16_of_isNaN nan64d⟩
  case finite => exact dec16_of_finite nan64d hfin ▸ pack64_magnitude16 (h.getLsbD 15) h
  case infinite => rw [dec16_of_infinite nan64d hinf hnan, infinity64_eq]

/-! ### Rounding (42_float.md R84, R85, R87) -/

/-- Magnitudes up to 65504 stay below the exponent field of the infinities. -/
theorem formatRound_half_lt {mag : Nat} (h : mag ≤ 65504 * 2 ^ 1074) : formatRound 10 1050 mag 1 < 31 * 2 ^ 10 := by
  rw [formatRound_lt_iff 10 1050 mag one_pos (by decide), Nat.one_mul, show 1050 + (31 - 2) = 5 + 1074 from rfl,
    pow_add 2 5]
  generalize 1074 = k at h ⊢
  have hpos := Nat.two_pow_pos k
  omega

/-- Settles O29: the encoding is the rounded pattern, which stays below the exponent field of the infinities. -/
theorem halfEncodeRoundsToNearestEven : Obligations.HalfEncodeRoundsToNearestEven := by
  intro nan16 d hfin hmax
  have hlt := formatRound_half_lt hmax
  have hlow := toNat_sign_append_mod (n := 15) (sign64 d) (hlt.trans (by decide))
  rw [enc16_of_finite nan16 hfin]
  refine ⟨(finite16_iff_lt _).mpr (hlow.trans_lt hlt), getLsbD_sign_append _ 15 _, fun g _ => ?_⟩
  obtain ⟨hle, heven⟩ :=
    formatRound_nearest (p := 10) (by decide) 1050 (magnitude64 d) one_pos (g.toNat % 2 ^ 15)
  rw [magnitude16_eq, magnitude16_eq, hlow]
  simp only [Nat.mul_one] at hle heven
  refine ⟨hle, fun heq hne => ?_⟩
  rw [getLsbD_zero_sign_append _ (by decide), heven heq hne]
  rfl

/-- The overflow midpoint of binary32: below it the exponent field stays below that of the infinities. -/
theorem formatRound_single_lt_iff (mag : Nat) :
    formatRound 23 925 mag 1 < 255 * 2 ^ 23 ↔ mag < (2 ^ 25 - 1) * 2 ^ (103 + 1074) := by
  rw [formatRound_lt_iff 23 925 mag one_pos (by decide), Nat.one_mul,
    show 925 + (255 - 2) = 1 + (103 + 1074) from rfl, pow_add 2 1]
  generalize 103 + 1074 = k
  omega

/-- Settles O30: below the midpoint the encoding is the rounded pattern, from it on the clamp makes it the infinity. -/
theorem singleEncodeRoundsToNearestEven : Obligations.SingleEncodeRoundsToNearestEven := by
  intro nan32 d hfin
  have hmid := formatRound_single_lt_iff (magnitude64 d)
  rw [enc32_of_finite nan32 hfin]
  refine ⟨getLsbD_sign_append _ 31 _, fun hbig => ?_, fun hsmall => ?_⟩
  · have hge := Nat.not_lt.mp (hmid.not.mpr hbig.not_gt)
    rw [Nat.min_eq_left hge]
    have hlow := toNat_sign_append_mod (n := 31) (w := 255 * 2 ^ 23) (sign64 d) (by decide)
    constructor
    · rw [← Bool.not_eq_true, finite32_iff_lt, hlow]
      exact lt_irrefl _
    · rw [← Bool.not_eq_true, isNaN32_iff_lt, hlow]
      exact lt_irrefl _
  · have hlt := hmid.mpr hsmall
    have hlow := toNat_sign_append_mod (n := 31) (sign64 d) (hlt.trans (by decide))
    rw [Nat.min_eq_right hlt.le]
    refine ⟨(finite32_iff_lt _).mpr (hlow.trans_lt hlt), fun g _ => ?_⟩
    obtain ⟨hle, heven⟩ :=
      formatRound_nearest (p := 23) (by decide) 925 (magnitude64 d) one_pos (g.toNat % 2 ^ 31)
    rw [magnitude32_eq, magnitude32_eq, hlow]
    simp only [Nat.mul_one] at hle heven
    refine ⟨hle, fun heq hne => ?_⟩
    rw [getLsbD_zero_sign_append _ (by decide), heven heq hne]
    rfl

/-! ### Encoding a decoded pattern -/

theorem enc16_infinity64 (nan16 : BitVec 16) (sign : Bool) :
    enc16 nan16 (infinity64 sign) = BitVec.ofBool sign ++ BitVec.ofNat 15 (31 * 2 ^ 10) := by
  cases sign <;> rfl

theorem enc32_infinity64 (nan32 : BitVec 32) (sign : Bool) :
    enc32 nan32 (infinity64 sign) = BitVec.ofBool sign ++ BitVec.ofNat 31 (255 * 2 ^ 23) := by
  cases sign <;> rfl

theorem enc16_dec16 (nan16 : BitVec 16) (nan64d : Word64) {h : BitVec 16} (hnan : isNaN16 h = false) :
    enc16 nan16 (dec16 nan64d h) = h := by
  refine Eq.trans ?_ (sign_append_eq (n := 15) h)
  cases hfin : finite16 h with
  | true =>
    obtain ⟨hsign, hexp, hmag⟩ := (halfDecodeIsExact nan64d h).1 hfin
    rw [enc16_of_finite nan16 hexp, hsign, hmag, magnitude16_eq, formatRound_formatValue]
  | false => rw [dec16_of_infinite nan64d hfin hnan, enc16_infinity64, toNat_of_infinite16 hfin hnan]

theorem enc32_dec32 (nan32 : BitVec 32) (nan64d : Word64) {w : BitVec 32} (hnan : isNaN32 w = false) :
    enc32 nan32 (dec32 nan64d w) = w := by
  refine Eq.trans ?_ (sign_append_eq (n := 31) w)
  cases hfin : finite32 w with
  | true =>
    obtain ⟨hsign, hexp, hmag⟩ := (singleDecodeIsExact nan64d w).1 hfin
    have hlt := (finite32_iff_lt w).mp hfin
    rw [enc32_of_finite nan32 hexp, hsign, hmag, magnitude32_eq, formatRound_formatValue, Nat.min_eq_right hlt.le]
  | false =>
    obtain ⟨-, hinf, -⟩ := singleDecodeIsExact nan64d w
    rw [hinf hfin hnan, ← infinity64_eq, enc32_infinity64, toNat_of_infinite32 hfin hnan]

/-- Settles O31: decoding is exact and rounding keeps the values of the format. -/
theorem narrowPatternsSurviveDecodeEncode : Obligations.NarrowPatternsSurviveDecodeEncode :=
  ⟨fun nan16 nan64d _ => enc16_dec16 nan16 nan64d, fun nan32 nan64d _ => enc32_dec32 nan32 nan64d⟩

/-- Settles O32: NaN operands are the first case of each conversion, the fixed patterns are evaluated. -/
theorem encodeSpecialValues : Obligations.EncodeSpecialValues := by
  intro nan16 nan32 nan64d d
  refine ⟨fun hnan => ⟨if_pos hnan, if_pos hnan, if_pos hnan⟩, fun hnum => if_neg (by simp [hnum]), rfl, ?_⟩
  refine ⟨rfl, rfl, rfl, rfl, rfl, rfl, rfl, rfl, ?_, ?_⟩
  · have hzero : magnitude16 0x8000#16 = 0 := (magnitude16_eq _).trans (formatValue_zero 10 1050)
    rw [dec16_of_finite nan64d (by decide), hzero]
    decide
  · have hzero : magnitude32 0x80000000#32 = 0 := (magnitude32_eq _).trans (formatValue_zero 23 925)
    rw [dec32_of_finite nan64d (by decide), hzero]
    decide

end Sys2Proof.Machine
end

section
/-!
PROOFS. 30_encoding.md R60, R61 (O59, O60): a line's last access writes the command word, which O3 gives as a sum; a
decimal operand is rounded to binary64 as a format of 52 fraction bits.
-/

namespace Sys2Proof.Machine

open Sys2Proof

/-! ### Lines -/

theorem issue_of_toNat {i : Instr} {x : Nat} (h : (encode i).toNat = x) : issue i = .write 0 (BitVec.ofNat 64 x) := by
  rw [issue, ← h, BitVec.ofNat_toNat]

theorem floatLine_of_toNat {i : Instr} {x : FloatLiteral} {p : Word64} {y : Nat} (hp : x.pattern64 = some p)
    (h : (encode i).toNat = y) : floatLine i x = some [.write 1 p, .write 0 (BitVec.ofNat 64 y)] := by
  rw [floatLine, hp, Option.map_some, issue_of_toNat h]

/-- Settles O59: every line ends with the write of its command's word, the sum of its fields. -/
theorem assemblerLinesExpand : Obligations.AssemblerLinesExpand := by
  obtain ⟨hbits, hfloat, hskip, hgoto, halign, halignrev⟩ := commandWordsAreFieldSums
  refine ⟨fun c x y => ?cursor, fun c u e n x hn => ?bits, fun c e x p hp => ?write, fun c e => ?read, fun p => rfl,
    ?positive, ?negative, rfl⟩
  case cursor =>
    refine ⟨?_, ?_, ?_, ?_, rfl, rfl, rfl, rfl⟩
    · rw [expandLine, issue_of_toNat hskip]; rfl
    · rw [expandLine, issue_of_toNat hgoto]; rfl
    · rw [expandLine, issue_of_toNat halign]; rfl
    · rw [expandLine, issue_of_toNat halignrev]; rfl
  case bits =>
    obtain ⟨hwr, hrd⟩ := hbits n u e hn
    rw [expandLine, expandLine, if_pos hn, if_pos hn, issue_of_toNat hwr, issue_of_toNat hrd]
    exact ⟨rfl, rfl⟩
  case write =>
    obtain ⟨h16, -, h32, -, h64, -⟩ := hfloat e
    exact ⟨floatLine_of_toNat hp h16, floatLine_of_toNat hp h32, floatLine_of_toNat hp h64⟩
  case read =>
    obtain ⟨-, h16, -, h32, -, h64⟩ := hfloat e
    rw [expandLine, expandLine, expandLine, issue_of_toNat h16, issue_of_toNat h32, issue_of_toNat h64]
    exact ⟨rfl, rfl, rfl⟩
  case positive => exact congrArg some (infinity64_eq false)
  case negative => exact congrArg some (infinity64_eq true)

/-! ### Decimal operands (30_encoding.md R60) -/

/-- A decimal operand is the value of the rounded pattern, where the pattern is finite. -/
theorem nearest64_eq (num : Nat) {den : Nat} (hden : 0 < den) :
    nearest64 num den =
      if formatRound 52 0 (num * 2 ^ 1074) den < 2047 * 2 ^ 52 then
        some (formatValue 52 0 (formatRound 52 0 (num * 2 ^ 1074) den))
      else none := by
  have hgrid : gridExponent 52 0 (num * 2 ^ 1074) den = (num * 2 ^ 1074 / den).log2 - 52 := Nat.zero_max _
  have hvalue := formatValue_formatRound 52 0 (num * 2 ^ 1074) hden
  have hlt := formatValue_lt_iff 52 0 (formatRound 52 0 (num * 2 ^ 1074) den) (x := 2047) (by decide)
  rw [hgrid] at hvalue
  rw [nearest64, ← hvalue, show 1024 + 1074 = 52 + 0 + (2047 - 1) from rfl]
  exact if_congr hlt rfl rfl

/-- The magnitude of a binary64 pattern is the value of its bits below the sign. -/
theorem magnitude64_eq (d : Word64) : magnitude64 d = formatValue 52 0 (d.toNat % 2 ^ 63) := by
  have hexp : exp64 d = d.toNat % 2 ^ 63 / 2 ^ 52 := by
    rw [exp64, BitVec.extractLsb'_toNat, Nat.shiftRight_eq_div_pow]
    omega
  have hfrac : frac64 d = d.toNat % 2 ^ 63 % 2 ^ 52 := by
    rw [frac64, BitVec.extractLsb'_toNat, Nat.shiftRight_eq_div_pow]
    omega
  rw [magnitude64, hexp, hfrac, formatValue, Nat.pow_zero, Nat.mul_one, Nat.zero_add]

/-- Packing a finite value of the format gives back its sign and its pattern. -/
theorem pack64_formatValue (sign : Bool) {w : Nat} (hw : w < 2047 * 2 ^ 52) :
    sign64 (pack64 sign (formatValue 52 0 w)) = sign ∧ exp64 (pack64 sign (formatValue 52 0 w)) ≠ 2047 ∧
      magnitude64 (pack64 sign (formatValue 52 0 w)) = formatValue 52 0 w ∧
      (pack64 sign (formatValue 52 0 w)).toNat % 2 ^ 63 = w := by
  obtain ⟨m, k, hm, -, hvalue⟩ := formatValue_eq_significand 52 0 w
  have hlt : formatValue 52 0 w < 2 ^ (1024 + 1074) := by
    rw [show 1024 + 1074 = 52 + 0 + (2047 - 1) from rfl]
    exact (formatValue_lt_iff 52 0 w (by decide)).mpr hw
  have hdvd := two_pow_log2_sub_dvd k hm
  rw [← hvalue] at hdvd
  obtain ⟨hsign, hexp, hmag⟩ := pack64_exact sign hlt hdvd
  exact ⟨hsign, hexp, hmag, formatValue_injective ((magnitude64_eq _).symm.trans hmag)⟩

/-- The overflow midpoint of binary64. -/
theorem formatRound_double_lt_iff (a : Nat) {d : Nat} (hd : 0 < d) :
    formatRound 52 0 a d < 2047 * 2 ^ 52 ↔ a < (2 ^ 54 - 1) * 2 ^ (970 + 1074) * d := by
  rw [formatRound_lt_iff 52 0 a hd (by decide), show 0 + (2047 - 2) = 970 + 1074 + 1 from rfl]
  generalize 970 + 1074 = k
  have hscale : (2 ^ (52 + 2) - 1) * (d * 2 ^ (k + 1)) = 2 * ((2 ^ 54 - 1) * 2 ^ k * d) := by
    rw [pow_succ]
    ring
  rw [hscale]
  exact Nat.mul_lt_mul_left two_pos

theorem getLsbD_zero_of_even {p : Word64} (h : p.toNat % 2 ^ 63 % 2 = 0) : p.getLsbD 0 = false := by
  rw [BitVec.getLsbD, Nat.testBit_zero, decide_eq_false_iff_not]
  omega

/-- Settles O60: the operand is the rounded pattern; it is finite exactly below the overflow midpoint. -/
theorem decimalOperandsDenoteNearestDouble : Obligations.DecimalOperandsDenoteNearestDouble := by
  intro neg digits exp10
  have hden : 0 < decimalDen exp10 := Nat.pow_pos (by decide)
  have hmid := formatRound_double_lt_iff (decimalNum digits exp10 * 2 ^ 1074) hden
  have hpattern : (FloatLiteral.decimal neg digits exp10).pattern64 =
      (nearest64 (decimalNum digits exp10) (decimalDen exp10)).map (pack64 neg) := rfl
  have hnear := formatRound_nearest (p := 52) (by decide) 0 (decimalNum digits exp10 * 2 ^ 1074) hden
  rw [nearest64_eq _ hden] at hpattern
  generalize formatRound 52 0 (decimalNum digits exp10 * 2 ^ 1074) (decimalDen exp10) = w at *
  by_cases hw : w < 2047 * 2 ^ 52
  · rw [if_pos hw, Option.map_some] at hpattern
    rw [hpattern]
    refine ⟨iff_of_false nofun (Nat.not_le.mpr (hmid.mp hw)), fun p hp => ?_⟩
    obtain rfl := Option.some.inj hp
    obtain ⟨hsign, hexp, hmag, hbits⟩ := pack64_formatValue neg hw
    refine ⟨hsign, hexp, fun q _ => ?_⟩
    rw [hmag, magnitude64_eq q]
    obtain ⟨hle, heven⟩ := hnear (q.toNat % 2 ^ 63)
    exact ⟨hle, fun heq hne => getLsbD_zero_of_even (by rw [hbits]; exact heven heq hne)⟩
  · rw [if_neg hw, Option.map_none] at hpattern
    rw [hpattern]
    exact ⟨iff_of_true rfl (Nat.not_lt.mp (hmid.not.mp hw)), nofun⟩

end Sys2Proof.Machine
end

section
/-!
PROOFS. 42_float.md R89 to R96 (O33, O34, O37 to O41): a float read with capacity returns what the bytes at `cur.off`
weigh in the effective order; after the matching write that is the pattern written. At the top of the offset range the
same effects hold, with a free `cur.off` (log 4).
-/

namespace Sys2Proof.Machine

open Sys2Proof

/-! ### The pattern of the bytes read (42_float.md R91) -/

theorem patternLE_concat (bytes : List Byte) (b : Byte) :
    patternLE (bytes ++ [b]) = patternLE bytes + 256 ^ bytes.length * b.toNat := by
  induction bytes with
  | nil => simp [patternLE]
  | cons c bytes ih =>
    simp only [List.cons_append, patternLE, ih, List.length_cons]
    ring

/-- The pattern gathered is the sum of the bytes, each with the weight of its place. -/
theorem gatherBytes_readBytes (e : Endian) (m : Memory) (addr w : Nat) :
    gatherBytes e (m.readBytes addr w) = ∑ i ∈ Finset.range w, (m.read (addr + i)).toNat * byteWeight e w i := by
  cases e with
  | little =>
    induction w generalizing addr with
    | zero => rfl
    | succ w ih =>
      have hrest := ih (addr + 1)
      simp only [gatherBytes, byteWeight] at hrest ⊢
      rw [Memory.readBytes, patternLE, hrest, Finset.sum_range_succ', Finset.mul_sum, Nat.add_comm]
      congr 1
      · refine Finset.sum_congr rfl fun i _ => ?_
        rw [Nat.add_right_comm, Nat.add_assoc addr i 1]
        ring
      · simp
  | big =>
    induction w generalizing addr with
    | zero => rfl
    | succ w ih =>
      have hrest := ih (addr + 1)
      simp only [gatherBytes, byteWeight] at hrest ⊢
      rw [Memory.readBytes, List.reverse_cons, patternLE_concat, hrest, Finset.sum_range_succ']
      congr 1
      · refine Finset.sum_congr rfl fun i _ => ?_
        rw [Nat.add_right_comm, Nat.add_assoc addr i 1, show w + 1 - 1 - (i + 1) = w - 1 - i by omega]
      · simp [Nat.mul_comm]

/-! ### Float commands with capacity -/

theorem ensureCapacity_floatNeeded {w : Nat} {s : State} (hcap : hasCapacity (s.curOff.toNat + w) s = true) :
    ensureCapacity (s.floatNeeded w) s = some ⟨s.buf.cells, sizeAfter (s.curOff.toNat + w) s⟩ := by
  rw [State.floatNeeded_eq, ensureCapacity_of_hasCapacity hcap]

/-- With capacity a float write stores its pattern wherever the cursor ends. -/
theorem storesPatternAtTop_floatWrite {w : Nat} (p : Nat) (e : OrderSel) {s : State}
    (hcap : hasCapacity (s.curOff.toNat + w) s = true) : StoresPatternAtTop w p e s (floatWrite w p e s) := by
  have hbuf := ensureCapacity_floatNeeded hcap
  rcases floatWrite_cases w p e s with ⟨hnone, -⟩ | ⟨b, hsome, hdone⟩
  · cases hnone.symm.trans hbuf
  · obtain rfl := Option.some.inj (hsome.symm.trans hbuf)
    refine ⟨_, hdone, rfl, fun i hi => ?stored, fun a ha => ?kept, rfl⟩
    case stored =>
      have hlen : i < (layoutBytes (effOrder e s) p w).length := by simpa using hi
      exact (Memory.read_writeBytes_inside s.buf.cells _ s.curOff.toNat i hlen).trans (getElem_layoutBytes _ _ _ _ _)
    case kept => exact Memory.read_writeBytes_outside _ _ _ (by simpa using ha)

/-- With capacity a float read returns the decoded pattern and advances. -/
theorem floatRead_of_hasCapacity {w : Nat} (dec : Nat → Word64) (e : OrderSel) {s : State}
    (hcap : hasCapacity (s.curOff.toNat + w) s = true) :
    floatRead w dec e s = .next (((s.setBuf ⟨s.buf.cells, sizeAfter (s.curOff.toNat + w) s⟩).setRes
      (dec (∑ i ∈ Finset.range w, (s.buf.byte (s.curOff.toNat + i)).toNat * byteWeight (effOrder e s) w i))).advance
        w 0).complete := by
  have hbuf := ensureCapacity_floatNeeded hcap
  rcases floatRead_cases w dec e s with ⟨hnone, -⟩ | ⟨b, hsome, hdone⟩
  · cases hnone.symm.trans hbuf
  · obtain rfl := Option.some.inj (hsome.symm.trans hbuf)
    rw [hdone, gatherBytes_readBytes]
    rfl

theorem returnsPatternAtTop_floatRead {w : Nat} (dec : Nat → Word64) (e : OrderSel) {s : State}
    (hcap : hasCapacity (s.curOff.toNat + w) s = true) : ReturnsPatternAtTop w dec e s (floatRead w dec e s) :=
  ⟨_, floatRead_of_hasCapacity dec e hcap, rfl, rfl⟩

theorem returnsPattern_floatRead {w : Nat} (dec : Nat → Word64) (e : OrderSel) {s : State}
    (hcap : hasCapacity (s.curOff.toNat + w) s = true) (htop : s.curOff.toNat + w < 2 ^ 64) :
    ReturnsPattern w dec e s (floatRead w dec e s) := by
  refine ⟨_, floatRead_of_hasCapacity dec e hcap, figure64_toNat _ htop, rfl, ?_⟩
  rw [State.advance_eq_setCursor]
  · rfl
  · exact htop

/-- Settles O33: past its range check `WRF16` is a float write of two bytes. -/
theorem wrf16StoresHalf : Obligations.Wrf16StoresHalf := by
  intro s e hok hcap htop
  rw [exec_wrf16_of_in_range e hok]
  exact storesPattern_floatWrite _ e hcap htop

/-- Settles O34: `WRF32` is a float write of four bytes, with no check before it. -/
theorem wrf32StoresSingle : Obligations.Wrf32StoresSingle := by
  intro s e hcap htop
  exact storesPattern_floatWrite (enc32 s.inst.nan32 s.opa).toNat e hcap htop

/-- Settles O37: `RDF16` is a float read of two bytes. -/
theorem rdf16ReturnsHalf : Obligations.Rdf16ReturnsHalf := by
  intro s e hcap htop
  exact returnsPattern_floatRead (fun p => dec16 s.inst.nan64d (BitVec.ofNat 16 p)) e hcap htop

/-- Settles O38: `RDF32` is a float read of four bytes. -/
theorem rdf32ReturnsSingle : Obligations.Rdf32ReturnsSingle := by
  intro s e hcap htop
  exact returnsPattern_floatRead (fun p => dec32 s.inst.nan64d (BitVec.ofNat 32 p)) e hcap htop

/-- Settles O39: `RDF64` is a float read of eight bytes. -/
theorem rdf64ReturnsDouble : Obligations.Rdf64ReturnsDouble := by
  intro s e hcap htop
  exact returnsPattern_floatRead (fun p => dec64 s.inst.nan64d (BitVec.ofNat 64 p)) e hcap htop

/-- Settles O41: what the commands do with capacity does not ask where the cursor ends. -/
theorem topOfRangeCommandsComplete : Obligations.TopOfRangeCommandsComplete := by
  intro s e
  refine ⟨fun n u h1 h32 hcap _ => ⟨fun hunsigned hsigned => ?wrbits, ?rdbits⟩,
    fun hcap _ => ⟨fun hok => ?wrf16, ?rdf16⟩, fun hcap _ => ⟨?wrf32, ?rdf32⟩, fun hcap _ => ⟨?wrf64, ?rdf64⟩⟩
  case wrbits =>
    obtain ⟨b, hexec, hstored⟩ := exec_wrbits_of_hasCapacity e h1 h32 (inRange_of_bounds hunsigned hsigned) hcap
    exact ⟨_, hexec, toNat_curBit_advanceBits n (s.setBuf b), hstored.size, hstored.field, hstored.stream,
      hstored.bytes, rfl⟩
  case rdbits =>
    obtain ⟨v, hexec, hreturned⟩ := exec_rdbits_of_hasCapacity u e h1 h32 hcap
    exact ⟨_, hexec, toNat_curBit_advanceBits n s, hreturned.field, hreturned.above, rfl⟩
  case wrf16 => exact exec_wrf16_of_in_range e hok ▸ storesPatternAtTop_floatWrite _ e hcap
  case wrf32 => exact storesPatternAtTop_floatWrite (enc32 s.inst.nan32 s.opa).toNat e hcap
  case wrf64 => exact storesPatternAtTop_floatWrite s.opa.toNat e hcap
  case rdf16 => exact returnsPatternAtTop_floatRead (fun p => dec16 s.inst.nan64d (BitVec.ofNat 16 p)) e hcap
  case rdf32 => exact returnsPatternAtTop_floatRead (fun p => dec32 s.inst.nan64d (BitVec.ofNat 32 p)) e hcap
  case rdf64 => exact returnsPatternAtTop_floatRead (fun p => dec64 s.inst.nan64d (BitVec.ofNat 64 p)) e hcap

/-! ### Reading back (42_float.md R96) -/

/-- A float read of the bytes of a pattern's layout decodes that pattern, with no further growth. -/
theorem floatRead_of_written {w p : Nat} (dec : Nat → Word64) {e : OrderSel} {s : State} {m : Memory}
    (hp : p < 256 ^ w) (hsize : s.floatNeeded w ≤ s.buf.size)
    (hcells : s.buf.cells = Memory.writeBytes m s.curOff.toNat (layoutBytes (effOrder e s) p w)) :
    ∃ t, floatRead w dec e s = .next t ∧ t.statusCode = 0 ∧ t.res = dec p := by
  rcases floatRead_cases w dec e s with ⟨hnone, -⟩ | ⟨b, hsome, hdone⟩
  · cases hnone.symm.trans (ensureCapacity_of_le hsize)
  · obtain rfl := Option.some.inj (hsome.symm.trans (ensureCapacity_of_le hsize))
    have hbytes := Memory.readBytes_writeBytes m s.curOff.toNat (layoutBytes (effOrder e s) p w)
    rw [length_layoutBytes] at hbytes
    refine ⟨_, hdone, rfl, ?_⟩
    calc dec (gatherBytes (effOrder e s) (Memory.readBytes s.buf.cells s.curOff.toNat w))
      _ = dec p := by rw [hcells, hbytes, gatherBytes_layoutBytes, Nat.mod_eq_of_lt hp]

/-- The matching read, from the same cursor, of a float write that completed. -/
theorem floatRead_of_floatWrite {w p : Nat} (dec : Nat → Word64) {e : OrderSel} {s t : State} (hp : p < 256 ^ w)
    (ht : floatWrite w p e s = .next t) (hcode : t.statusCode = 0) :
    ∃ r, floatRead w dec e { t with curOff := s.curOff, curBit := s.curBit } = .next r ∧ r.statusCode = 0 ∧
      r.res = dec p := by
  rcases floatWrite_cases w p e s with ⟨-, hraise⟩ | ⟨b, hsome, hdone⟩
  · obtain rfl := Host.Outcome.next.inj (hraise.symm.trans ht)
    exact absurd hcode (raise_statusCode_ne_zero _ _ s)
  · obtain rfl := Host.Outcome.next.inj (hdone.symm.trans ht)
    refine floatRead_of_written (m := b.cells) dec hp (ensureCapacity_some hsome).1 ?_
    cases e <;> rfl

theorem paramsOk_nan {p : Config.Params} (h : paramsOk p = true) :
    isNaN16 p.nan16 = true ∧ isNaN32 p.nan32 = true := by
  simp only [paramsOk, Bool.and_eq_true] at h
  obtain ⟨⟨⟨h16, h32⟩, -⟩, -⟩ := h
  exact ⟨by simpa [isNaN16] using h16, by simpa [isNaN32] using h32⟩

/-- Settles O40: each read decodes the pattern that the write encoded; decoding and encoding do the rest. -/
theorem floatWriteThenReadLaws : Obligations.FloatWriteThenReadLaws := by
  intro s t e hparams hcode
  obtain ⟨hnan16, hnan32⟩ := paramsOk_nan hparams
  have hinst {i : Instr} (ht : exec i s = .next t) : t.inst = s.inst := (commandEnd_of_exec ht).inst_cfg.1
  refine ⟨fun ht => ?double, fun ht => ?single, fun ht => ?half⟩
  case double =>
    obtain ⟨r, hr, hdone, hres⟩ :=
      floatRead_of_floatWrite (fun p => dec64 t.inst.nan64d (BitVec.ofNat 64 p)) s.opa.isLt ht hcode
    refine ⟨r, hr, hdone, hres.trans ?_⟩
    rw [BitVec.ofNat_toNat, BitVec.setWidth_eq, hinst ht, dec64, enc64]
  case single =>
    obtain ⟨r, hr, hdone, hres⟩ := floatRead_of_floatWrite (fun p => dec32 t.inst.nan64d (BitVec.ofNat 32 p))
      (enc32 s.inst.nan32 s.opa).isLt ht hcode
    simp only [BitVec.ofNat_toNat, BitVec.setWidth_eq, hinst ht] at hres
    refine ⟨r, hr, hdone, fun hnan => ?_, fun _ => hres, fun _ ⟨w, hw, hdec⟩ => ?_⟩
    · rw [hres, enc32, if_pos hnan, dec32_of_isNaN _ hnan32]
    · rw [hres, ← hdec, enc32_dec32 _ _ hw]
  case half =>
    cases hok : halfRangeOk s.inst.halfMax s.opa with
    | false =>
      obtain rfl := Host.Outcome.next.inj ((exec_wrf16_of_out_of_range e hok).symm.trans ht)
      exact absurd hcode (raise_statusCode_ne_zero _ _ s)
    | true =>
      have hwrite := (exec_wrf16_of_in_range e hok).symm.trans ht
      obtain ⟨r, hr, hdone, hres⟩ := floatRead_of_floatWrite (fun p => dec16 t.inst.nan64d (BitVec.ofNat 16 p))
        (enc16 s.inst.nan16 s.opa).isLt hwrite hcode
      simp only [BitVec.ofNat_toNat, BitVec.setWidth_eq, hinst ht] at hres
      refine ⟨r, hr, hdone, fun hnan => ?_, fun _ => hres, fun _ ⟨w, hw, hdec⟩ => ?_⟩
      · rw [hres, enc16, if_pos hnan, dec16_of_isNaN _ hnan16]
      · rw [hres, ← hdec, enc16_dec16 _ _ hw]

end Sys2Proof.Machine
end
